-- ==== Sys2Proof/Word.lean ====
section
/-! DEFINITION. Words, bytes and register names (00_scope.md rule R5, 10_state.md rule R20).
`u(v)` of R5 is `v.toNat`, `s(v)` is `v.toInt`, bit `v[i]` is `v.getLsbD i`. -/
namespace Sys2Proof

/-- The machine's 16-bit atomic unit of storage and addressing (R5, R50). -/
abbrev Word := BitVec 16

/-- A byte of the two I/O streams (R31, R32, R51). -/
abbrev Byte := BitVec 8

/-- A general register's number, 0 to 7 (R20). -/
abbrev Reg := Fin 8

/-- `w16(n)` of R5: the word congruent to the integer `n` modulo 65536. -/
def w16 (n : Int) : Word := BitVec.ofInt 16 n

end Sys2Proof
end

