-- ==== Sys2Proof/Config.lean ====
section
/-! DEFINITION. The parameters of the machine (00_scope.md rule R4) and the names of its operations (R13, R76).
The parameters are plain data: a machine carries its own (`State.cfg`), so that a statement about every state is a
statement about every choice of the parameters. Their default values stand in Decode.lean. -/
namespace Sys2Proof

/-- The operations of R76: one for each machine instruction FORM, so that LD has two (R13 "Operation", R75). -/
inductive Op where
  | nop
  | ldMem
  | st
  | lad
  | ldReg
  | addaMem
  | subaMem
  | addlMem
  | sublMem
  | addaReg
  | subaReg
  | addlReg
  | sublReg
  | andMem
  | orMem
  | xorMem
  | andReg
  | orReg
  | xorReg
  | cpaMem
  | cplMem
  | cpaReg
  | cplReg
  | sla
  | sra
  | sll
  | srl
  | jmi
  | jnz
  | jze
  | jump
  | jpl
  | jov
  | push
  | pop
  | call
  | ret
  | svc
  | hlt
deriving DecidableEq, Repr

/-- Every operation, in the order of the table of R76. -/
def Op.all : List Op :=
  [.nop, .ldMem, .st, .lad, .ldReg, .addaMem, .subaMem, .addlMem,
   .sublMem, .addaReg, .subaReg, .addlReg, .sublReg, .andMem, .orMem, .xorMem,
   .andReg, .orReg, .xorReg, .cpaMem, .cplMem, .cpaReg, .cplReg, .sla,
   .sra, .sll, .srl, .jmi, .jnz, .jze, .jump, .jpl,
   .jov, .push, .pop, .call, .ret, .svc, .hlt]

/-- The place of an operation in the table of R76, counted from 0. -/
def Op.index : Op → Fin 39
  | .nop => 0
  | .ldMem => 1
  | .st => 2
  | .lad => 3
  | .ldReg => 4
  | .addaMem => 5
  | .subaMem => 6
  | .addlMem => 7
  | .sublMem => 8
  | .addaReg => 9
  | .subaReg => 10
  | .addlReg => 11
  | .sublReg => 12
  | .andMem => 13
  | .orMem => 14
  | .xorMem => 15
  | .andReg => 16
  | .orReg => 17
  | .xorReg => 18
  | .cpaMem => 19
  | .cplMem => 20
  | .cpaReg => 21
  | .cplReg => 22
  | .sla => 23
  | .sra => 24
  | .sll => 25
  | .srl => 26
  | .jmi => 27
  | .jnz => 28
  | .jze => 29
  | .jump => 30
  | .jpl => 31
  | .jov => 32
  | .push => 33
  | .pop => 34
  | .call => 35
  | .ret => 36
  | .svc => 37
  | .hlt => 38

/-- `OPMAP` (R4, R76): an opcode byte for each operation, in the order of `Op.all`. -/
structure OpMap where
  codes : Vector Byte 39
deriving DecidableEq, Repr

/-- `OPMAP(o)`. -/
def OpMap.code (m : OpMap) (o : Op) : Byte := m.codes[o.index]

/-- R4: `OPMAP` is injective, no byte stands for two operations. -/
abbrev OpMap.wf (m : OpMap) : Prop := (Op.all.map m.code).Nodup

/-- `EA_WRAP` (R4, R8): what an effective-address sum of 65536 or more gives. -/
inductive EaWrap where
  | wrap
  | fault
deriving DecidableEq, Repr

/-- `SHIFT_SHAPE` (R4, R90): the operand shape the assembler demands of the four shifts. -/
inductive ShiftShape where
  | eadr
  | regEadr
deriving DecidableEq, Repr

/-- The nine parameters of R4. None of them is changed by any step. -/
structure Config where
  /-- `MEM_SIZE`, the number of words of the memory image. -/
  memSize : Nat
  /-- `OPMAP`. -/
  opmap : OpMap
  /-- `RESET_PC`. -/
  resetPc : Nat
  /-- `EA_WRAP`. -/
  eaWrap : EaWrap
  /-- `LAD_SETS_FLAGS`. -/
  ladSetsFlags : Bool
  /-- `POP_SETS_FLAGS`. -/
  popSetsFlags : Bool
  /-- `HAS_ST`. -/
  hasSt : Bool
  /-- `SHIFT_SHAPE`. -/
  shiftShape : ShiftShape
  /-- `ASM_ACCEPTS_SVC`. -/
  asmAcceptsSvc : Bool
deriving DecidableEq, Repr

namespace Config

/-- Whether the machine has the operation: all of R76, but ST only under `HAS_ST` (R76, R123). -/
def hasOp (c : Config) (o : Op) : Bool := c.hasSt || o != .st

/-- The ranges R4 gives the parameters. -/
abbrev wf (c : Config) : Prop :=
  1 ≤ c.memSize ∧ c.memSize ≤ 65536 ∧ c.resetPc < c.memSize ∧ c.opmap.wf

end Config

end Sys2Proof
end

