-- ==== Sys2Proof/Syntax.lean ====
section
/-! DEFINITION. The machine instructions as syntax: one constructor for each row of spec/opcode_table.json.
`d` is the destination field's register, `r` the source field's register of a register form, `x` the source field's
register used as an index register, `adr` the address word (30_encoding.md rules R72, R73). A field that an
operation's format does not use (R79) is no part of the instruction. -/
namespace Sys2Proof

/-- A machine instruction. The constructors' order is the table's. -/
inductive Instr where
  /-- NOP. R215, format N. -/
  | nop
  /-- LD, memory r,adr[,x]. R120, format RA. -/
  | ldMem (d x : Reg) (adr : Word)
  /-- ST, memory r,adr[,x]. R123, format RA. -/
  | st (d x : Reg) (adr : Word)
  /-- LAD, r,adr[,x]. R122, format RA. -/
  | lad (d x : Reg) (adr : Word)
  /-- LD, register r1,r2. R121, format RR. -/
  | ldReg (d r : Reg)
  /-- ADDA, memory r,adr[,x]. R130, format RA. -/
  | addaMem (d x : Reg) (adr : Word)
  /-- SUBA, memory r,adr[,x]. R134, format RA. -/
  | subaMem (d x : Reg) (adr : Word)
  /-- ADDL, memory r,adr[,x]. R132, format RA. -/
  | addlMem (d x : Reg) (adr : Word)
  /-- SUBL, memory r,adr[,x]. R136, format RA. -/
  | sublMem (d x : Reg) (adr : Word)
  /-- ADDA, register r1,r2. R131, format RR. -/
  | addaReg (d r : Reg)
  /-- SUBA, register r1,r2. R135, format RR. -/
  | subaReg (d r : Reg)
  /-- ADDL, register r1,r2. R133, format RR. -/
  | addlReg (d r : Reg)
  /-- SUBL, register r1,r2. R137, format RR. -/
  | sublReg (d r : Reg)
  /-- AND, memory r,adr[,x]. R145, format RA. -/
  | andMem (d x : Reg) (adr : Word)
  /-- OR, memory r,adr[,x]. R147, format RA. -/
  | orMem (d x : Reg) (adr : Word)
  /-- XOR, memory r,adr[,x]. R149, format RA. -/
  | xorMem (d x : Reg) (adr : Word)
  /-- AND, register r1,r2. R146, format RR. -/
  | andReg (d r : Reg)
  /-- OR, register r1,r2. R148, format RR. -/
  | orReg (d r : Reg)
  /-- XOR, register r1,r2. R150, format RR. -/
  | xorReg (d r : Reg)
  /-- CPA, memory r,adr[,x]. R155, format RA. -/
  | cpaMem (d x : Reg) (adr : Word)
  /-- CPL, memory r,adr[,x]. R157, format RA. -/
  | cplMem (d x : Reg) (adr : Word)
  /-- CPA, register r1,r2. R156, format RR. -/
  | cpaReg (d r : Reg)
  /-- CPL, register r1,r2. R158, format RR. -/
  | cplReg (d r : Reg)
  /-- SLA, d = register shifted, count = adr[,x]. R165, format RA. -/
  | sla (d x : Reg) (adr : Word)
  /-- SRA, d = register shifted, count = adr[,x]. R166, format RA. -/
  | sra (d x : Reg) (adr : Word)
  /-- SLL, d = register shifted, count = adr[,x]. R167, format RA. -/
  | sll (d x : Reg) (adr : Word)
  /-- SRL, d = register shifted, count = adr[,x]. R168, format RA. -/
  | srl (d x : Reg) (adr : Word)
  /-- JMI, adr[,x]. R182, format A. -/
  | jmi (x : Reg) (adr : Word)
  /-- JNZ, adr[,x]. R183, format A. -/
  | jnz (x : Reg) (adr : Word)
  /-- JZE, adr[,x]. R184, format A. -/
  | jze (x : Reg) (adr : Word)
  /-- JUMP, adr[,x]. R180, format A. -/
  | jump (x : Reg) (adr : Word)
  /-- JPL, adr[,x]. R181, format A. -/
  | jpl (x : Reg) (adr : Word)
  /-- JOV, adr[,x]. R185, format A. -/
  | jov (x : Reg) (adr : Word)
  /-- PUSH, adr[,x]. R195, format A. -/
  | push (x : Reg) (adr : Word)
  /-- POP, r. R196, format R. -/
  | pop (d : Reg)
  /-- CALL, adr[,x]. R197, format A. -/
  | call (x : Reg) (adr : Word)
  /-- RET. R198, format N. -/
  | ret
  /-- SVC, adr[,x]. R210, format A. -/
  | svc (x : Reg) (adr : Word)
  /-- HLT. R216, format N. -/
  | hlt
deriving DecidableEq, Repr

/-- The operation an instruction is an instance of (R13, R76). -/
def Instr.op : Instr → Op
  | .nop => .nop
  | .ldMem _ _ _ => .ldMem
  | .st _ _ _ => .st
  | .lad _ _ _ => .lad
  | .ldReg _ _ => .ldReg
  | .addaMem _ _ _ => .addaMem
  | .subaMem _ _ _ => .subaMem
  | .addlMem _ _ _ => .addlMem
  | .sublMem _ _ _ => .sublMem
  | .addaReg _ _ => .addaReg
  | .subaReg _ _ => .subaReg
  | .addlReg _ _ => .addlReg
  | .sublReg _ _ => .sublReg
  | .andMem _ _ _ => .andMem
  | .orMem _ _ _ => .orMem
  | .xorMem _ _ _ => .xorMem
  | .andReg _ _ => .andReg
  | .orReg _ _ => .orReg
  | .xorReg _ _ => .xorReg
  | .cpaMem _ _ _ => .cpaMem
  | .cplMem _ _ _ => .cplMem
  | .cpaReg _ _ => .cpaReg
  | .cplReg _ _ => .cplReg
  | .sla _ _ _ => .sla
  | .sra _ _ _ => .sra
  | .sll _ _ _ => .sll
  | .srl _ _ _ => .srl
  | .jmi _ _ => .jmi
  | .jnz _ _ => .jnz
  | .jze _ _ => .jze
  | .jump _ _ => .jump
  | .jpl _ _ => .jpl
  | .jov _ _ => .jov
  | .push _ _ => .push
  | .pop _ => .pop
  | .call _ _ => .call
  | .ret => .ret
  | .svc _ _ => .svc
  | .hlt => .hlt

end Sys2Proof
end

