-- ==== Sys2Proof/WellFormed.lean ====
section
/-! DEFINITION. Which instructions a machine with given parameters has. The operand fields need no check of their own:
a register operand is one of eight (R20), an address word is any word (R73). What is left to check is R76's condition
on the operation: ST belongs to the machine only under `HAS_ST` (R123). -/
namespace Sys2Proof

/-- The instruction is one of the machine with parameters `c`. -/
def Instr.wf (i : Instr) (c : Config) : Bool := c.hasOp i.op

end Sys2Proof
end

