-- ==== Sys2Proof/Decode.lean ====
section
/-! DEFINITION. The instruction words: the fields of a word, the default opcode table, the decoder and the encoder
(30_encoding.md rules R70 to R79). Decoding is a total function of the words that stand from the instruction's address
on, and rejects by name. -/
namespace Sys2Proof

/-! ### The fields of an instruction word (R70, R71) -/

/-- `op(w) = w[15:8]`. -/
def opField (w : Word) : Byte := w.extractLsb' 8 8

/-- `d(w) = w[7:4]`. -/
def dField (w : Word) : BitVec 4 := w.extractLsb' 4 4

/-- `s(w) = w[3:0]`. -/
def sField (w : Word) : BitVec 4 := w.extractLsb' 0 4

/-- `encode(op, d, s) = (op << 8) | (d << 4) | s` of R71. -/
def packWord (op : Byte) (d s : BitVec 4) : Word :=
  (op.setWidth 16 <<< 8) ||| (d.setWidth 16 <<< 4) ||| s.setWidth 16

/-! ### Formats (R72, R75) -/

/-- The five formats of R72. -/
inductive Format where
  | n
  | r
  | rr
  | ra
  | a
deriving DecidableEq, Repr

/-- The format of each operation (R72, R76). -/
def Op.format : Op → Format
  | .nop => .n
  | .ldMem => .ra
  | .st => .ra
  | .lad => .ra
  | .ldReg => .rr
  | .addaMem => .ra
  | .subaMem => .ra
  | .addlMem => .ra
  | .sublMem => .ra
  | .addaReg => .rr
  | .subaReg => .rr
  | .addlReg => .rr
  | .sublReg => .rr
  | .andMem => .ra
  | .orMem => .ra
  | .xorMem => .ra
  | .andReg => .rr
  | .orReg => .rr
  | .xorReg => .rr
  | .cpaMem => .ra
  | .cplMem => .ra
  | .cpaReg => .rr
  | .cplReg => .rr
  | .sla => .ra
  | .sra => .ra
  | .sll => .ra
  | .srl => .ra
  | .jmi => .a
  | .jnz => .a
  | .jze => .a
  | .jump => .a
  | .jpl => .a
  | .jov => .a
  | .push => .a
  | .pop => .r
  | .call => .a
  | .ret => .n
  | .svc => .a
  | .hlt => .n

/-- Formats `RA` and `A` have an address word (R70, R72). -/
def Format.hasAddress : Format → Bool
  | .n | .r | .rr => false
  | .ra | .a => true

/-- The length in words, told from the operation alone (R75). -/
def Op.words (o : Op) : Nat := if o.format.hasAddress then 2 else 1

/-- The length of an instruction in words. -/
def Instr.words (i : Instr) : Nat := i.op.words

/-! ### The default parameters (R4) and the default `OPMAP` (R76) -/

/-- The default opcode of each operation: the table of R76. -/
def Op.standardCode : Op → Byte
  | .nop => 0x00
  | .ldMem => 0x10
  | .st => 0x11
  | .lad => 0x12
  | .ldReg => 0x14
  | .addaMem => 0x20
  | .subaMem => 0x21
  | .addlMem => 0x22
  | .sublMem => 0x23
  | .addaReg => 0x24
  | .subaReg => 0x25
  | .addlReg => 0x26
  | .sublReg => 0x27
  | .andMem => 0x30
  | .orMem => 0x31
  | .xorMem => 0x32
  | .andReg => 0x34
  | .orReg => 0x35
  | .xorReg => 0x36
  | .cpaMem => 0x40
  | .cplMem => 0x41
  | .cpaReg => 0x44
  | .cplReg => 0x45
  | .sla => 0x50
  | .sra => 0x51
  | .sll => 0x52
  | .srl => 0x53
  | .jmi => 0x61
  | .jnz => 0x62
  | .jze => 0x63
  | .jump => 0x64
  | .jpl => 0x65
  | .jov => 0x66
  | .push => 0x70
  | .pop => 0x71
  | .call => 0x80
  | .ret => 0x81
  | .svc => 0xF0
  | .hlt => 0xFF

/-- The default `OPMAP` of R76. -/
def OpMap.standard : OpMap := ⟨⟨(Op.all.map Op.standardCode).toArray, rfl⟩⟩

/-- The parameters' defaults of R4. DESIGN CHOICE (notes/assumptions/2.md): R4 gives `MEM_SIZE` no default; the largest
image it allows is taken. -/
def Config.standard : Config where
  memSize := 65536
  opmap := OpMap.standard
  resetPc := 0
  eaWrap := .wrap
  ladSetsFlags := false
  popSetsFlags := false
  hasSt := false
  shiftShape := .eadr
  asmAcceptsSvc := false

/-- The parameters under which every row of spec/opcode_table.json is an operation of the machine: the defaults with
`HAS_ST`. -/
def Config.table : Config := { Config.standard with hasSt := true }

/-! ### The decoder (R74, R77, R78, R79) -/

/-- What the decoder answers: an instruction, or the reason why the words are none. -/
inductive Decoded where
  /-- The words begin with this instruction. -/
  | ok (i : Instr)
  /-- R77: `OPMAP` assigns the opcode byte to no operation of the machine. -/
  | unassigned
  /-- R74: a word that the instruction needs is not there. -/
  | truncated
  /-- R78: a field that the operation's format uses holds a register id of 8 to 15. -/
  | badRegister
deriving DecidableEq, Repr

/-- The operation with `OPMAP(o) = b`, if the machine has one (R74, R77). -/
def opOf (c : Config) (b : Byte) : Option Op :=
  Op.all.find? fun o => c.hasOp o && c.opmap.code o == b

/-- The register a 4-bit id names: ids 0 to 7 only (R20, R78). -/
def regOf (id : BitVec 4) : Option Reg :=
  if h : id.toNat < 8 then some ⟨id.toNat, h⟩ else none

/-- Format `R`: the register in `d`; `s` is ignored (R72, R79). -/
def instrR (mk : Reg → Instr) (d : BitVec 4) : Option Instr :=
  match regOf d with
  | some d => some (mk d)
  | none => none

/-- Formats `RR` and the register part of `RA`: registers in `d` and `s` (R72). -/
def instrRR (mk : Reg → Reg → Instr) (d s : BitVec 4) : Option Instr :=
  match regOf d, regOf s with
  | some d, some s => some (mk d s)
  | _, _ => none

/-- Format `RA`: register in `d`, index register in `s`, address word (R72). -/
def instrRA (mk : Reg → Reg → Word → Instr) (d s : BitVec 4) (adr : Word) : Option Instr :=
  instrRR (fun d x => mk d x adr) d s

/-- Format `A`: index register in `s`, address word; `d` is ignored (R72, R79). -/
def instrA (mk : Reg → Word → Instr) (s : BitVec 4) (adr : Word) : Option Instr :=
  instrR (fun x => mk x adr) s

/-- The instruction of operation `o` with fields `d`, `s`, `adr`; `none` if a field that the format uses is no register
(R78). -/
def buildInstr (d s : BitVec 4) (adr : Word) : Op → Option Instr
  | .nop => some .nop
  | .ldMem => instrRA .ldMem d s adr
  | .st => instrRA .st d s adr
  | .lad => instrRA .lad d s adr
  | .ldReg => instrRR .ldReg d s
  | .addaMem => instrRA .addaMem d s adr
  | .subaMem => instrRA .subaMem d s adr
  | .addlMem => instrRA .addlMem d s adr
  | .sublMem => instrRA .sublMem d s adr
  | .addaReg => instrRR .addaReg d s
  | .subaReg => instrRR .subaReg d s
  | .addlReg => instrRR .addlReg d s
  | .sublReg => instrRR .sublReg d s
  | .andMem => instrRA .andMem d s adr
  | .orMem => instrRA .orMem d s adr
  | .xorMem => instrRA .xorMem d s adr
  | .andReg => instrRR .andReg d s
  | .orReg => instrRR .orReg d s
  | .xorReg => instrRR .xorReg d s
  | .cpaMem => instrRA .cpaMem d s adr
  | .cplMem => instrRA .cplMem d s adr
  | .cpaReg => instrRR .cpaReg d s
  | .cplReg => instrRR .cplReg d s
  | .sla => instrRA .sla d s adr
  | .sra => instrRA .sra d s adr
  | .sll => instrRA .sll d s adr
  | .srl => instrRA .srl d s adr
  | .jmi => instrA .jmi s adr
  | .jnz => instrA .jnz s adr
  | .jze => instrA .jze s adr
  | .jump => instrA .jump s adr
  | .jpl => instrA .jpl s adr
  | .jov => instrA .jov s adr
  | .push => instrA .push s adr
  | .pop => instrR .pop d
  | .call => instrA .call s adr
  | .ret => some .ret
  | .svc => instrA .svc s adr
  | .hlt => some .hlt

/-- The register check of R78, the last of the decoder's checks (R74, R264). -/
def finishDecode (o : Op) (d s : BitVec 4) (adr : Word) : Decoded :=
  match buildInstr d s adr o with
  | some i => .ok i
  | none => .badRegister

/-- Decode the instruction that stands at the head of a list of words, in the order of R74: the opcode, then the
presence of the address word, then the register ids. -/
def decode (c : Config) : List Word → Decoded
  | [] => .truncated
  | w :: rest =>
    match opOf c (opField w) with
    | none => .unassigned
    | some o =>
      if o.format.hasAddress then
        match rest with
        | [] => .truncated
        | adr :: _ => finishDecode o (dField w) (sField w) adr
      else finishDecode o (dField w) (sField w) 0

/-- The number of words that R74 has fetched when it stops on, or finishes with, the instruction at the head of the
list: none if there is no word, one until the opcode is known, then the operation's length as far as words are there. -/
def wordsFetched (c : Config) : List Word → Nat
  | [] => 0
  | w :: rest =>
    match opOf c (opField w) with
    | none => 1
    | some o => if o.format.hasAddress && !rest.isEmpty then 2 else 1

/-! ### The encoder (R71, R72, R76, R102) -/

/-- The 4-bit id of a register. -/
def regId (r : Reg) : BitVec 4 := BitVec.ofNat 4 r.val

/-- The instruction word of operation `o` with fields `d` and `s`. -/
def opWord (c : Config) (o : Op) (d s : BitVec 4) : Word := packWord (c.opmap.code o) d s

/-- The words of an instruction; fields with no operand are 0 (R72, R102). -/
def encode (c : Config) : Instr → List Word
  | .nop => [opWord c .nop 0 0]
  | .ldMem d x adr => [opWord c .ldMem (regId d) (regId x), adr]
  | .st d x adr => [opWord c .st (regId d) (regId x), adr]
  | .lad d x adr => [opWord c .lad (regId d) (regId x), adr]
  | .ldReg d r => [opWord c .ldReg (regId d) (regId r)]
  | .addaMem d x adr => [opWord c .addaMem (regId d) (regId x), adr]
  | .subaMem d x adr => [opWord c .subaMem (regId d) (regId x), adr]
  | .addlMem d x adr => [opWord c .addlMem (regId d) (regId x), adr]
  | .sublMem d x adr => [opWord c .sublMem (regId d) (regId x), adr]
  | .addaReg d r => [opWord c .addaReg (regId d) (regId r)]
  | .subaReg d r => [opWord c .subaReg (regId d) (regId r)]
  | .addlReg d r => [opWord c .addlReg (regId d) (regId r)]
  | .sublReg d r => [opWord c .sublReg (regId d) (regId r)]
  | .andMem d x adr => [opWord c .andMem (regId d) (regId x), adr]
  | .orMem d x adr => [opWord c .orMem (regId d) (regId x), adr]
  | .xorMem d x adr => [opWord c .xorMem (regId d) (regId x), adr]
  | .andReg d r => [opWord c .andReg (regId d) (regId r)]
  | .orReg d r => [opWord c .orReg (regId d) (regId r)]
  | .xorReg d r => [opWord c .xorReg (regId d) (regId r)]
  | .cpaMem d x adr => [opWord c .cpaMem (regId d) (regId x), adr]
  | .cplMem d x adr => [opWord c .cplMem (regId d) (regId x), adr]
  | .cpaReg d r => [opWord c .cpaReg (regId d) (regId r)]
  | .cplReg d r => [opWord c .cplReg (regId d) (regId r)]
  | .sla d x adr => [opWord c .sla (regId d) (regId x), adr]
  | .sra d x adr => [opWord c .sra (regId d) (regId x), adr]
  | .sll d x adr => [opWord c .sll (regId d) (regId x), adr]
  | .srl d x adr => [opWord c .srl (regId d) (regId x), adr]
  | .jmi x adr => [opWord c .jmi 0 (regId x), adr]
  | .jnz x adr => [opWord c .jnz 0 (regId x), adr]
  | .jze x adr => [opWord c .jze 0 (regId x), adr]
  | .jump x adr => [opWord c .jump 0 (regId x), adr]
  | .jpl x adr => [opWord c .jpl 0 (regId x), adr]
  | .jov x adr => [opWord c .jov 0 (regId x), adr]
  | .push x adr => [opWord c .push 0 (regId x), adr]
  | .pop d => [opWord c .pop (regId d) 0]
  | .call x adr => [opWord c .call 0 (regId x), adr]
  | .ret => [opWord c .ret 0 0]
  | .svc x adr => [opWord c .svc 0 (regId x), adr]
  | .hlt => [opWord c .hlt 0 0]

/-! ### The opcode table's numbering -/

/-- The words of an opcode-table row: the first word is bits 15..0, the address word bits 31..16; bits from `nbits` on
are 0. -/
def tableWords (nbits w : Nat) : List Word :=
  [BitVec.ofNat 16 (w % 2 ^ nbits), BitVec.ofNat 16 (w % 2 ^ nbits / 65536)]

/-- The instruction the decoder reads from a word numbered as spec/opcode_table.json numbers it, on the machine that has
every row of the table. -/
def decodeTableWord (nbits w : Nat) : Option Instr :=
  match decode Config.table (tableWords nbits w) with
  | .ok i => some i
  | .unassigned | .truncated | .badRegister => none

end Sys2Proof
end

