-- ==== Sys2Proof/Machine/State.lean ====
section
/-! DEFINITION. The state of the machine (10_state.md), the reasons a step can stop, and the machine right after reset.
The fields are the tuple at the head of 10_state.md, in its order, and after them the parameters of the machine
(notes/assumptions/1.md), which no step changes. -/
namespace Sys2Proof.Machine

/-- The memory image as the list of its words that differ from `Memory.unlisted`, addresses strictly rising
(`Memory.wf`). The machine's smallest addressable unit is the 16-bit word (R50, R51; notes/assumptions/4.md). -/
abbrev Memory := List (Nat × Word)

/-- A line of the input stream, without its terminator (R31). -/
abbrev Line := List Byte

/-- The complete state of the machine: 10_state.md. -/
structure State where
  /-- `GR[0]` to `GR[7]` (R20). `GR[0]` is an ordinary register that is also every operand's "no index" (R21). -/
  gr : Vector Word 8
  /-- `PC` (R22): a natural number; 65536 is reached only by the increment after the last word of a full image. -/
  pc : Nat
  /-- `SP` (R23): a natural number, the address of the word pushed last, `MEM_SIZE` when the stack is empty. -/
  sp : Nat
  /-- `OF` (R24). -/
  of : Bool
  /-- `SF` (R24). -/
  sf : Bool
  /-- `ZF` (R24). -/
  zf : Bool
  /-- `HALT` (R25). -/
  halt : Bool
  /-- `STEP`, the single-step flag (R26). -/
  stepFlag : Bool
  /-- `MEM` (R33). -/
  mem : Memory
  /-- `ICOUNT` (R28). -/
  icount : Nat
  /-- `BP`, the breakpoint set (R29), as the strictly rising list of its members. -/
  bp : List Nat
  /-- `LASTCHK` (R30): the instruction pointer at the previous breakpoint check, or none. -/
  lastChk : Option Nat
  /-- `IN_STREAM` (R31): the lines not yet consumed; end of input when there is none. -/
  inStream : List Line
  /-- `OUT_STREAM` (R32): the bytes written so far, the oldest first. -/
  outStream : List Byte
  /-- The parameters of R4, fixed for the machine. -/
  cfg : Config
deriving DecidableEq, Repr

/-- The four faults of R260. Each ends the run (R271); the record of a fault is its kind alone (R262). What the state
is after a fault is `leftByFault` in Machine/RunLoop.lean (R263). Stopping here is safe: the spec names these stops. -/
inductive Fault where
  /-- `ILLEGAL_ACCESS`: raised by a fetch, a data access, a jump or call target or a service's access outside the image,
  and by an effective-address sum of 65536 or more under `EA_WRAP = fault` (R261). Safe. -/
  | illegalAccess
  /-- `INVALID_OPERATION`: raised by an unassigned opcode byte (R77), a register id of 8 to 15 in a used field (R78) and
  an SVC number other than 1 and 2 (R214). Safe. -/
  | invalidOperation
  /-- `STACK_OVERFLOW`: raised by PUSH and CALL when SP is 0 (R195, R197). Safe. -/
  | stackOverflow
  /-- `STACK_UNDERFLOW`: raised by POP and RET when SP is at or above `MEM_SIZE` (R196, R198). Safe. -/
  | stackUnderflow
deriving DecidableEq, Repr

/-- Why the model gives a step no meaning. -/
inductive Refusal where
  /-- Raised by `exec` for an instruction the model has no meaning for; no arm raises it. Safe. -/
  | notModelled (mnemonic : String)
  /-- Raised by `step` and `run` on a machine whose HALT flag is 1: running it without a reset is given no meaning and
  a model should refuse it (R269, 93_implementation_defined.md U7; notes/assumptions/9.md). Safe. -/
  | haltedWithoutReset
deriving DecidableEq, Repr

/-- The outcome of an instruction or of a step. -/
abbrev Result := Host.Outcome State Fault Refusal

/-- The machine right after reset (R36, R290), with the default parameters, an image in which nothing is listed, no
breakpoint, an exhausted input stream and an empty output stream (notes/assumptions/2.md, 5.md, 6.md, 7.md). -/
def State.reset : State where
  gr := Vector.replicate 8 0
  pc := Config.standard.resetPc
  sp := Config.standard.memSize
  of := false
  sf := false
  zf := false
  halt := false
  stepFlag := false
  mem := []
  icount := 0
  bp := []
  lastChk := none
  inStream := []
  outStream := []
  cfg := Config.standard

end Sys2Proof.Machine
end

