-- ==== Sys2Proof/Machine/Ops.lean ====
section
/-! DEFINITION. The named operations over memory, registers, the stack, the program counter and the output stream, and
the raising of a fault. A primitive that can raise a fault answers `Except Fault`. -/
namespace Sys2Proof.Machine

/-! ### Memory as a list of words -/

namespace Memory

/-- What an address that the list does not name reads as. DESIGN CHOICE (notes/assumptions/5.md): the source states no
content for words the build never wrote (R62). -/
def unlisted : Word := 0

/-- The word at an address. -/
def read : Memory → Nat → Word
  | [], _ => unlisted
  | (k, w) :: m, a => if k = a then w else read m a

/-- Put an entry in front of a list, unless it says what an unlisted address reads as. -/
def put (a : Nat) (v : Word) (m : Memory) : Memory := if v = unlisted then m else (a, v) :: m

/-- Replace the word at an address, keeping the canonical form. -/
def write : Memory → Nat → Word → Memory
  | [], a, v => put a v []
  | (k, w) :: m, a, v =>
    if a < k then put a v ((k, w) :: m)
    else if a = k then put a v m
    else (k, w) :: write m a v

/-- The canonical form: addresses strictly rising, no entry that says what an unlisted address reads as. -/
abbrev wf (m : Memory) : Prop :=
  m.Pairwise (fun e e' => e.1 < e'.1) ∧ ∀ e ∈ m, e.2 ≠ unlisted

end Memory

/-! ### Faults (60_exceptions.md) -/

/-- Taking a fault, the one operation all of them share: the run ends, nothing is saved, no mode is switched, no vector
is read; the fault's kind is the whole record (R262, R271). There is no return from a fault (R272): only a reset goes
on. -/
def raise (f : Fault) : Result := .fault f

/-- The outcome of an instruction from the state its pseudocode ends in, or from the fault it raised. -/
def conclude : Except Fault State → Result
  | .ok t => .next t
  | .error f => raise f

namespace State

/-! ### Registers and program counter -/

/-- `GR[r]`. -/
def reg (s : State) (r : Reg) : Word := s.gr[r]

/-- `GR[r] <- v`. -/
def setReg (s : State) (r : Reg) (v : Word) : State := { s with gr := s.gr.set r v }

/-- `PC <- n`. -/
def setPc (s : State) (n : Nat) : State := { s with pc := n }

/-- The advance of `PC` past `n` fetched words (R22, R74). -/
def advance (s : State) (n : Nat) : State := s.setPc (s.pc + n)

/-- `SP <- n`. -/
def setSp (s : State) (n : Nat) : State := { s with sp := n }

/-- `HALT <- 1`. -/
def setHalt (s : State) : State := { s with halt := true }

/-! ### Memory (20_memory.md rules R52 to R54) -/

/-- `MEM[a]`, without the bound check. -/
def word (s : State) (a : Nat) : Word := s.mem.read a

/-- `MEM[a] <- v`, without the bound check. -/
def setWord (s : State) (a : Nat) (v : Word) : State := { s with mem := s.mem.write a v }

/-- `MemRead(a, 1)` (R52). -/
def memRead (s : State) (a : Nat) : Except Fault Word :=
  if a < s.cfg.memSize then .ok (s.word a) else .error .illegalAccess

/-- `MemWrite(a, 1, v)` (R53). -/
def memWrite (s : State) (a : Nat) (v : Word) : Except Fault State :=
  if a < s.cfg.memSize then .ok (s.setWord a v) else .error .illegalAccess

/-- `CheckTarget(t)` (R54): it reads no memory. -/
def checkTarget (s : State) (t : Nat) : Except Fault Unit :=
  if t < s.cfg.memSize then .ok () else .error .illegalAccess

/-! ### The stack (46_stack_call.md rule R199) -/

/-- A push: `STACK_OVERFLOW` if SP is 0, else `SP <- SP - 1; MemWrite(SP, 1, v)`. -/
def push (s : State) (v : Word) : Except Fault State :=
  if s.sp = 0 then .error .stackOverflow
  else (s.setSp (s.sp - 1)).memWrite (s.sp - 1) v

/-- A pop: `STACK_UNDERFLOW` if SP is at or above `MEM_SIZE`, else the word at SP, and `SP <- SP + 1`. -/
def pop (s : State) : Except Fault (Word × State) :=
  if s.cfg.memSize ≤ s.sp then .error .stackUnderflow
  else do
    let v ← s.memRead s.sp
    return (v, s.setSp (s.sp + 1))

/-! ### The streams (R31, R32) -/

/-- Append a byte to `OUT_STREAM`. -/
def emit (s : State) (b : Byte) : State := { s with outStream := s.outStream ++ [b] }

/-- What is left of `IN_STREAM` after lines were consumed. -/
def setInStream (s : State) (ls : List Line) : State := { s with inStream := ls }

/-! ### The run loop's own state -/

/-- `LASTCHK <- PC` (R267). -/
def noteCheck (s : State) : State := { s with lastChk := some s.pc }

/-- `ICOUNT <- ICOUNT + 1` (R28, R267). -/
def countInstruction (s : State) : State := { s with icount := s.icount + 1 }

/-- `STEP <- v` (R26). -/
def setStepFlag (s : State) (v : Bool) : State := { s with stepFlag := v }

/-- Whether PC is in the breakpoint set and has changed since the previous check (R267, R268). -/
def atBreakpoint (s : State) : Bool := s.lastChk != some s.pc && s.bp.contains s.pc

end State

end Sys2Proof.Machine
end

