-- ==== Sys2Proof/Machine/Flags.lean ====
section
/-! DEFINITION. The flag helpers (00_scope.md rule R9) and every function that computes a result and an overflow bit:
the four arithmetic functions (R138), the three boolean functions (R151) and the four shifts (R165 to R168). -/
namespace Sys2Proof.Machine

namespace State

/-- `SetSZ(r)` (R9). -/
def setSZ (s : State) (r : Word) : State := { s with sf := r.getLsbD 15, zf := r == 0 }

/-- `SetOSZ(o, r)` (R9). -/
def setOSZ (s : State) (o : Bool) (r : Word) : State := { s with of := o }.setSZ r

end State

/-! ### Arithmetic (41_arithmetic.md rule R138) -/

/-- Whether an integer lies outside the signed 16-bit range. -/
def outsideSigned (t : Int) : Bool := t < -32768 || t > 32767

/-- `AddA(a, b)`: signed add and its overflow. -/
def addA (a b : Word) : Word × Bool :=
  let t := a.toInt + b.toInt
  (w16 t, outsideSigned t)

/-- `SubA(a, b)`: signed subtract and its overflow. -/
def subA (a b : Word) : Word × Bool :=
  let t := a.toInt - b.toInt
  (w16 t, outsideSigned t)

/-- `AddL(a, b)`: unsigned add and its carry. -/
def addL (a b : Word) : Word × Bool :=
  let t : Int := a.toNat + b.toNat
  (w16 t, t > 65535)

/-- `SubL(a, b)`: unsigned subtract and its borrow. -/
def subL (a b : Word) : Word × Bool :=
  let t : Int := a.toNat - b.toNat
  (w16 t, t < 0)

/-! ### Boolean functions (42_logical.md rule R151) -/

/-- `And(a, b)`. -/
def andW (a b : Word) : Word := a &&& b

/-- `Or(a, b)`. -/
def orW (a b : Word) : Word := a ||| b

/-- `Xor(a, b)`. -/
def xorW (a b : Word) : Word := a ^^^ b

/-! ### Shifts (44_shift.md rules R165 to R169). `n` is the whole count; integers are unbounded
(notes/assumptions/15.md on counts above 16). -/

/-- SLA (R165): bits 14:0 shifted, bit 15 kept; the overflow bit says whether the plain shift would have changed the
sign. -/
def shiftLeftA (v : Word) (n : Nat) : Word × Bool :=
  if n = 0 then (v, false)
  else
    let t : Word := w16 (v.toNat * 2 ^ n : Nat)
    ((t &&& 0x7FFF) ||| (v &&& 0x8000), t.getLsbD 15 != v.getLsbD 15)

/-- SRA (R166): floor division by `2^n`; the overflow bit is bit `n-1` of the sign-extended value. -/
def shiftRightA (v : Word) (n : Nat) : Word × Bool :=
  if n = 0 then (v, false)
  else (w16 (v.toInt / 2 ^ n), if n ≤ 16 then v.getLsbD (n - 1) else v.getLsbD 15)

/-- SLL (R167): shift by `n-1` in the wide domain, the bit the last step carries past bit 15, the last step. -/
def shiftLeftL (v : Word) (n : Nat) : Word × Bool :=
  if n = 0 then (v, false)
  else
    let m := v.toNat * 2 ^ (n - 1)
    (w16 (m * 2 : Nat), m.testBit 15)

/-- SRL (R168): shift by `n-1`, the bit the last step drops below bit 0, the last step. -/
def shiftRightL (v : Word) (n : Nat) : Word × Bool :=
  if n = 0 then (v, false)
  else
    let m := v.toNat / 2 ^ (n - 1)
    (w16 (m / 2 : Nat), m.testBit 0)

end Sys2Proof.Machine
end

