-- ==== Sys2Proof/Machine/Operands.lean ====
section
/-! DEFINITION. The operand forms, and the shapes of instruction that share one: the effective address and its four uses
(00_scope.md rule R8), the memory operand, the register operand, the shift count and the jump target. -/
namespace Sys2Proof.Machine

/-- `EA(adr, x)` (R8): the address word plus the index register, GR[0] like any other (R21). -/
def effectiveAddress (s : State) (adr : Word) (x : Reg) : Except Fault Nat :=
  let sum := adr.toNat + (s.reg x).toNat
  match s.cfg.eaWrap with
  | .wrap => .ok (sum % 65536)
  | .fault => if sum < 65536 then .ok sum else .error .illegalAccess

/-- The memory operand of a memory form: `MemRead(EA(adr, x), 1)`. -/
def memOperand (s : State) (adr : Word) (x : Reg) : Except Fault Word := do
  let a ← effectiveAddress s adr x
  s.memRead a

/-- The target of a jump or call: `t <- EA(adr, x); CheckTarget(t)` (R180, R186). -/
def jumpTarget (s : State) (adr : Word) (x : Reg) : Except Fault Nat := do
  let t ← effectiveAddress s adr x
  s.checkTarget t
  return t

/-! ### Instruction shapes -/

/-- A result and its overflow bit go to a register and the flags: `(r, o) <- p; GR[d] <- r; SetOSZ(o, r)`. -/
def State.writeBack (s : State) (d : Reg) (p : Word × Bool) : State :=
  (s.setReg d p.1).setOSZ p.2 p.1

/-- A computed memory form: `GR[d]` and the memory operand through `f`, result and flags written back (R130, R145). -/
def memForm (f : Word → Word → Word × Bool) (d x : Reg) (adr : Word) (s : State) : Result :=
  conclude do
    let b ← memOperand s adr x
    return s.writeBack d (f (s.reg d) b)

/-- A computed register form: `GR[d]` and `GR[r]` through `f`, result and flags written back (R131, R146). -/
def regForm (f : Word → Word → Word × Bool) (d r : Reg) (s : State) : Result :=
  conclude (.ok (s.writeBack d (f (s.reg d) (s.reg r))))

/-- A memory form whose result is scratch: the flags alone are written (R155, R159). -/
def compareMem (f : Word → Word → Word × Bool) (d x : Reg) (adr : Word) (s : State) : Result :=
  conclude do
    let b ← memOperand s adr x
    let p := f (s.reg d) b
    return s.setOSZ p.2 p.1

/-- A register form whose result is scratch (R156, R159). -/
def compareReg (f : Word → Word → Word × Bool) (d r : Reg) (s : State) : Result :=
  let p := f (s.reg d) (s.reg r)
  conclude (.ok (s.setOSZ p.2 p.1))

/-- A function of a boolean or move instruction: its overflow bit is 0 (R24: "load/move/boolean operations clear
overflow"). -/
def clearing (f : Word → Word → Word) (a b : Word) : Word × Bool := (f a b, false)

/-- The second operand itself: what LD writes. -/
def second (_ b : Word) : Word := b

/-- A shift of `GR[d]` by the whole effective address (R169). -/
def shiftForm (f : Word → Nat → Word × Bool) (d x : Reg) (adr : Word) (s : State) : Result :=
  conclude do
    let n ← effectiveAddress s adr x
    return s.writeBack d (f (s.reg d) n)

/-- A jump taken when `taken` holds; the target is examined only then (R186). -/
def jumpForm (taken : Bool) (x : Reg) (adr : Word) (s : State) : Result :=
  if taken then
    conclude do
      let t ← jumpTarget s adr x
      return s.setPc t
  else conclude (.ok s)

end Sys2Proof.Machine
end

