-- ==== Sys2Proof/Machine/Arithmetic.lean ====
section
/-! DEFINITION. Arithmetic: ADDA, ADDL, SUBA, SUBL, each in two forms (41_arithmetic.md). Every meaning runs after the common fetch of
R74, with PC past the instruction. -/
namespace Sys2Proof.Machine

/-- ADDA, memory form: signed add (R130). -/
def execAddaMem (d x : Reg) (adr : Word) (s : State) : Result := memForm addA d x adr s

/-- ADDA, register form (R131). -/
def execAddaReg (d r : Reg) (s : State) : Result := regForm addA d r s

/-- ADDL, memory form: unsigned add (R132). -/
def execAddlMem (d x : Reg) (adr : Word) (s : State) : Result := memForm addL d x adr s

/-- ADDL, register form (R133). -/
def execAddlReg (d r : Reg) (s : State) : Result := regForm addL d r s

/-- SUBA, memory form: signed subtract (R134). -/
def execSubaMem (d x : Reg) (adr : Word) (s : State) : Result := memForm subA d x adr s

/-- SUBA, register form (R135). -/
def execSubaReg (d r : Reg) (s : State) : Result := regForm subA d r s

/-- SUBL, memory form: unsigned subtract (R136). -/
def execSublMem (d x : Reg) (adr : Word) (s : State) : Result := memForm subL d x adr s

/-- SUBL, register form (R137). -/
def execSublReg (d r : Reg) (s : State) : Result := regForm subL d r s

end Sys2Proof.Machine
end

