-- ==== Sys2Proof/Machine/Branch.lean ====
section
/-! DEFINITION. Jumps: JUMP, JPL, JMI, JNZ, JZE, JOV (45_branch.md). Every meaning runs after the common fetch of
R74, with PC past the instruction. -/
namespace Sys2Proof.Machine

/-- JUMP: unconditional jump (R180). -/
def execJump (x : Reg) (adr : Word) (s : State) : Result := jumpForm true x adr s

/-- JPL: jump on plus, SF and ZF both 0 (R181). -/
def execJpl (x : Reg) (adr : Word) (s : State) : Result := jumpForm (!s.sf && !s.zf) x adr s

/-- JMI: jump on minus, SF set (R182). -/
def execJmi (x : Reg) (adr : Word) (s : State) : Result := jumpForm s.sf x adr s

/-- JNZ: jump on non-zero, ZF clear (R183). -/
def execJnz (x : Reg) (adr : Word) (s : State) : Result := jumpForm (!s.zf) x adr s

/-- JZE: jump on zero, ZF set (R184). -/
def execJze (x : Reg) (adr : Word) (s : State) : Result := jumpForm s.zf x adr s

/-- JOV: jump on overflow, OF set; OF is not cleared (R185). -/
def execJov (x : Reg) (adr : Word) (s : State) : Result := jumpForm s.of x adr s

end Sys2Proof.Machine
end

