-- ==== Sys2Proof/Machine/Compare.lean ====
section
/-! DEFINITION. Compare: CPA and CPL, each in two forms (43_compare.md). Every meaning runs after the common fetch of
R74, with PC past the instruction. -/
namespace Sys2Proof.Machine

/-- CPA, memory form: signed compare, SUBA without write-back (R155, R159). -/
def execCpaMem (d x : Reg) (adr : Word) (s : State) : Result := compareMem subA d x adr s

/-- CPA, register form (R156, R159). -/
def execCpaReg (d r : Reg) (s : State) : Result := compareReg subA d r s

/-- CPL, memory form: unsigned compare, SUBL without write-back (R157, R159). -/
def execCplMem (d x : Reg) (adr : Word) (s : State) : Result := compareMem subL d x adr s

/-- CPL, register form (R158, R159). -/
def execCplReg (d r : Reg) (s : State) : Result := compareReg subL d r s

end Sys2Proof.Machine
end

