-- ==== Sys2Proof/Machine/LoadMove.lean ====
section
/-! DEFINITION. Load and move: LD in its two forms, LAD, ST (40_load_move.md). Every meaning runs after the common fetch
of R74, with PC past the instruction. -/
namespace Sys2Proof.Machine

/-- LD, memory form (R120). -/
def execLdMem (d x : Reg) (adr : Word) (s : State) : Result := memForm (clearing second) d x adr s

/-- LD, register form (R121). -/
def execLdReg (d r : Reg) (s : State) : Result := regForm (clearing second) d r s

/-- LAD (R122): the effective address as a value; no memory is read, and it is not checked against the image. The flags
are written only under `LAD_SETS_FLAGS`. -/
def execLad (d x : Reg) (adr : Word) (s : State) : Result :=
  conclude do
    let a ← effectiveAddress s adr x
    let v := BitVec.ofNat 16 a
    return if s.cfg.ladSetsFlags then s.writeBack d (v, false) else s.setReg d v

/-- ST (R123). Whether the machine has it is the decoder's question (`Instr.wf`, notes/assumptions/13.md). -/
def execSt (d x : Reg) (adr : Word) (s : State) : Result :=
  conclude do
    let a ← effectiveAddress s adr x
    s.memWrite a (s.reg d)

end Sys2Proof.Machine
end

