-- ==== Sys2Proof/Machine/Logical.lean ====
section
/-! DEFINITION. Boolean instructions: AND, OR, XOR, each in two forms (42_logical.md). Every meaning runs after the common fetch of
R74, with PC past the instruction. -/
namespace Sys2Proof.Machine

/-- AND, memory form (R145). -/
def execAndMem (d x : Reg) (adr : Word) (s : State) : Result := memForm (clearing andW) d x adr s

/-- AND, register form (R146). -/
def execAndReg (d r : Reg) (s : State) : Result := regForm (clearing andW) d r s

/-- OR, memory form (R147). -/
def execOrMem (d x : Reg) (adr : Word) (s : State) : Result := memForm (clearing orW) d x adr s

/-- OR, register form (R148). -/
def execOrReg (d r : Reg) (s : State) : Result := regForm (clearing orW) d r s

/-- XOR, memory form (R149). -/
def execXorMem (d x : Reg) (adr : Word) (s : State) : Result := memForm (clearing xorW) d x adr s

/-- XOR, register form (R150). -/
def execXorReg (d r : Reg) (s : State) : Result := regForm (clearing xorW) d r s

end Sys2Proof.Machine
end

