-- ==== Sys2Proof/Machine/Shift.lean ====
section
/-! DEFINITION. Shifts: SLA, SRA, SLL, SRL (44_shift.md). Every meaning runs after the common fetch of
R74, with PC past the instruction. -/
namespace Sys2Proof.Machine

/-- SLA: arithmetic shift left (R165, R169). -/
def execSla (d x : Reg) (adr : Word) (s : State) : Result := shiftForm shiftLeftA d x adr s

/-- SRA: arithmetic shift right (R166, R169). -/
def execSra (d x : Reg) (adr : Word) (s : State) : Result := shiftForm shiftRightA d x adr s

/-- SLL: logical shift left (R167, R169). -/
def execSll (d x : Reg) (adr : Word) (s : State) : Result := shiftForm shiftLeftL d x adr s

/-- SRL: logical shift right (R168, R169). -/
def execSrl (d x : Reg) (adr : Word) (s : State) : Result := shiftForm shiftRightL d x adr s

end Sys2Proof.Machine
end

