-- ==== Sys2Proof/Machine/StackCall.lean ====
section
/-! DEFINITION. Stack and subroutines: PUSH, POP, CALL, RET (46_stack_call.md). Every meaning runs after the common
fetch of R74, with PC past the instruction. -/
namespace Sys2Proof.Machine

/-- PUSH (R195): the effective address itself is pushed; no memory is read. -/
def execPush (x : Reg) (adr : Word) (s : State) : Result :=
  conclude do
    let v ← effectiveAddress s adr x
    s.push (BitVec.ofNat 16 v)

/-- POP (R196). The flags are written only under `POP_SETS_FLAGS`. -/
def execPop (d : Reg) (s : State) : Result :=
  conclude do
    let (v, t) ← s.pop
    return if s.cfg.popSetsFlags then t.writeBack d (v, false) else t.setReg d v

/-- CALL (R197): the stack check before the target check, both before any write; the return address is `w16(PC)`. -/
def execCall (x : Reg) (adr : Word) (s : State) : Result :=
  conclude do
    let t ← effectiveAddress s adr x
    if s.sp = 0 then .error .stackOverflow
    else do
      s.checkTarget t
      let s' ← s.push (BitVec.ofNat 16 s.pc)
      return s'.setPc t

/-- RET (R198): the address taken from the stack is not checked here; the next fetch checks it. -/
def execRet (s : State) : Result :=
  conclude do
    let (v, t) ← s.pop
    return t.setPc v.toNat

end Sys2Proof.Machine
end

