-- ==== Sys2Proof/Machine/System.lean ====
section
/-! DEFINITION. System instructions: SVC with its two services, NOP, HLT (47_system.md). A service is carried out wholly
inside the step of its SVC (R279) and can fault part-way, leaving what it had done (R263): its result therefore holds
the state in both cases. -/
namespace Sys2Proof.Machine

/-- How a service ends. -/
inductive ServiceResult where
  /-- It finished in this state. -/
  | done (s : State)
  /-- It faulted, and this is the state it had reached (R263). -/
  | stopped (f : Fault) (s : State)
deriving DecidableEq, Repr

/-- Go on with `k` if the service has not faulted. -/
def ServiceResult.andThen (r : ServiceResult) (k : State → ServiceResult) : ServiceResult :=
  match r with
  | .done s => k s
  | .stopped f s => .stopped f s

/-- The state a service ended in, whether or not it faulted. -/
def ServiceResult.state : ServiceResult → State
  | .done s => s
  | .stopped _ s => s

/-- A `MemWrite` of a service. -/
def serviceWrite (a : Nat) (v : Word) (s : State) : ServiceResult :=
  match s.memWrite a v with
  | .ok t => .done t
  | .error f => .stopped f s

/-- The input service's loop: the bytes to consecutive words from `a` on, zero-extended; the address does not wrap
(R212). -/
def storeBytes : Nat → List Byte → State → ServiceResult
  | _, [], s => .done s
  | a, b :: bs, s => (serviceWrite a (b.setWidth 16) s).andThen (storeBytes (a + 1) bs)

/-- The output service's loop: the low bytes of `n` consecutive words from `a` on (R213). -/
def outputCells : Nat → Nat → State → ServiceResult
  | _, 0, s => .done s
  | a, n + 1, s =>
    match s.memRead a with
    | .ok c => outputCells (a + 1) n (s.emit (c.extractLsb' 0 8))
    | .error f => .stopped f s

/-- `InputService()` (R211, R212): the first line of the input stream to the buffer at GR[1], its length to the cell at
GR[2]; at end of input 0xFFFF to that cell alone. DESIGN CHOICE (notes/assumptions/29.md): a line that the service has
taken from the stream stays removed when a later write faults; R212 removes it before the writes, R263 does not name it.
-/
def inputService (s : State) : ServiceResult :=
  match s.inStream with
  | [] => serviceWrite (s.reg 2).toNat 0xFFFF s
  | line :: rest =>
    (storeBytes (s.reg 1).toNat line (s.setInStream rest)).andThen
      (serviceWrite (s.reg 2).toNat (w16 line.length))

/-- The line terminator the output service writes (R213). -/
def lineTerminator : Byte := 0x0A

/-- `OutputService()` (R211, R213): as many cells as the cell at GR[2] says, from the buffer at GR[1], and a line
terminator. -/
def outputService (s : State) : ServiceResult :=
  match s.memRead (s.reg 2).toNat with
  | .error f => .stopped f s
  | .ok len => (outputCells (s.reg 1).toNat len.toNat s).andThen fun t => .done (t.emit lineTerminator)

/-- The supervisor-call dispatcher (R210, R214): the call number is the whole effective address. -/
def supervisorCall (x : Reg) (adr : Word) (s : State) : ServiceResult :=
  match effectiveAddress s adr x with
  | .error f => .stopped f s
  | .ok n =>
    if n = 1 then inputService s
    else if n = 2 then outputService s
    else .stopped .invalidOperation s

/-- SVC (R210). -/
def execSvc (x : Reg) (adr : Word) (s : State) : Result :=
  match supervisorCall x adr s with
  | .done t => .next t
  | .stopped f _ => raise f

/-- NOP (R215): nothing beyond the step's own effects. -/
def execNop (s : State) : Result := conclude (.ok s)

/-- HLT (R216): HALT is set; PC stays past the HLT. -/
def execHlt (s : State) : Result := conclude (.ok s.setHalt)

end Sys2Proof.Machine
end

