-- ==== Sys2Proof/Machine/Dispatch.lean ====
section
/-! DEFINITION. One arm per instruction, in the order of spec/opcode_table.json. The state is the one after the common
fetch of R74: PC is past the instruction. -/
namespace Sys2Proof.Machine

def exec (i : Instr) (s : State) : Host.Outcome State Fault Refusal :=
  match i with
  | .nop => Sys2Proof.Machine.execNop s
  | .ldMem d x adr => Sys2Proof.Machine.execLdMem d x adr s
  | .st d x adr => Sys2Proof.Machine.execSt d x adr s
  | .lad d x adr => Sys2Proof.Machine.execLad d x adr s
  | .ldReg d r => Sys2Proof.Machine.execLdReg d r s
  | .addaMem d x adr => Sys2Proof.Machine.execAddaMem d x adr s
  | .subaMem d x adr => Sys2Proof.Machine.execSubaMem d x adr s
  | .addlMem d x adr => Sys2Proof.Machine.execAddlMem d x adr s
  | .sublMem d x adr => Sys2Proof.Machine.execSublMem d x adr s
  | .addaReg d r => Sys2Proof.Machine.execAddaReg d r s
  | .subaReg d r => Sys2Proof.Machine.execSubaReg d r s
  | .addlReg d r => Sys2Proof.Machine.execAddlReg d r s
  | .sublReg d r => Sys2Proof.Machine.execSublReg d r s
  | .andMem d x adr => Sys2Proof.Machine.execAndMem d x adr s
  | .orMem d x adr => Sys2Proof.Machine.execOrMem d x adr s
  | .xorMem d x adr => Sys2Proof.Machine.execXorMem d x adr s
  | .andReg d r => Sys2Proof.Machine.execAndReg d r s
  | .orReg d r => Sys2Proof.Machine.execOrReg d r s
  | .xorReg d r => Sys2Proof.Machine.execXorReg d r s
  | .cpaMem d x adr => Sys2Proof.Machine.execCpaMem d x adr s
  | .cplMem d x adr => Sys2Proof.Machine.execCplMem d x adr s
  | .cpaReg d r => Sys2Proof.Machine.execCpaReg d r s
  | .cplReg d r => Sys2Proof.Machine.execCplReg d r s
  | .sla d x adr => Sys2Proof.Machine.execSla d x adr s
  | .sra d x adr => Sys2Proof.Machine.execSra d x adr s
  | .sll d x adr => Sys2Proof.Machine.execSll d x adr s
  | .srl d x adr => Sys2Proof.Machine.execSrl d x adr s
  | .jmi x adr => Sys2Proof.Machine.execJmi x adr s
  | .jnz x adr => Sys2Proof.Machine.execJnz x adr s
  | .jze x adr => Sys2Proof.Machine.execJze x adr s
  | .jump x adr => Sys2Proof.Machine.execJump x adr s
  | .jpl x adr => Sys2Proof.Machine.execJpl x adr s
  | .jov x adr => Sys2Proof.Machine.execJov x adr s
  | .push x adr => Sys2Proof.Machine.execPush x adr s
  | .pop d => Sys2Proof.Machine.execPop d s
  | .call x adr => Sys2Proof.Machine.execCall x adr s
  | .ret => Sys2Proof.Machine.execRet s
  | .svc x adr => Sys2Proof.Machine.execSvc x adr s
  | .hlt => Sys2Proof.Machine.execHlt s

end Sys2Proof.Machine
end

