-- ==== Sys2Proof/Machine/RunLoop.lean ====
section
/-! DEFINITION. The common fetch and decode (30_encoding.md rule R74), one execution of an instruction, and the run loop
with its stop causes (60_exceptions.md rules R266 to R270). Step.lean calls what stands here. -/
namespace Sys2Proof.Machine

/-! ### Fetch and decode (R52, R74) -/

/-- The words that a fetch at PC can reach: an instruction has at most two, and a word outside the image is not there
(R52, R55). -/
def fetchable (s : State) : List Word :=
  if s.pc < s.cfg.memSize then
    if s.pc + 1 < s.cfg.memSize then [s.word s.pc, s.word (s.pc + 1)] else [s.word s.pc]
  else []

/-- The instruction at PC, or the fault that its fetch and decode raise (R77, R78, R264). -/
def fetchDecode (s : State) : Except Fault Instr :=
  match decode s.cfg (fetchable s) with
  | .ok i => .ok i
  | .truncated => .error .illegalAccess
  | .unassigned => .error .invalidOperation
  | .badRegister => .error .invalidOperation

/-- `ExecOne()` (R74): fetch, decode, advance PC past the instruction, run its meaning. -/
def execOne (s : State) : Result :=
  match fetchDecode s with
  | .error f => raise f
  | .ok i => exec i (s.advance i.words)

/-- What the loop does after an instruction that completed: count it, and clear STEP if that is what stops the run; a
halt stops it before (R267, R269, R270). -/
def retire (t : State) : State :=
  if t.halt then t.countInstruction else t.countInstruction.setStepFlag false

/-- One iteration of the run loop's body on a machine that may run: a breakpoint pause, or one instruction (R267). -/
def iteration (s : State) : Result :=
  if s.atBreakpoint then .next s.noteCheck
  else
    match execOne s.noteCheck with
    | .next t => .next (retire t)
    | .fault f => .fault f
    | .refused r => .refused r

/-- One step of the machine: an iteration, refused while HALT is 1 (R269; notes/assumptions/8.md, 9.md). -/
def stepOnce (s : State) : Result :=
  if s.halt then .refused .haltedWithoutReset else iteration s

/-! ### Stop causes (R266) and the run -/

/-- The eight stop causes of R34 and R266. -/
inductive StopCause where
  | ok
  | halt
  | singleStep
  | breakpoint
  | illegalAccess
  | invalidOperation
  | stackOverflow
  | stackUnderflow
deriving DecidableEq, Repr

/-- The stop cause that reports a fault. -/
def Fault.cause : Fault → StopCause
  | .illegalAccess => .illegalAccess
  | .invalidOperation => .invalidOperation
  | .stackOverflow => .stackOverflow
  | .stackUnderflow => .stackUnderflow

/-- The state that a faulting `ExecOne()` leaves (R263): PC past the words fetched, and of a service what it had done
before the failing access; nothing else is changed. The source does not vouch for it (notes/assumptions/10.md). -/
def leftByFault (s : State) : State :=
  let t := s.advance (wordsFetched s.cfg (fetchable s))
  match decode s.cfg (fetchable s) with
  | .ok (.svc x adr) => (supervisorCall x adr t).state
  | _ => t

/-- The stop cause of an instruction that completed in `t`: the halt test before the single-step test; `ok` if the loop
goes on (R266, R267). -/
def completionCause (t : State) : StopCause :=
  if t.halt then .halt else if t.stepFlag then .singleStep else .ok

/-- One iteration of the run loop with its stop cause and the state it leaves; `ok` means that the loop goes on. No
instruction is refused by `exec`; the answer for that case is none. -/
def iterate (s : State) : Option (StopCause × State) :=
  if s.atBreakpoint then some (.breakpoint, s.noteCheck)
  else
    match execOne s.noteCheck with
    | .next t => some (completionCause t, retire t)
    | .fault f => some (f.cause, leftByFault s.noteCheck)
    | .refused _ => none

/-- What a run comes to within a bound on its iterations. -/
inductive RunResult where
  /-- `Run()` returned this cause, the machine being in this state. -/
  | stopped (c : StopCause) (s : State)
  /-- The bound was reached and the run goes on (R265: a run need not end). -/
  | running (s : State)
  /-- The run was not accepted. -/
  | refused (r : Refusal)
deriving DecidableEq, Repr

/-- The loop of `Run()`, at most `n` iterations. -/
def runLoop : Nat → State → RunResult
  | 0, s => .running s
  | n + 1, s =>
    match iterate s with
    | some (.ok, t) => runLoop n t
    | some (c, t) => .stopped c t
    | none => .running s

/-- `Run()` (R267), at most `n` iterations; refused while HALT is 1 (R269, U7). -/
def run (n : Nat) (s : State) : RunResult :=
  if s.halt then .refused .haltedWithoutReset else runLoop n s

/-- The host's "execute exactly one instruction": `STEP <- 1; Run()` (R270). One iteration ends it, whatever happens. -/
def runOne (s : State) : RunResult := run 1 (s.setStepFlag true)

end Sys2Proof.Machine
end

