-- ==== Sys2Proof/Machine/Placing.lean ====
section
/-! DEFINITION. Placing instruction words at the program counter, which stands for loading a program from outside
(notes/assumptions/11.md). -/
namespace Sys2Proof.Machine

/-- Words at consecutive addresses from `a` on; a word outside the image is not placed. -/
def State.placeAt : State → Nat → List Word → State
  | s, _, [] => s
  | s, a, w :: ws => (if a < s.cfg.memSize then s.setWord a w else s).placeAt (a + 1) ws

/-- The words at PC, on a machine that may run and has the operation the first of them selects: HALT is 0, the
breakpoint check at PC counts as done (R268), and a word that `OPMAP` gives ST selects the machine with `HAS_ST`
(R123). -/
def State.placeWords (s : State) (ws : List Word) : State :=
  let t := { s.placeAt s.pc ws with halt := false, lastChk := some s.pc }
  match ws with
  | w :: _ =>
    if opField w = s.cfg.opmap.code .st then { t with cfg := { s.cfg with hasSt := true } } else t
  | [] => t

end Sys2Proof.Machine
end

