-- ==== Sys2Proof/Machine/Step.lean ====
section
/-! DEFINITION. The machine's step, and the placing of a word where the step fetches. -/
namespace Sys2Proof.Machine

/-- One step: one iteration of the run loop (R267), `stepOnce` of Machine/RunLoop.lean. -/
def step (s : State) : Host.Outcome State Fault Refusal := stepOnce s

/-- `s` with a word of the opcode table stored where `step` fetches next, so that the very next step runs it
(`placeWords` of Machine/Placing.lean; notes/assumptions/11.md). -/
def State.withFetchWord (s : State) (nbits w : Nat) : State := s.placeWords (tableWords nbits w)

end Sys2Proof.Machine
end

