-- ==== Sys2Proof/Machine/Tokenizer.lean ====
section
/-! DEFINITION. The assembler's tokens: the scan of a source line into lexemes and their classes (30_encoding.md rules
R85 to R88, R104). A source line is the list of its characters, one character for each byte of the source text
(notes/assumptions/18.md). -/
namespace Sys2Proof.Machine

/-- Characters of source text, or a name. -/
abbrev Text := List Char

/-- The mnemonics of R104; SVC and ST are keywords only under their parameters. -/
inductive Mnemonic where
  | nop | hlt | ret | pop | push | jump | jpl | jmi | jnz | jze | jov | call
  | sla | sra | sll | srl | lad | ld | adda | addl | suba | subl | and | or | xor | cpa | cpl
  | svc | st
deriving DecidableEq, Repr

/-- The four pseudo-ops (R85). -/
inductive Pseudo where
  | start | finish | dc | ds
deriving DecidableEq, Repr

/-- The two macro-ops (R85). -/
inductive MacroOp where
  | input | output
deriving DecidableEq, Repr

/-- The token classes of R85, each with the value or text it carries. -/
inductive Token where
  /-- `REG`. -/
  | reg (r : Reg)
  /-- `OP`. -/
  | op (m : Mnemonic)
  /-- `PSEUDO`. -/
  | pseudo (p : Pseudo)
  /-- `MACRO`. -/
  | macroOp (m : MacroOp)
  /-- `COMMA`. -/
  | comma
  /-- `LABEL`. -/
  | label (name : Text)
  /-- `DEC`. -/
  | dec (n : Int)
  /-- `HEX`. -/
  | hex (n : Nat)
  /-- `STRING`, with doubled quotes undoubled. -/
  | str (chars : Text)
  /-- `CONST`: the literal's value and the full text. -/
  | const (n : Int) (text : Text)
  /-- `OTHER`. -/
  | other (text : Text)
deriving DecidableEq, Repr

/-! ### Keywords (R86, R104): exact match, upper case -/

/-- The register names. -/
def registerKeywords : List (Text × Token) :=
  [(['G', 'R', '0'], .reg 0),
   (['G', 'R', '1'], .reg 1),
   (['G', 'R', '2'], .reg 2),
   (['G', 'R', '3'], .reg 3),
   (['G', 'R', '4'], .reg 4),
   (['G', 'R', '5'], .reg 5),
   (['G', 'R', '6'], .reg 6),
   (['G', 'R', '7'], .reg 7)]

/-- The pseudo-ops and macro-ops. -/
def directiveKeywords : List (Text × Token) :=
  [(['S', 'T', 'A', 'R', 'T'], .pseudo .start),
   (['E', 'N', 'D'], .pseudo .finish),
   (['D', 'C'], .pseudo .dc),
   (['D', 'S'], .pseudo .ds),
   (['I', 'N'], .macroOp .input),
   (['O', 'U', 'T'], .macroOp .output)]

/-- Control, stack and shift mnemonics. -/
def controlKeywords : List (Text × Token) :=
  [(['N', 'O', 'P'], .op .nop),
   (['H', 'L', 'T'], .op .hlt),
   (['R', 'E', 'T'], .op .ret),
   (['P', 'O', 'P'], .op .pop),
   (['P', 'U', 'S', 'H'], .op .push),
   (['J', 'U', 'M', 'P'], .op .jump),
   (['J', 'P', 'L'], .op .jpl),
   (['J', 'M', 'I'], .op .jmi),
   (['J', 'N', 'Z'], .op .jnz),
   (['J', 'Z', 'E'], .op .jze),
   (['J', 'O', 'V'], .op .jov),
   (['C', 'A', 'L', 'L'], .op .call),
   (['S', 'L', 'A'], .op .sla),
   (['S', 'R', 'A'], .op .sra),
   (['S', 'L', 'L'], .op .sll),
   (['S', 'R', 'L'], .op .srl)]

/-- Move, arithmetic, boolean and compare mnemonics. -/
def dataKeywords : List (Text × Token) :=
  [(['L', 'A', 'D'], .op .lad),
   (['L', 'D'], .op .ld),
   (['A', 'D', 'D', 'A'], .op .adda),
   (['A', 'D', 'D', 'L'], .op .addl),
   (['S', 'U', 'B', 'A'], .op .suba),
   (['S', 'U', 'B', 'L'], .op .subl),
   (['A', 'N', 'D'], .op .and),
   (['O', 'R'], .op .or),
   (['X', 'O', 'R'], .op .xor),
   (['C', 'P', 'A'], .op .cpa),
   (['C', 'P', 'L'], .op .cpl)]

/-- The keyword table: SVC only if `ASM_ACCEPTS_SVC`, ST only if `HAS_ST` (R104). -/
def keywords (c : Config) : List (Text × Token) :=
  registerKeywords ++ directiveKeywords ++ controlKeywords ++ dataKeywords
  ++ (if c.asmAcceptsSvc then [(['S', 'V', 'C'], .op .svc)] else [])
  ++ (if c.hasSt then [(['S', 'T'], .op .st)] else [])

/-! ### Literals (R87) -/

/-- `0` to `9`. -/
def isDecDigit (ch : Char) : Bool := '0' ≤ ch && ch ≤ '9'

/-- `0` to `9` and `A` to `F`. -/
def isHexDigit (ch : Char) : Bool := isDecDigit ch || ('A' ≤ ch && ch ≤ 'F')

/-- A letter. -/
def isLetter (ch : Char) : Bool := ('A' ≤ ch && ch ≤ 'Z') || ('a' ≤ ch && ch ≤ 'z')

/-- The value of a digit. -/
def digitValue (ch : Char) : Nat := if isDecDigit ch then ch.toNat - 48 else ch.toNat - 55

/-- The value of a row of digits. -/
def digitsValue (base : Nat) (t : Text) : Nat := t.foldl (fun n ch => n * base + digitValue ch) 0

/-- One or more decimal digits and nothing else. -/
def decDigits (t : Text) : Option Nat :=
  if !t.isEmpty && t.all isDecDigit then some (digitsValue 10 t) else none

/-- `DEC`: an optional leading minus, then one or more digits. -/
def decLiteral : Text → Option Int
  | '-' :: t => (decDigits t).map fun n => -(n : Int)
  | t => (decDigits t).map fun n => (n : Int)

/-- `HEX`: `#` and then one or more hexadecimal digits. -/
def hexLiteral : Text → Option Nat
  | '#' :: t => if !t.isEmpty && t.all isHexDigit then some (digitsValue 16 t) else none
  | _ => none

/-- The numeric part of a `CONST`: a hexadecimal or decimal literal. -/
def constLiteral (t : Text) : Option Int :=
  match hexLiteral t with
  | some n => some (n : Int)
  | none => decLiteral t

/-- `LABEL`: a letter first, then letters and digits. -/
def isLabel : Text → Bool
  | ch :: t => isLetter ch && t.all fun c => isLetter c || isDecDigit c
  | [] => false

/-! ### The scan (R86, R88) -/

/-- A lexeme of a line. -/
inductive Lexeme where
  /-- A comma outside a string. -/
  | comma
  /-- Characters without a string. -/
  | plain (t : Text)
  /-- A quoted string, doubled quotes undoubled, and what stood before its opening quote in the lexeme: nothing, or
  `=`. -/
  | quoted (mark chars : Text)
deriving DecidableEq, Repr

/-- The characters of a string as the source writes them between its quotes: quotes doubled (R88). -/
def doubled (chars : Text) : Text := chars.flatMap fun ch => if ch = '\'' then ['\'', '\''] else [ch]

/-- The three states of the scan (R88). -/
inductive ScanState where
  /-- Outside a string, with the lexeme read so far. -/
  | outside (acc : Text)
  /-- Inside a string, accumulating. -/
  | inside (mark acc : Text)
  /-- Just saw a closing quote: another quote means a doubled one. -/
  | closing (mark acc : Text)
deriving DecidableEq, Repr

/-- The lexeme accumulated outside a string, if there is one. -/
def flushPlain (acc : Text) : List Lexeme := if acc.isEmpty then [] else [.plain acc]

/-- One character outside a string; `go` is the scan of the rest of the line. -/
def scanOutside (acc : Text) (ch : Char) (go : ScanState → List Lexeme) : List Lexeme :=
  if ch = ' ' || ch = '\t' then flushPlain acc ++ go (.outside [])
  else if ch = ',' then flushPlain acc ++ .comma :: go (.outside [])
  else if ch = ';' then flushPlain acc
  else if ch = '\'' && (acc = [] || acc = ['=']) then go (.inside acc [])
  else go (.outside (acc ++ [ch]))

/-- A string that the end of the line cuts off is flushed as what was accumulated (R88). -/
def flushString (mark acc : Text) : List Lexeme :=
  if mark.isEmpty then [.quoted [] acc] else [.plain (mark ++ '\'' :: doubled acc)]

/-- The lexemes of a line, from a state of the scan. -/
def scan : ScanState → Text → List Lexeme
  | .outside acc, [] => flushPlain acc
  | .inside mark acc, [] => flushString mark acc
  | .closing mark acc, [] => [.quoted mark acc]
  | .outside acc, ch :: rest => scanOutside acc ch fun st => scan st rest
  | .inside mark acc, ch :: rest =>
    if ch = '\'' then scan (.closing mark acc) rest else scan (.inside mark (acc ++ [ch])) rest
  | .closing mark acc, ch :: rest =>
    if ch = '\'' then scan (.inside mark (acc ++ ['\''])) rest
    else .quoted mark acc :: scanOutside [] ch fun st => scan st rest

/-! ### Classes (R85 to R87) -/

/-- A `CONST` lexeme without a quoted character. -/
def constOf : Text → Option Token
  | '=' :: t => (constLiteral t).map fun n => .const n ('=' :: t)
  | _ => none

/-- A lexeme that is no keyword: the first literal form that fits, in the order of R87. -/
def literalToken (t : Text) : Token :=
  match decLiteral t with
  | some n => .dec n
  | none =>
    match hexLiteral t with
    | some n => .hex n
    | none =>
      match constOf t with
      | some k => k
      | none => if isLabel t then .label t else .other t

/-- The token of a lexeme. The text of a `CONST` is the full `=...` form as the source writes it (R85). -/
def tokenOf (c : Config) : Lexeme → Token
  | .comma => .comma
  | .plain t =>
    match (keywords c).lookup t with
    | some k => k
    | none => literalToken t
  | .quoted [] chars => .str chars
  | .quoted mark [ch] => .const (ch.toNat : Int) (mark ++ '\'' :: doubled [ch] ++ ['\''])
  | .quoted mark chars => .other (mark ++ '\'' :: doubled chars ++ ['\''])

/-- `parse(line)` (R85): each line is tokenized on its own. -/
def tokenize (c : Config) (line : Text) : List Token := (scan (.outside []) line).map (tokenOf c)

/-- Whether two adjacent spaces stand in a text. -/
def hasSpaceRun : Text → Bool
  | ' ' :: ' ' :: _ => true
  | _ :: t => hasSpaceRun t
  | [] => false

/-- A quoted string with two adjacent spaces, of which the source does not say how many it keeps (R88, U12). DESIGN CHOICE
(notes/assumptions/20.md): such a line is refused, whether the string stands by itself or after `=`, where one space would
make it a `CONST` and two make it `OTHER`; spaces stand in the text of an `OTHER` only inside a string. -/
def Token.unsettled : Token → Bool
  | .str chars => hasSpaceRun chars
  | .other text => hasSpaceRun text
  | _ => false

end Sys2Proof.Machine
end

