-- ==== Sys2Proof/Machine/Assembler.lean ====
section
/-! DEFINITION. The assembler: operand validation, the words a line emits, labels, pseudo-ops and macro-ops
(30_encoding.md rules R89 to R104, 48_assembler_link.md rules R225 to R235). It runs to completion before the machine's
first step (R12) and is a function from source lines to a builder's state. -/
namespace Sys2Proof.Machine

/-- The error code of a line (R100). -/
inductive LineCode where
  | ok
  | noOperator
  | noOperand
  | invalidOperand
  | multiplyDefinedSymbol
deriving DecidableEq, Repr

/-- What one append puts into the image: a word, or a reference word that the link step fills (R99, R233). -/
inductive Item where
  | word (v : Word)
  | ref (name : Text)
  | literal (v : Word)
deriving DecidableEq, Repr

/-- The operand shapes of machine instructions (R90). The other three shapes of R90 belong to one kind of operator each
and are `inOutBody`, `dcBody` and `dsBody`. -/
inductive Shape where
  | none
  | reg
  | eadr
  | regEadr
  | regRegOrMem
deriving DecidableEq, Repr

/-- The shape of each mnemonic (R90). -/
def Mnemonic.shape (c : Config) : Mnemonic → Shape
  | .nop | .hlt | .ret => .none
  | .pop => .reg
  | .push | .jump | .jpl | .jmi | .jnz | .jze | .jov | .call | .svc => .eadr
  | .sla | .sra | .sll | .srl =>
    match c.shiftShape with
    | .eadr => .eadr
    | .regEadr => .regEadr
  | .lad | .st => .regEadr
  | .ld | .adda | .addl | .suba | .subl | .and | .or | .xor | .cpa | .cpl => .regRegOrMem

/-- The operation of a mnemonic: its memory form where it has two (R104). -/
def Mnemonic.op : Mnemonic → Op
  | .nop => .nop | .hlt => .hlt | .ret => .ret | .pop => .pop | .push => .push | .jump => .jump
  | .jpl => .jpl | .jmi => .jmi | .jnz => .jnz | .jze => .jze | .jov => .jov | .call => .call
  | .sla => .sla | .sra => .sra | .sll => .sll | .srl => .srl | .lad => .lad | .ld => .ldMem
  | .adda => .addaMem | .addl => .addlMem | .suba => .subaMem | .subl => .sublMem
  | .and => .andMem | .or => .orMem | .xor => .xorMem | .cpa => .cpaMem | .cpl => .cplMem
  | .svc => .svc | .st => .st

/-- The register form of a mnemonic that has two forms (R95, R104); of another, its operation. -/
def Mnemonic.regOp : Mnemonic → Op
  | .ld => .ldReg | .adda => .addaReg | .addl => .addlReg | .suba => .subaReg | .subl => .sublReg
  | .and => .andReg | .or => .orReg | .xor => .xorReg | .cpa => .cpaReg | .cpl => .cplReg
  | .nop => .nop | .hlt => .hlt | .ret => .ret | .pop => .pop | .push => .push | .jump => .jump
  | .jpl => .jpl | .jmi => .jmi | .jnz => .jnz | .jze => .jze | .jov => .jov | .call => .call
  | .sla => .sla | .sra => .sra | .sll => .sll | .srl => .srl | .lad => .lad | .svc => .svc | .st => .st

/-! ### Operands (R91 to R99) -/

/-- The `addr` operand (R99). -/
def addrItem : Token → Option Item
  | .dec n => some (.word (w16 n))
  | .hex n => some (.word (w16 n))
  | .label name => some (.ref name)
  | .const n _ => some (.literal (w16 n))
  | .reg _ | .op _ | .pseudo _ | .macroOp _ | .comma | .str _ | .other _ => none

/-- `addr` or `addr COMMA REG`: the address word and the index register, 0 when absent (R93, R99). -/
def addrIndex : List Token → Option (Item × Reg)
  | [a] => (addrItem a).map fun it => (it, 0)
  | [a, .comma, .reg x] => (addrItem a).map fun it => (it, x)
  | _ => none

/-- The operands after an operator that needs some: none given is `NO_OPERAND`, a mismatch `INVALID_OPERAND` (R100). -/
def needOperands (ts : List Token) (items : Option (List Item)) : Except LineCode (List Item) :=
  if ts.isEmpty then .error .noOperand
  else
    match items with
    | some is => .ok is
    | none => .error .invalidOperand

/-- Operators with shape `NONE` (R91). -/
def noOperands (ts : List Token) (items : List Item) : Except LineCode (List Item) :=
  if ts.isEmpty then .ok items else .error .invalidOperand

/-- The items of an instruction with register and address operands: `d`, index register, address word (R102). -/
def addressed (c : Config) (o : Op) (d : BitVec 4) (p : Item × Reg) : List Item :=
  [.word (opWord c o d (regId p.2)), p.1]

/-- Shape `REG_EADR` (R94). -/
def regEadrItems (c : Config) (o : Op) : List Token → Option (List Item)
  | .reg r :: .comma :: rest => (addrIndex rest).map (addressed c o (regId r))
  | _ => none

/-- Shape `REG_REGorMEM` (R95): a register right after the comma selects the register form. -/
def regRegOrMemItems (c : Config) (oReg oMem : Op) : List Token → Option (List Item)
  | [.reg d, .comma, .reg r] => some [.word (opWord c oReg (regId d) (regId r))]
  | ts => regEadrItems c oMem ts

/-- A machine instruction's operands against its shape (R90 to R95). -/
def instrBody (c : Config) (m : Mnemonic) (ts : List Token) : Except LineCode (List Item) :=
  match m.shape c with
  | .none => noOperands ts [.word (opWord c m.op 0 0)]
  | .reg => needOperands ts <|
    match ts with
    | [.reg r] => some [.word (opWord c m.op (regId r) 0)]
    | _ => none
  | .eadr => needOperands ts ((addrIndex ts).map (addressed c m.op 0))
  | .regEadr => needOperands ts (regEadrItems c m.op ts)
  | .regRegOrMem => needOperands ts (regRegOrMemItems c m.regOp m.op ts)

/-- The word that holds one character (R230, R233): its byte code, high byte zero. -/
def charWord (ch : Char) : Word := BitVec.ofNat 16 ch.toNat

/-- One value of DC (R97, R230). -/
def dcValue : Token → Option (List Item)
  | .dec n => some [.word (w16 n)]
  | .hex n => some [.word (w16 n)]
  | .str chars => some (chars.map fun ch => .word (charWord ch))
  | .reg _ | .op _ | .pseudo _ | .macroOp _ | .comma | .label _ | .const _ _ | .other _ => none

/-- The values of DC, separated by commas. -/
def dcItems : List Token → Option (List Item)
  | [v] => dcValue v
  | v :: .comma :: rest => do
    let is ← dcValue v
    let more ← dcItems rest
    return is ++ more
  | _ => none

/-- DC (R97, R230). -/
def dcBody (ts : List Token) : Except LineCode (List Item) := needOperands ts (dcItems ts)

/-- DS (R98, R231): as many zero words as the count says. -/
def dsBody (ts : List Token) : Except LineCode (List Item) :=
  needOperands ts <|
    match ts with
    | [.dec n] => if 0 ≤ n then some (List.replicate n.toNat (.word 0)) else none
    | [.hex n] => some (List.replicate n (.word 0))
    | _ => none

/-- The supervisor-call number of a macro-op (R232). -/
def MacroOp.service : MacroOp → Word
  | .input => 1
  | .output => 2

/-- Words as items. -/
def wordItems (ws : List Word) : List Item := ws.map .word

/-- The seven instructions of IN and OUT (R232). -/
def expandInOut (c : Config) (m : MacroOp) (addr1 addr2 : Item) : List Item :=
  wordItems (encode c (.push 1 0)) ++ wordItems (encode c (.push 2 0))
  ++ addressed c .lad (regId 1) (addr1, 0) ++ addressed c .lad (regId 2) (addr2, 0)
  ++ wordItems (encode c (.svc 0 m.service)) ++ wordItems (encode c (.pop 2)) ++ wordItems (encode c (.pop 1))

/-- Shape `ADR_ADR` (R96). -/
def inOutBody (c : Config) (m : MacroOp) (ts : List Token) : Except LineCode (List Item) :=
  needOperands ts <|
    match ts with
    | [a, .comma, b] => do
      let a ← addrItem a
      let b ← addrItem b
      return expandInOut c m a b
    | _ => none

/-- The operator and operands of a line, its label taken off (R89, R100, R229). -/
def lineBody (c : Config) : List Token → Except LineCode (List Item)
  | [] => .ok []
  | .op m :: ts => instrBody c m ts
  | .pseudo .start :: ts => noOperands ts []
  | .pseudo .finish :: ts => noOperands ts []
  | .pseudo .dc :: ts => dcBody ts
  | .pseudo .ds :: ts => dsBody ts
  | .macroOp m :: ts => inOutBody c m ts
  | _ :: _ => .error .noOperator

/-! ### The builder's state (R225) -/

/-- Names and offsets. -/
abbrev SymbolMap := List (Text × Nat)

/-- The tables of a unit: `DEFS` and `REFS` (R225), and the names that lines of the unit entered in `EXTERNS` (R228). -/
structure UnitTables where
  defs : SymbolMap
  refs : SymbolMap
  starts : List Text
deriving DecidableEq, Repr

/-- The tables of a unit that has just been opened (R225, R234). -/
def UnitTables.empty : UnitTables := ⟨[], [], []⟩

/-- `DEFS` or `REFS` holds an entry. -/
def UnitTables.hasEntries (t : UnitTables) : Bool := !(t.defs.isEmpty && t.refs.isEmpty)

/-- Whether the unit has defined the name: plainly, or by a start label (R228). -/
def UnitTables.defines (t : UnitTables) (name : Text) : Bool :=
  t.defs.any (fun e => e.1 == name) || t.starts.contains name

/-- The debug record of a line (R103). -/
structure DebugRecord where
  text : Text
  tokens : List Token
  start : Nat
  finish : Nat
  code : LineCode
deriving DecidableEq, Repr

/-- The symbol table and linker's state during a build (R225), with the debug records (R103) and whether a line failed
(R101). -/
structure Builder where
  /-- The shared memory image. -/
  image : Memory
  /-- `W`, the write offset. -/
  w : Nat
  /-- The tables of the current unit. -/
  tables : UnitTables
  /-- `UNITS`. -/
  units : List UnitTables
  /-- `EXTERNS`. -/
  externs : SymbolMap
  /-- `LITREFS`. -/
  litRefs : List (Word × Nat)
  /-- The debug records, the oldest first. -/
  records : List DebugRecord
  /-- Some line had an error (R101). -/
  failed : Bool
deriving DecidableEq, Repr

/-- Why a build goes on with no meaning: situations of 93_implementation_defined.md (notes/assumptions/20.md, 21.md). -/
inductive BuildRefusal where
  /-- A character of a line is no byte. -/
  | notBytes
  /-- U12: two adjacent spaces inside a quoted string, after `=` too. -/
  | spaceRunInString
  /-- U9: the image has no room for the words of a line or for the literal pool. -/
  | pastImage
  /-- U11: a start label that an earlier unit has declared. -/
  | startLabelTwice
deriving DecidableEq, Repr

/-- What a build operation answers for a line. -/
inductive LineResult where
  | done (code : LineCode) (b : Builder)
  | refused (r : BuildRefusal)
deriving DecidableEq, Repr

namespace Builder

/-- The initial values of R225, over an image. -/
def start (image : Memory) : Builder where
  image := image
  w := 0
  tables := UnitTables.empty
  units := []
  externs := []
  litRefs := []
  records := []
  failed := false

/-- `AppendWord(v)` (R233). -/
def appendWord (b : Builder) (v : Word) : Builder := { b with image := b.image.write b.w v, w := b.w + 1 }

/-- `AppendWord`, `AppendRef` or `AppendLitRef` (R233): a reference is recorded at the offset of its placeholder. -/
def appendItem (b : Builder) : Item → Builder
  | .word v => b.appendWord v
  | .ref name => { b with tables := { b.tables with refs := b.tables.refs ++ [(name, b.w)] } }.appendWord 0
  | .literal v => { b with litRefs := b.litRefs ++ [(v, b.w)] }.appendWord 0

/-- The items of a line, if the image has room for them (U9). -/
def appendItems (c : Config) (b : Builder) (is : List Item) : Option Builder :=
  if b.w + is.length ≤ c.memSize then some (is.foldl appendItem b) else none

/-- `Define(name)` or, before START, `DefineExtern(name)` (R226, R227, R233). -/
def define (b : Builder) (extern : Bool) (name : Text) : Builder :=
  if extern then
    { b with
      externs := b.externs ++ [(name, b.w)]
      tables := { b.tables with starts := b.tables.starts ++ [name] } }
  else { b with tables := { b.tables with defs := b.tables.defs ++ [(name, b.w)] } }

/-- Add the debug record of a line that began at `start` (R101, R103). -/
def record (b : Builder) (line : Text) (tokens : List Token) (start : Nat) (code : LineCode) : Builder :=
  { b with
    records := b.records ++ [⟨line, tokens, start, b.w, code⟩]
    failed := b.failed || code != .ok }

/-- The line after its label: an error emits no word and records no reference (R100). -/
def finishLine (c : Config) (b : Builder) (line : Text) (tokens rest : List Token) : LineResult :=
  match lineBody c rest with
  | .error e => .done e (b.record line tokens b.w e)
  | .ok is =>
    match b.appendItems c is with
    | none => .refused .pastImage
    | some b' => .done .ok (b'.record line tokens b.w .ok)

/-- A label and the line after it (R89, R226 to R228): the label is defined before the rest is looked at. -/
def labelledLine (c : Config) (b : Builder) (line : Text) (tokens : List Token) (name : Text) (rest : List Token) :
    LineResult :=
  let extern : Bool := rest.head? == some (.pseudo .start)
  if b.tables.defines name then .done .multiplyDefinedSymbol (b.record line tokens b.w .multiplyDefinedSymbol)
  else if extern && b.externs.any (fun e => e.1 == name) then .refused .startLabelTwice
  else (b.define extern name).finishLine c line tokens rest

/-- `assemble(line, memoryImage)` (R235): exactly one line. -/
def assembleLine (c : Config) (b : Builder) (line : Text) : LineResult :=
  let tokens := tokenize c line
  if line.any (fun ch => 255 < ch.toNat) then .refused .notBytes
  else if tokens.any Token.unsettled then .refused .spaceRunInString
  else
    match tokens with
    | .label name :: rest => b.labelledLine c line tokens name rest
    | _ => b.finishLine c line tokens tokens

/-- A stream of lines (R235): errors do not stop the lines after them (R101). DESIGN CHOICE (notes/assumptions/30.md): the
code answered for the stream is that of the first line that failed; R235 and R101 give each line its code and are silent
on one for the stream. -/
def assembleLines (c : Config) (b : Builder) : List Text → LineResult
  | [] => .done .ok b
  | line :: lines =>
    match b.assembleLine c line with
    | .refused r => .refused r
    | .done code b' =>
      match b'.assembleLines c lines with
      | .refused r => .refused r
      | .done code' b'' => .done (if code = .ok then code' else code) b''

/-- `Snapshot()` (R234). -/
def snapshot (b : Builder) : Builder :=
  { b with units := b.units ++ [b.tables], tables := UnitTables.empty }

/-- Several files, each one unit, with a snapshot after each (R235). DESIGN CHOICE (notes/assumptions/30.md): the code
answered for the file set is that of the first line that failed, as for a stream. -/
def assembleFiles (c : Config) (b : Builder) : List (List Text) → LineResult
  | [] => .done .ok b
  | file :: files =>
    match b.assembleLines c file with
    | .refused r => .refused r
    | .done code b' =>
      match b'.snapshot.assembleFiles c files with
      | .refused r => .refused r
      | .done code' b'' => .done (if code = .ok then code' else code) b''

end Builder

end Sys2Proof.Machine
end

