-- ==== Sys2Proof/Machine/Linker.lean ====
section
/-! DEFINITION. Link resolution and the symbol table the host sees (48_assembler_link.md rules R240 to R246). -/
namespace Sys2Proof.Machine

/-- What `End()` answers: R244's boolean, the references it could not resolve, and the builder. -/
inductive LinkResult where
  | done (success : Bool) (unresolved : SymbolMap) (b : Builder)
  | refused (r : BuildRefusal)
deriving DecidableEq, Repr

/-- A symbol lookup's answer (R240). -/
inductive SymbolLookup where
  | found (offset : Nat)
  | absent
  /-- U11: a plain name that several units define. -/
  | ambiguous
deriving DecidableEq, Repr

/-- Put a word into a list of words in increasing unsigned order, once. -/
def insertWord (v : Word) : List Word → List Word
  | [] => [v]
  | w :: ws => if v.toNat < w.toNat then v :: w :: ws else if v = w then w :: ws else w :: insertWord v ws

/-- Step 1 (R241): the values of the literal references, sorted, each once. -/
def literalValues (refs : List (Word × Nat)) : List Word := refs.foldr (fun e ws => insertWord e.1 ws) []

/-- `LITADDR` (R242): the address of each literal of a pool that begins at `w`. -/
def poolAddresses : List Word → Nat → List (Word × Nat)
  | [], _ => []
  | v :: vs, w => (v, w) :: poolAddresses vs (w + 1)

/-- Step 3's search (R243): the global extern table first, then the unit's own definitions. -/
def resolveName (externs defs : SymbolMap) (name : Text) : Option Nat :=
  match externs.lookup name with
  | some off => some off
  | none => defs.lookup name

/-- Write an offset into the word at a reference's recorded location (R243). -/
def patch (m : Memory) (off : Nat) (target : Option Nat) : Memory :=
  match target with
  | some t => m.write off (BitVec.ofNat 16 t)
  | none => m

/-- Patch the literal references (R243). -/
def patchLiterals (addrs : List (Word × Nat)) (refs : List (Word × Nat)) (m : Memory) : Memory :=
  refs.foldl (fun m e => patch m e.2 (addrs.lookup e.1)) m

/-- Patch the references of a unit (R243). -/
def patchUnit (externs : SymbolMap) (m : Memory) (t : UnitTables) : Memory :=
  t.refs.foldl (fun m e => patch m e.2 (resolveName externs t.defs e.1)) m

/-- The references of a unit that nothing resolves (R243, R244). -/
def unresolvedIn (externs : SymbolMap) (t : UnitTables) : SymbolMap :=
  t.refs.filter fun e => (resolveName externs t.defs e.1).isNone

namespace Builder

/-- The units that `End()` resolves (R235): the closed ones, and the open tables if there is no closed unit or they are
not empty. -/
def allUnits (b : Builder) : List UnitTables :=
  if b.units.isEmpty || b.tables.hasEntries then b.units ++ [b.tables] else b.units

/-- `End()` (R241 to R244). -/
def link (c : Config) (b : Builder) : LinkResult :=
  let values := literalValues b.litRefs
  if c.memSize < b.w + values.length then .refused .pastImage
  else
    let b' := values.foldl appendWord b
    let literals := patchLiterals (poolAddresses values b.w) b.litRefs b'.image
    let units := b.allUnits
    let unresolved := units.flatMap (unresolvedIn b.externs)
    .done unresolved.isEmpty unresolved
      { b' with
        image := units.foldl (patchUnit b.externs) literals
        units := units
        tables := UnitTables.empty }

/-- The offsets the units' own definitions give a name. -/
def localOffsets (b : Builder) (name : Text) : List Nat := b.allUnits.filterMap fun t => t.defs.lookup name

/-- "look up a symbol's resolved offset by name" (R240): `EXTERNS`, then the local definitions. DESIGN CHOICE
(notes/assumptions/28.md): before `End()`, where R240 is silent, the tables are those built so far. -/
def lookupSymbol (b : Builder) (name : Text) : SymbolLookup :=
  match b.externs.lookup name with
  | some off => .found off
  | none =>
    match b.localOffsets name with
    | [] => .absent
    | [off] => .found off
    | _ => .ambiguous

/-- The debug record whose range holds an offset (R245). -/
def recordAt (b : Builder) (off : Nat) : Option DebugRecord :=
  b.records.find? fun r => r.start ≤ off && off < r.finish

end Builder

end Sys2Proof.Machine
end

