-- ==== Sys2Proof/Machine/HostOps.lean ====
section
/-! DEFINITION. What the host can do (60_exceptions.md rule R276, 70_reset_and_hazards.md rules R290 to R293): build,
link, reset, run, step, edit breakpoints, read. All of it happens between runs (R12, R265): while a run is in progress the
host can only wait for its stop. -/
namespace Sys2Proof.Machine

/-! ### Reset and breakpoints -/

/-- The host's reset (R36, R290): every register, flag and counter; `MEM`, `BP` and the streams are not touched. -/
def State.hostReset (s : State) : State :=
  { s with
    gr := Vector.replicate 8 0
    pc := s.cfg.resetPc
    sp := s.cfg.memSize
    of := false
    sf := false
    zf := false
    halt := false
    stepFlag := false
    icount := 0
    lastChk := none }

/-- Put a number into a strictly rising list. -/
def insertBreakpoint (n : Nat) : List Nat → List Nat
  | [] => [n]
  | m :: ms => if n < m then n :: m :: ms else if n = m then m :: ms else m :: insertBreakpoint n ms

/-- Add a breakpoint (R29). -/
def State.setBreakpoint (s : State) (n : Nat) : State := { s with bp := insertBreakpoint n s.bp }

/-- Remove a breakpoint (R29). -/
def State.clearBreakpoint (s : State) (n : Nat) : State := { s with bp := s.bp.filter fun m => m != n }

/-- The five flags by name (R24 to R27). -/
inductive FlagName where
  | of | sf | zf | halt | step
deriving DecidableEq, Repr

/-- "read any flag" (R276). -/
def State.flag (s : State) : FlagName → Bool
  | .of => s.of
  | .sf => s.sf
  | .zf => s.zf
  | .halt => s.halt
  | .step => s.stepFlag

/-! ### The system: the block and the order of its use (R293) -/

/-- How far the host has come. -/
inductive Phase where
  /-- Lines are being assembled. -/
  | building
  /-- `End()` has returned success; a reset is required before the first run (R292). -/
  | linked
  /-- `End()` has returned failure or a line had an error: running the image has no meaning (U10). -/
  | failed
  /-- Reset has been performed, and no run is in progress. -/
  | ready
  /-- A run is in progress: the host has stopped waiting before the run has stopped (R12, R265, R276). -/
  | running
  /-- A run has faulted: a reset is the only continuation (R263, R272, U7). -/
  | faulted
deriving DecidableEq, Repr

/-- The block with its host-side data: the builder with the symbol table (R37, R240), the machine, the phase. -/
structure System where
  builder : Builder
  machine : State
  phase : Phase
deriving DecidableEq, Repr

/-- A block over a machine whose image is what the build begins with (R292). -/
def System.start (s : State) : System := ⟨Builder.start s.mem, s, .building⟩

/-- The host operations of R276. -/
inductive HostOp where
  /-- Assemble one line. -/
  | assemble (line : Text)
  /-- Assemble one stream. -/
  | assembleStream (lines : List Text)
  /-- Assemble one file set, each file a unit. -/
  | assembleFiles (files : List (List Text))
  | snapshot
  | link
  | reset
  /-- Run until stop; the bound is on the iterations the answer waits for (R265: a run need not end). While a run is in
  progress it waits on for that run. -/
  | run (bound : Nat)
  | stepInstruction
  | setBreakpoint (n : Nat)
  | clearBreakpoint (n : Nat)
  | listBreakpoints
  /-- Attach the input stream (R31, R293). -/
  | attachInput (lines : List Line)
  | readReg (r : Reg)
  | readPc
  | readSp
  | readFlag (f : FlagName)
  | readCounter
  | readCell (a : Nat)
  /-- Read the output written so far (R277). -/
  | readOutput
  | lookup (name : Text)
deriving DecidableEq, Repr

/-- What an operation answers. -/
inductive Reply where
  | done
  | line (c : LineCode)
  | linked (success : Bool) (unresolved : SymbolMap)
  | stopped (c : StopCause)
  /-- The bound was reached; the run is still in progress. -/
  | running
  | number (n : Nat)
  | numbers (ns : List Nat)
  | bytes (bs : List Byte)
  | flag (v : Bool)
  | symbol (l : SymbolLookup)
  /-- A memory read outside the image (R276). -/
  | outsideImage
deriving DecidableEq, Repr

/-- Why an operation is not accepted (notes/assumptions/22.md). -/
inductive HostRefusal where
  /-- R293: no build step happens after a link. -/
  | buildIsOver
  /-- U10, R293: there is no linked image to run. -/
  | noLinkedImage
  /-- R292, U7: a run needs a reset first. -/
  | needsReset
  /-- R12, R265, R276: no host operation acts during a run. -/
  | runInProgress
  | build (r : BuildRefusal)
  | machine (r : Refusal)
deriving DecidableEq, Repr

/-- The answer to an operation and the block after it. -/
abbrev HostAnswer := Except HostRefusal (Reply × System)

namespace System

/-- Assemble a line, a stream or a file set (R235): what the builder answers becomes the block's. The image it appends to
is the machine's own memory, which assembler and engine share (R33, R225, R233). -/
def build (y : System) (r : LineResult) : HostAnswer :=
  if y.phase = .building then
    match r with
    | .done c b => .ok (.line c, { y with builder := b, machine := { y.machine with mem := b.image } })
    | .refused r => .error (.build r)
  else .error .buildIsOver

/-- `End()`: the patched image is the machine's memory (R243, R244, R293). -/
def link (y : System) : HostAnswer :=
  if y.phase = .building then
    match y.builder.link y.machine.cfg with
    | .done ok unresolved b =>
      .ok (.linked ok unresolved,
        { builder := b, machine := { y.machine with mem := b.image },
          phase := if ok && !b.failed then .linked else .failed })
    | .refused r => .error (.build r)
  else .error .buildIsOver

/-- The phase after a reset: a machine with a linked image may run (R292, R293). A run in progress is not reset
(`perform`). -/
def Phase.afterReset : Phase → Phase
  | .linked | .ready | .faulted => .ready
  | .building => .building
  | .failed => .failed
  | .running => .running

/-- Reset (R290): possible at any time between runs. -/
def reset (y : System) : HostAnswer :=
  .ok (.done, { y with machine := y.machine.hostReset, phase := Phase.afterReset y.phase })

/-- Whether a stop cause is a fault (R260, R277). -/
def isFault : StopCause → Bool
  | .illegalAccess | .invalidOperation | .stackOverflow | .stackUnderflow => true
  | .ok | .halt | .singleStep | .breakpoint => false

/-- The block after a run (R263, R277), or with the run still in progress (R265). -/
def afterRun (y : System) : RunResult → HostAnswer
  | .stopped c s => .ok (.stopped c, { y with machine := s, phase := if isFault c then .faulted else .ready })
  | .running s => .ok (.running, { y with machine := s, phase := .running })
  | .refused r => .error (.machine r)

/-- A run, on a machine that has been reset and has not faulted since (U7, U13). -/
def launchRun (y : System) (r : RunResult) : HostAnswer :=
  match y.phase with
  | .ready => y.afterRun r
  | .running => .error .runInProgress
  | .linked | .faulted => .error .needsReset
  | .building | .failed => .error .noLinkedImage

/-- One host operation on a block whose machine is not running (R276). A read answers in every phase; while the image is
built it sees the words appended so far (R233). DESIGN CHOICE (notes/assumptions/28.md): R240 gives the symbol lookup after
`End()` and says nothing of an earlier one; the lookup is accepted in every phase and answers from the tables built so far.
-/
def betweenRuns (y : System) : HostOp → HostAnswer
  | .assemble line => y.build (y.builder.assembleLine y.machine.cfg line)
  | .assembleStream lines => y.build (y.builder.assembleLines y.machine.cfg lines)
  | .assembleFiles files => y.build (y.builder.assembleFiles y.machine.cfg files)
  | .snapshot =>
    if y.phase = .building then .ok (.done, { y with builder := y.builder.snapshot }) else .error .buildIsOver
  | .link => y.link
  | .reset => y.reset
  | .run n => y.launchRun (run n y.machine)
  | .stepInstruction => y.launchRun (runOne y.machine)
  | .setBreakpoint n => .ok (.done, { y with machine := y.machine.setBreakpoint n })
  | .clearBreakpoint n => .ok (.done, { y with machine := y.machine.clearBreakpoint n })
  | .listBreakpoints => .ok (.numbers y.machine.bp, y)
  | .attachInput lines => .ok (.done, { y with machine := y.machine.setInStream lines })
  | .readReg r => .ok (.number (y.machine.reg r).toNat, y)
  | .readPc => .ok (.number y.machine.pc, y)
  | .readSp => .ok (.number y.machine.sp, y)
  | .readFlag f => .ok (.flag (y.machine.flag f), y)
  | .readCounter => .ok (.number y.machine.icount, y)
  | .readCell a =>
    match y.machine.memRead a with
    | .ok v => .ok (.number v.toNat, y)
    | .error _ => .ok (.outsideImage, y)
  | .readOutput => .ok (.bytes y.machine.outStream, y)
  | .lookup name => .ok (.symbol (y.builder.lookupSymbol name), y)

/-- While a run is in progress the host waits on for its stop; nothing else acts, reset and single step included (R12,
R265: "no preemptive interrupt"; R276). -/
def duringRun (y : System) : HostOp → HostAnswer
  | .run n => y.afterRun (run n y.machine)
  | _ => .error .runInProgress

/-- One host operation (R276). -/
def perform (y : System) (op : HostOp) : HostAnswer :=
  if y.phase = .running then y.duringRun op else y.betweenRuns op

end System

end Sys2Proof.Machine
end

