-- ==== Sys2Proof/Safety.lean ====
section
/-! DEFINITION. What claims about the machine are stated in: the invariant of the state, the values an operand stands
for, the parts of the state an instruction leaves alone, and what ends a run well. -/
namespace Sys2Proof.Machine

/-! ### The invariant -/

/-- What every step keeps: the parameters are in their ranges (R4), SP is in the image or at its end (R23), PC is at
most 65536 (R22), memory is in its canonical form with every listed address inside the image (R33), the breakpoint set
is listed in rising order (R29), and SF and ZF are not both 1 (R24). -/
abbrev State.Inv (s : State) : Prop :=
  s.cfg.wf ∧ s.sp ≤ s.cfg.memSize ∧ s.pc ≤ 65536 ∧ s.mem.wf ∧ (∀ e ∈ s.mem, e.1 < s.cfg.memSize) ∧
  s.bp.Pairwise (· < ·) ∧ ¬(s.sf = true ∧ s.zf = true)

/-! ### Operands -/

/-- `a` is the effective address of `adr` indexed by `x` (R8). Under `EA_WRAP = fault` there is none when the sum is
65536 or more. -/
def EaIs (s : State) (adr : Word) (x : Reg) (a : Nat) : Prop :=
  match s.cfg.eaWrap with
  | .wrap => a = (adr.toNat + (s.reg x).toNat) % 65536
  | .fault => a = adr.toNat + (s.reg x).toNat ∧ adr.toNat + (s.reg x).toNat < 65536

/-- An address inside the image (R33). -/
def InImage (s : State) (a : Nat) : Prop := a < s.cfg.memSize

/-! ### Frames: what is left alone -/

/-- Every general register but those listed. -/
def RegsKept (s t : State) (but : List Reg) : Prop := ∀ r, r ∉ but → t.reg r = s.reg r

/-- The three condition flags (R24). -/
def CondFlagsKept (s t : State) : Prop := t.of = s.of ∧ t.sf = s.sf ∧ t.zf = s.zf

/-- Every word of memory. -/
def MemKept (s t : State) : Prop := ∀ a, t.word a = s.word a

/-- Exactly the word at `a` is written, and it then holds `v`. -/
def StoresAt (s t : State) (a : Nat) (v : Word) : Prop := t.word a = v ∧ ∀ b, b ≠ a → t.word b = s.word b

/-- PC and SP. -/
def PointersKept (s t : State) : Prop := t.pc = s.pc ∧ t.sp = s.sp

/-- The two streams. -/
def StreamsKept (s t : State) : Prop := t.inStream = s.inStream ∧ t.outStream = s.outStream

/-- What the run loop and the host own: STEP, `ICOUNT`, `BP`, `LASTCHK`, and the parameters. -/
def LoopStateKept (s t : State) : Prop :=
  t.stepFlag = s.stepFlag ∧ t.icount = s.icount ∧ t.bp = s.bp ∧ t.lastChk = s.lastChk ∧ t.cfg = s.cfg

/-- The loop's state and HALT. -/
def ControlKept (s t : State) : Prop := t.halt = s.halt ∧ LoopStateKept s t

/-- SF and ZF are those of a result (R9): the sign is bit 15 of the result as stored. -/
def SignZeroOf (t : State) (r : Word) : Prop := (t.sf = true ↔ 32768 ≤ r.toNat) ∧ (t.zf = true ↔ r.toNat = 0)

/-- The instruction's whole effect is a result in `GR[d]` with the flags `OF = o` and SF, ZF of the result. -/
def OnlyResult (s t : State) (d : Reg) (r : Word) (o : Bool) : Prop :=
  t.reg d = r ∧ t.of = o ∧ SignZeroOf t r ∧
  RegsKept s t [d] ∧ MemKept s t ∧ PointersKept s t ∧ StreamsKept s t ∧ ControlKept s t

/-- The instruction's whole effect is a value in `GR[d]`. -/
def OnlyRegister (s t : State) (d : Reg) (r : Word) : Prop :=
  t.reg d = r ∧
  RegsKept s t [d] ∧ CondFlagsKept s t ∧ MemKept s t ∧ PointersKept s t ∧ StreamsKept s t ∧ ControlKept s t

/-- The instruction's whole effect is the flags `OF = o` and SF, ZF of a result that is written nowhere. -/
def OnlyFlags (s t : State) (r : Word) (o : Bool) : Prop :=
  t.of = o ∧ SignZeroOf t r ∧
  RegsKept s t [] ∧ MemKept s t ∧ PointersKept s t ∧ StreamsKept s t ∧ ControlKept s t

/-! ### Runs -/

/-- The states that steps lead to. -/
inductive Reaches : State → State → Prop where
  | refl (s : State) : Reaches s s
  | step {s t u : State} (h : Reaches s t) (hs : Machine.step t = .next u) : Reaches s u

/-- A run that ended normally: its cause is HALT (R277). -/
def EndedNormally : RunResult → Prop
  | .stopped c _ => c = .halt
  | .running _ => False
  | .refused _ => False

/-- No step of the first `k` faults (R277: a fault means the run went wrong). -/
def SafeFor : Nat → State → Prop
  | 0, _ => True
  | k + 1, s =>
    match Machine.step s with
    | .next t => SafeFor k t
    | .fault _ => False
    | .refused _ => True

/-- The outcome with its next state changed: what comparing two runs takes. -/
def mapNext (f : State → State) : Result → Result
  | .next t => .next (f t)
  | .fault e => .fault e
  | .refused r => .refused r

/-! ### Builds -/

/-- The offsets of the reference words of a unit. -/
def UnitTables.refOffsets (t : UnitTables) : List Nat := t.refs.map Prod.snd

/-- The offsets of every reference word of a build, closed units first. -/
def Builder.refOffsets (b : Builder) : List Nat :=
  b.units.flatMap UnitTables.refOffsets ++ b.tables.refOffsets ++ b.litRefs.map Prod.snd

/-- The names that a unit defines, plainly or by a start label (R226 to R228). -/
def UnitTables.names (t : UnitTables) : List Text := t.defs.map Prod.fst ++ t.starts

/-- The units of a build, closed and open. -/
def Builder.everyUnit (b : Builder) : List UnitTables := b.units ++ [b.tables]

/-- What a build keeps: the image is in its canonical form, no word is referenced twice, every reference word lies below
the write offset, no unit defines a name twice, and the extern table holds exactly the start labels of the units, each
once (R225, R227, R228). -/
def Builder.Inv (b : Builder) : Prop :=
  b.image.wf ∧ b.refOffsets.Nodup ∧ (∀ off ∈ b.refOffsets, off < b.w) ∧
  (∀ t ∈ b.everyUnit, t.names.Nodup) ∧
  (b.externs.map Prod.fst).Nodup ∧ b.externs.map Prod.fst = b.everyUnit.flatMap UnitTables.starts

/-! ### Operands of a source line -/

/-- The address word that a token in `addr` position stands for: a number, a reference, or a literal reference (R99). -/
inductive AddressToken : Token → Item → Prop where
  | dec (n : Int) : AddressToken (.dec n) (.word (w16 n))
  | hex (n : Nat) : AddressToken (.hex n) (.word (w16 n))
  | label (name : Text) : AddressToken (.label name) (.ref name)
  | const (n : Int) (text : Text) : AddressToken (.const n text) (.literal (w16 n))

/-- The fields that the operands of a machine instruction fill (R102): whether they select the register form (R95), the
fields `d` and `s`, and the address word if there is one. -/
inductive OperandFields : List Token → Bool → BitVec 4 → BitVec 4 → Option Item → Prop where
  | none : OperandFields [] false 0 0 none
  | reg (r : Reg) : OperandFields [.reg r] false (regId r) 0 none
  | regReg (d r : Reg) : OperandFields [.reg d, .comma, .reg r] true (regId d) (regId r) none
  | addr {a : Token} {it : Item} (h : AddressToken a it) : OperandFields [a] false 0 0 (some it)
  | addrIndex {a : Token} {it : Item} (x : Reg) (h : AddressToken a it) :
      OperandFields [a, .comma, .reg x] false 0 (regId x) (some it)
  | regAddr {a : Token} {it : Item} (d : Reg) (h : AddressToken a it) :
      OperandFields [.reg d, .comma, a] false (regId d) 0 (some it)
  | regAddrIndex {a : Token} {it : Item} (d x : Reg) (h : AddressToken a it) :
      OperandFields [.reg d, .comma, a, .comma, .reg x] false (regId d) (regId x) (some it)

/-- The word that an item puts into the image before the link: a reference's is the placeholder 0x0000 (R233). -/
def Item.initial : Item → Word
  | .word v => v
  | .ref _ => 0
  | .literal _ => 0

/-- The reference that an item records at an offset (R99, R233). -/
def Item.refAt (off : Nat) : Item → SymbolMap
  | .word _ => []
  | .ref name => [(name, off)]
  | .literal _ => []

/-- The literal reference that an item records at an offset (R99, R233). -/
def Item.literalAt (off : Nat) : Item → List (Word × Nat)
  | .word _ => []
  | .ref _ => []
  | .literal v => [(v, off)]

end Sys2Proof.Machine
end

