-- ==== Sys2Proof/Certificates/Slice0/Obligations.lean ====
section
/-! DEFINITION. The statements for the provers. `exec i s` runs an instruction on the state after the common fetch of
R74, with PC past the instruction; `EaIs`, `InImage` and the frame predicates stand in Safety.lean. -/
open Sys2Proof Sys2Proof.Machine

/-! ### Reset, invariant, step -/

/-- R36, R290 (the values are the spec's own decisions D8, D22, D33; notes/assumptions/6.md): the host's reset writes
every register, flag and counter, and leaves memory, breakpoints, streams and parameters. -/
def Obligations.ResetWritesRegistersFlagsAndCounter : Prop :=
  ∀ s : State,
    (∀ r, s.hostReset.reg r = 0) ∧ s.hostReset.pc = s.cfg.resetPc ∧ s.hostReset.sp = s.cfg.memSize ∧
    s.hostReset.of = false ∧ s.hostReset.sf = false ∧ s.hostReset.zf = false ∧
    s.hostReset.halt = false ∧ s.hostReset.stepFlag = false ∧ s.hostReset.icount = 0 ∧ s.hostReset.lastChk = none ∧
    MemKept s s.hostReset ∧ s.hostReset.bp = s.bp ∧ StreamsKept s s.hostReset ∧ s.hostReset.cfg = s.cfg ∧
    (s.Inv → s.hostReset.Inv) ∧ State.reset.hostReset = State.reset

/-- The machine right after reset meets the invariant. -/
def Obligations.ResetMeetsInvariant : Prop := State.reset.Inv

/-- Every step keeps the invariant: SP within the image, PC at most 65536, memory in its canonical form and inside the
image, the breakpoints in order, SF and ZF never both 1, the parameters in their ranges (R22, R23, R24, R29, R33). -/
def Obligations.StepKeepsInvariant : Prop :=
  ∀ s t : State, s.Inv → Machine.step s = .next t → t.Inv

/-- When the words at PC are an instruction, a step runs its meaning with PC past its words (R74); a fault of the meaning
is the step's. Around a meaning that completes, as the run loop of R267 does: the instruction is counted (the spec's
decision D22), and STEP is kept if the machine has halted, else cleared (D21; both notes/assumptions/24.md). -/
def Obligations.StepRunsDecodedInstruction : Prop :=
  ∀ (s : State) (i : Instr), s.halt = false → s.atBreakpoint = false → s.pc + i.words ≤ s.cfg.memSize →
    decode s.cfg [s.word s.pc, s.word (s.pc + 1)] = .ok i →
    (∀ t, exec i (s.noteCheck.setPc (s.pc + i.words)) = .next t →
      Machine.step s =
        .next { t with icount := t.icount + 1, stepFlag := if t.halt then t.stepFlag else false }) ∧
    (∀ f, exec i (s.noteCheck.setPc (s.pc + i.words)) = .fault f → Machine.step s = .fault f)

/-- R264 (the spec's own order, D17), R52, R77, R78: which fault a step reports when there is no instruction at PC: the
first fetch, then the opcode, then the second fetch, then the register ids. -/
def Obligations.FetchFaultsInOrder : Prop :=
  ∀ s : State, s.halt = false → s.atBreakpoint = false →
    (s.cfg.memSize ≤ s.pc → Machine.step s = .fault .illegalAccess) ∧
    (s.pc < s.cfg.memSize →
      ((∀ o, s.cfg.hasOp o = true → s.cfg.opmap.code o ≠ opField (s.word s.pc)) →
        Machine.step s = .fault .invalidOperation) ∧
      (∀ o, s.cfg.wf → s.cfg.hasOp o = true → s.cfg.opmap.code o = opField (s.word s.pc) →
        (o.format.hasAddress = true → s.pc + 1 = s.cfg.memSize → Machine.step s = .fault .illegalAccess) ∧
        (s.pc + o.words ≤ s.cfg.memSize →
          (o.format ∈ [Format.r, .rr, .ra] ∧ 8 ≤ (dField (s.word s.pc)).toNat ∨
            o.format ∈ [Format.rr, .ra, .a] ∧ 8 ≤ (sField (s.word s.pc)).toNat) →
          Machine.step s = .fault .invalidOperation)))

/-- R28, R267: what a step does around an instruction that completes: it counts it (the spec's decision D22), it records
the breakpoint check, it clears STEP unless the machine has halted (D21; both notes/assumptions/24.md), and it touches
neither the breakpoints nor the parameters. That a pause at a breakpoint is a next state of a step, with the check
recorded and nothing else changed, is the model's choice (notes/assumptions/8.md); that a step with a next state began
with HALT 0 is too: a machine with HALT 1 does not run (R269 and U7 advise it, notes/assumptions/9.md). -/
def Obligations.StepCountsCompletedInstructions : Prop :=
  ∀ s t : State, Machine.step s = .next t →
    s.halt = false ∧ t.bp = s.bp ∧ t.cfg = s.cfg ∧ t.lastChk = some s.pc ∧
    (s.atBreakpoint = true → t = { s with lastChk := some s.pc }) ∧
    (s.atBreakpoint = false →
      t.icount = s.icount + 1 ∧ t.stepFlag = (t.halt && s.stepFlag))

/-- R268: a breakpoint at PC that has not been checked stops an iteration of the run loop with cause BREAKPOINT before the
fetch, nothing executed, and the next iteration does not check it again. That such a pause is a next state of a step is
the model's choice (notes/assumptions/8.md). -/
def Obligations.BreakpointPausesOnce : Prop :=
  ∀ s : State, s.halt = false → s.pc ∈ s.bp → s.lastChk ≠ some s.pc →
    Machine.step s = .next { s with lastChk := some s.pc } ∧
    iterate s = some (.breakpoint, { s with lastChk := some s.pc }) ∧
    ({ s with lastChk := some s.pc } : State).atBreakpoint = false

/-- R269, U7 of 93_implementation_defined.md (notes/assumptions/9.md): a machine whose HALT flag is 1 does not run. -/
def Obligations.HaltedMachineDoesNotRun : Prop :=
  ∀ (s : State) (n : Nat), s.halt = true →
    Machine.step s = .refused .haltedWithoutReset ∧ run n s = .refused .haltedWithoutReset

/-- R270 (D21): the host's single step ends after at most one instruction, and its result is SINGLE_STEP with one
instruction run and STEP cleared, BREAKPOINT with none run, HALT with STEP still 1, or a fault. -/
def Obligations.SingleStepEndsAfterOneInstruction : Prop :=
  ∀ s : State, s.halt = false → ∃ c t, runOne s = .stopped c t ∧
    ((c = .singleStep ∧ t.stepFlag = false ∧ t.halt = false ∧ t.icount = s.icount + 1) ∨
     (c = .breakpoint ∧ t = { s with stepFlag := true, lastChk := some s.pc }) ∨
     (c = .halt ∧ t.halt = true ∧ t.stepFlag = true ∧ t.icount = s.icount + 1) ∨
     ∃ f : Fault, c = f.cause ∧ Machine.step s = .fault f)

/-- R266, R277 (D21): a run never returns OK, and one that returns HALT has the HALT flag set. -/
def Obligations.RunNeverReturnsOk : Prop :=
  ∀ (n : Nat) (s t : State) (c : StopCause), run n s = .stopped c t →
    c ≠ .ok ∧ (EndedNormally (run n s) ↔ t.halt = true)

/-- R263 (D23; D32 for a fetch that faults; notes/assumptions/10.md): what a fault leaves: PC past the words fetched, that
is where it was if the first fetch faults and past the instruction if its meaning faults, `ICOUNT` not incremented, the
breakpoint check recorded, and, unless the instruction is an SVC, nothing else changed. -/
def Obligations.FaultLeavesStateButPc : Prop :=
  ∀ (s t : State) (c : StopCause) (f : Fault), s.atBreakpoint = false → iterate s = some (c, t) → c = f.cause →
    t.pc = s.pc + wordsFetched s.cfg (fetchable s) ∧
    (s.cfg.memSize ≤ s.pc → t.pc = s.pc) ∧ (∀ i, fetchDecode s = .ok i → t.pc = s.pc + i.words) ∧
    t.icount = s.icount ∧ t.lastChk = some s.pc ∧ RegsKept s t [] ∧ CondFlagsKept s t ∧ t.sp = s.sp ∧
    t.halt = s.halt ∧ t.bp = s.bp ∧ t.cfg = s.cfg ∧ t.stepFlag = s.stepFlag ∧
    ((∀ x adr, fetchDecode s ≠ .ok (.svc x adr)) → MemKept s t ∧ StreamsKept s t)

/-! ### Encoding -/

/-- R71 (the bit positions are the spec's decision D2): the fields of a word and `encode(op, d, s)` are inverse to each
other, and are the shifts and slices that R71 writes. -/
def Obligations.FieldsAndPackingAreInverse : Prop :=
  (∀ w : Word, packWord (opField w) (dField w) (sField w) = w) ∧
  (∀ (op : Byte) (d s : BitVec 4),
    opField (packWord op d s) = op ∧ dField (packWord op d s) = d ∧ sField (packWord op d s) = s ∧
    (packWord op d s).toNat = op.toNat * 256 + d.toNat * 16 + s.toNat) ∧
  (∀ w : Word, (opField w).toNat = w.toNat / 256 ∧ (dField w).toNat = w.toNat / 16 % 16 ∧
    (sField w).toNat = w.toNat % 16)

/-- Every instruction of the machine, under every opcode map, is read back from its words, whatever follows them (R71 to
R76; the layout is the spec's decisions D1 to D4). -/
def Obligations.DecodeReadsBackEncoding : Prop :=
  ∀ (c : Config) (i : Instr) (rest : List Word), c.opmap.wf → i.wf c = true →
    decode c (encode c i ++ rest) = .ok i ∧ (encode c i).length = i.words

/-- What the decoder reads is an instruction of the machine, and its encoding agrees with the words in the opcode, in
every register field that its format uses and in the address word (R72, R74). -/
def Obligations.EncodingAgreesWithDecodedWords : Prop :=
  ∀ (c : Config) (w : Word) (rest : List Word) (i : Instr), decode c (w :: rest) = .ok i →
    i.wf c = true ∧ i.words ≤ (w :: rest).length ∧
    ∃ (v : Word) (tail : List Word), encode c i = v :: tail ∧ opField v = opField w ∧
      (i.op.format ∈ [Format.r, .rr, .ra] → dField v = dField w) ∧
      (i.op.format ∈ [Format.rr, .ra, .a] → sField v = sField w) ∧
      (i.op.format.hasAddress = true → tail = rest.take 1)

/-- R79 (D5): a field that the operation's format does not use is ignored. -/
def Obligations.UnusedFieldsAreIgnored : Prop :=
  ∀ (c : Config) (o : Op) (d d' s s' : BitVec 4) (rest : List Word),
    c.opmap.wf → c.hasOp o = true →
    (o.format ∈ [Format.r, .rr, .ra] → d = d') → (o.format ∈ [Format.rr, .ra, .a] → s = s') →
    decode c (packWord (c.opmap.code o) d s :: rest) = decode c (packWord (c.opmap.code o) d' s' :: rest)

/-- R77: an opcode byte that the map assigns to no operation is rejected; under the default map these are 218 of the 256
values, 217 with ST. -/
def Obligations.UnassignedOpcodesAreRejected : Prop :=
  (∀ (c : Config) (w : Word) (rest : List Word),
    (∀ o, c.hasOp o = true → c.opmap.code o ≠ opField w) → decode c (w :: rest) = .unassigned) ∧
  ((List.range 256).filter fun b => (opOf Config.standard (BitVec.ofNat 8 b)).isNone).length = 218 ∧
  ((List.range 256).filter fun b => (opOf Config.table (BitVec.ofNat 8 b)).isNone).length = 217

/-- The worked encodings of 30_encoding.md section 7, all seventeen rows, decode to the instructions they stand for. The
words are those of the default opcode map and layout, the spec's decisions D1 to D4 (notes/assumptions/3.md). -/
def Obligations.WorkedEncodingsDecode : Prop :=
  decode Config.standard [0x0000] = .ok .nop ∧
  decode Config.standard [0xFF00] = .ok .hlt ∧
  decode Config.standard [0x8100] = .ok .ret ∧
  decode Config.standard [0x7120] = .ok (.pop 2) ∧
  decode Config.standard [0x1412] = .ok (.ldReg 1 2) ∧
  decode Config.standard [0x1010, 0x0020] = .ok (.ldMem 1 0 0x0020) ∧
  decode Config.standard [0x1013, 0x0020] = .ok (.ldMem 1 3 0x0020) ∧
  decode Config.standard [0x1270, 0xFFFF] = .ok (.lad 7 0 0xFFFF) ∧
  decode Config.standard [0x2407] = .ok (.addaReg 0 7) ∧
  decode Config.standard [0x4145, 0x0064] = .ok (.cplMem 4 5 0x0064) ∧
  decode Config.standard [0x6400, 0x0010] = .ok (.jump 0 0x0010) ∧
  decode Config.standard [0x6306, 0x0008] = .ok (.jze 6 0x0008) ∧
  decode Config.standard [0x7001, 0x0000] = .ok (.push 1 0x0000) ∧
  decode Config.standard [0x8000, 0x0100] = .ok (.call 0 0x0100) ∧
  decode Config.standard [0x5000, 0x0003] = .ok (.sla 0 0 0x0003) ∧
  decode Config.standard [0x5020, 0x0003] = .ok (.sla 2 0 0x0003) ∧
  decode Config.standard [0xF000, 0x0002] = .ok (.svc 0 0x0002)

/-! ### Memory and operands -/

/-- R53: a write inside the image puts the word there and changes no other word and no other state; outside the image it
is an illegal access that writes nothing. A word that an instruction has changed is ST's operand, the stack slot of PUSH
or CALL, or a word of the input service's buffer or its count cell; that SVC with effective address 1 is the input service
is the spec's decision D18, that its buffer is one word a character D19 (notes/assumptions/24.md, 17.md). -/
def Obligations.OnlyTheNamedInstructionsWriteMemory : Prop :=
  (∀ (s : State) (a : Nat) (v : Word), s.mem.wf →
    (InImage s a → ∃ t, s.memWrite a v = .ok t ∧ StoresAt s t a v ∧ t = { s with mem := t.mem }) ∧
    (¬ InImage s a → s.memWrite a v = .error .illegalAccess)) ∧
  (∀ (i : Instr) (s t : State) (a : Nat), exec i s = .next t → t.word a ≠ s.word a →
    (∃ d x adr, i = .st d x adr ∧ EaIs s adr x a) ∨
    (∃ x adr, (i = .push x adr ∨ i = .call x adr) ∧ a + 1 = s.sp) ∨
    (∃ x adr, i = .svc x adr ∧ EaIs s adr x 1 ∧
      (a = (s.reg 2).toNat ∨
        ∃ line rest, s.inStream = line :: rest ∧ (s.reg 1).toNat ≤ a ∧ a < (s.reg 1).toNat + line.length)))

/-- R54: the check of a target accepts the addresses inside the image and no other, and reads no memory; the jumps that
are taken, and CALL with room on the stack, check their effective address before they transfer control, with an illegal
access otherwise, and none of the seven transfers control to an address outside the image. A memory read is checked in the
same way. -/
def Obligations.ReadsAreCheckedAgainstTheImage : Prop :=
  (∀ (s : State) (a : Nat),
    (InImage s a → s.memRead a = .ok (s.word a)) ∧ (¬ InImage s a → s.memRead a = .error .illegalAccess) ∧
    (InImage s a → s.checkTarget a = .ok ()) ∧ (¬ InImage s a → s.checkTarget a = .error .illegalAccess) ∧
    ∀ m : Memory, ({ s with mem := m } : State).checkTarget a = s.checkTarget a) ∧
  (∀ (s : State) (x : Reg) (adr : Word) (a : Nat), effectiveAddress s adr x = .ok a →
    (∀ p ∈ [(Instr.jump x adr, true), (.jpl x adr, !s.sf && !s.zf), (.jmi x adr, s.sf), (.jnz x adr, !s.zf),
            (.jze x adr, s.zf), (.jov x adr, s.of), (.call x adr, decide (0 < s.sp ∧ s.sp ≤ s.cfg.memSize))],
      p.2 = true →
        (InImage s a → ∃ t, exec p.1 s = .next t ∧ t.pc = a) ∧
        (¬ InImage s a → exec p.1 s = .fault .illegalAccess)) ∧
    ∀ i ∈ [Instr.jump x adr, .jpl x adr, .jmi x adr, .jnz x adr, .jze x adr, .jov x adr, .call x adr],
      ∀ t, exec i s = .next t → t.pc ≠ s.pc → t.pc = a ∧ InImage s a)

/-- Memory as the model holds it: a write keeps the canonical form, reads back, and leaves the rest; and two memories in
canonical form that read alike are equal (notes/assumptions/4.md, 5.md). -/
def Obligations.MemoryIsItsReads : Prop :=
  (∀ (m : Memory) (a : Nat) (v : Word), m.wf → (m.write a v).wf ∧ (m.write a v).read a = v ∧
    ∀ b, b ≠ a → (m.write a v).read b = m.read b) ∧
  (∀ m m' : Memory, m.wf → m'.wf → (∀ a, m.read a = m'.read a) → m = m')

/-- R8 (the reduction modulo 65536 is the spec's decision D7), R21: the effective address is the address word plus the
index register, register 0 like any other; `wrap` reduces it, `fault` makes a sum of 65536 or more an illegal access. -/
def Obligations.EffectiveAddressAddsTheIndex : Prop :=
  ∀ (s : State) (adr : Word) (x : Reg) (a : Nat),
    (effectiveAddress s adr x = .ok a ↔ EaIs s adr x a) ∧
    (s.cfg.eaWrap = .wrap →
      effectiveAddress s adr x = .ok ((adr.toNat + (s.reg x).toNat) % 65536)) ∧
    (s.cfg.eaWrap = .fault → 65536 ≤ adr.toNat + (s.reg x).toNat →
      effectiveAddress s adr x = .error .illegalAccess) ∧
    (EaIs s adr x a → a < 65536)

/-! ### Load, move, store -/

/-- LD (R120, R121): the memory word or the register is loaded, OF is cleared, SF and ZF are of the word; outside the
image the memory form is an illegal access. -/
def Obligations.LoadsWriteRegisterAndFlags : Prop :=
  ∀ (s : State) (d x : Reg) (adr : Word) (a : Nat), EaIs s adr x a →
    (InImage s a → ∃ t, exec (.ldMem d x adr) s = .next t ∧ OnlyResult s t d (s.word a) false) ∧
    (¬ InImage s a → exec (.ldMem d x adr) s = .fault .illegalAccess) ∧
    (∃ t, exec (.ldReg d x) s = .next t ∧ OnlyResult s t d (s.reg x) false)

/-- LAD (R122): the effective address itself goes to the register, unchecked; flags only under `LAD_SETS_FLAGS` (D10).
-/
def Obligations.LoadAddressWritesTheEffectiveAddress : Prop :=
  ∀ (s : State) (d x : Reg) (adr : Word) (a : Nat), EaIs s adr x a →
    ∃ t, exec (.lad d x adr) s = .next t ∧
      (s.cfg.ladSetsFlags = false → OnlyRegister s t d (BitVec.ofNat 16 a)) ∧
      (s.cfg.ladSetsFlags = true → OnlyResult s t d (BitVec.ofNat 16 a) false)

/-- ST (R123, which the spec marks as from general knowledge; only a machine with `HAS_ST` has it, the spec's decision
D27): the register goes to the word at the effective address and nothing else changes; outside the image it is an illegal
access. The statement has no premise on `HAS_ST`: ST's meaning stores whatever the parameter says, and the decoder answers
no ST without it (the model's choice, notes/assumptions/13.md). -/
def Obligations.StoreWritesOneWord : Prop :=
  ∀ (s : State) (d x : Reg) (adr : Word) (a : Nat), s.mem.wf → EaIs s adr x a →
    (InImage s a → ∃ t, exec (.st d x adr) s = .next t ∧ StoresAt s t a (s.reg d) ∧
      RegsKept s t [] ∧ CondFlagsKept s t ∧ PointersKept s t ∧ StreamsKept s t ∧ ControlKept s t) ∧
    (¬ InImage s a → exec (.st d x adr) s = .fault .illegalAccess)

/-! ### Arithmetic -/

/-- R138: the four functions give the low 16 bits of the true result; signed overflow is the true result's falling
outside the signed range, `AddL`'s bit the carry, `SubL`'s the borrow (D15). -/
def Obligations.ArithmeticWrapsAndFlagsOverflow : Prop :=
  ∀ a b : Word,
    (addA a b).1 = (addL a b).1 ∧ (subA a b).1 = (subL a b).1 ∧
    (addL a b).1.toNat = (a.toNat + b.toNat) % 65536 ∧
    (subL a b).1.toNat = (a.toNat + 65536 - b.toNat) % 65536 ∧
    ((addA a b).2 = false ↔ (addA a b).1.toInt = a.toInt + b.toInt) ∧
    ((subA a b).2 = false ↔ (subA a b).1.toInt = a.toInt - b.toInt) ∧
    ((addL a b).2 = true ↔ 65536 ≤ a.toNat + b.toNat) ∧
    ((subL a b).2 = true ↔ a.toNat < b.toNat)

/-- The memory forms of ADDA, ADDL, SUBA, SUBL (R130, R132, R134, R136): the register and the word at the effective
address give the wrapped result and the overflow bit, which for SUBL is the borrow (the spec's decision D15,
notes/assumptions/24.md); outside the image it is an illegal access. -/
def Obligations.ArithmeticMemoryForms : Prop :=
  ∀ (s : State) (d x : Reg) (adr : Word) (a : Nat), EaIs s adr x a →
    (InImage s a →
      (∃ t, exec (.addaMem d x adr) s = .next t ∧ OnlyResult s t d (s.reg d + s.word a)
        (decide ((s.reg d).toInt + (s.word a).toInt < -32768 ∨ 32767 < (s.reg d).toInt + (s.word a).toInt))) ∧
      (∃ t, exec (.addlMem d x adr) s = .next t ∧ OnlyResult s t d (s.reg d + s.word a)
        (decide (65535 < (s.reg d).toNat + (s.word a).toNat))) ∧
      (∃ t, exec (.subaMem d x adr) s = .next t ∧ OnlyResult s t d (s.reg d - s.word a)
        (decide ((s.reg d).toInt - (s.word a).toInt < -32768 ∨ 32767 < (s.reg d).toInt - (s.word a).toInt))) ∧
      (∃ t, exec (.sublMem d x adr) s = .next t ∧ OnlyResult s t d (s.reg d - s.word a)
        (decide ((s.reg d).toNat < (s.word a).toNat)))) ∧
    (¬ InImage s a → ∀ i ∈ [Instr.addaMem d x adr, .addlMem d x adr, .subaMem d x adr, .sublMem d x adr],
      exec i s = .fault .illegalAccess)

/-- The register forms of ADDA, ADDL, SUBA, SUBL (R131, R133, R135, R137): the two registers give the wrapped result and
the overflow bit, which for SUBL is the borrow (the spec's decision D15, notes/assumptions/24.md). -/
def Obligations.ArithmeticRegisterForms : Prop :=
  ∀ (s : State) (d r : Reg),
    (∃ t, exec (.addaReg d r) s = .next t ∧ OnlyResult s t d (s.reg d + s.reg r)
      (decide ((s.reg d).toInt + (s.reg r).toInt < -32768 ∨ 32767 < (s.reg d).toInt + (s.reg r).toInt))) ∧
    (∃ t, exec (.addlReg d r) s = .next t ∧ OnlyResult s t d (s.reg d + s.reg r)
      (decide (65535 < (s.reg d).toNat + (s.reg r).toNat))) ∧
    (∃ t, exec (.subaReg d r) s = .next t ∧ OnlyResult s t d (s.reg d - s.reg r)
      (decide ((s.reg d).toInt - (s.reg r).toInt < -32768 ∨ 32767 < (s.reg d).toInt - (s.reg r).toInt))) ∧
    (∃ t, exec (.sublReg d r) s = .next t ∧ OnlyResult s t d (s.reg d - s.reg r)
      (decide ((s.reg d).toNat < (s.reg r).toNat)))

/-! ### Boolean -/

/-- R151 (D34): AND, OR and XOR in both forms work bit by bit on the register and the second operand, write the
register, clear OF and set SF and ZF from the result. -/
def Obligations.BooleanInstructionsWorkBitwise : Prop :=
  (∀ (s : State) (d x : Reg) (adr : Word) (a : Nat), EaIs s adr x a → InImage s a →
    (∃ t r, exec (.andMem d x adr) s = .next t ∧ OnlyResult s t d r false ∧
      ∀ i, r.getLsbD i = ((s.reg d).getLsbD i && (s.word a).getLsbD i)) ∧
    (∃ t r, exec (.orMem d x adr) s = .next t ∧ OnlyResult s t d r false ∧
      ∀ i, r.getLsbD i = ((s.reg d).getLsbD i || (s.word a).getLsbD i)) ∧
    (∃ t r, exec (.xorMem d x adr) s = .next t ∧ OnlyResult s t d r false ∧
      ∀ i, r.getLsbD i = ((s.reg d).getLsbD i ^^ (s.word a).getLsbD i))) ∧
  (∀ (s : State) (d q : Reg),
    (∃ t r, exec (.andReg d q) s = .next t ∧ OnlyResult s t d r false ∧
      ∀ i, r.getLsbD i = ((s.reg d).getLsbD i && (s.reg q).getLsbD i)) ∧
    (∃ t r, exec (.orReg d q) s = .next t ∧ OnlyResult s t d r false ∧
      ∀ i, r.getLsbD i = ((s.reg d).getLsbD i || (s.reg q).getLsbD i)) ∧
    (∃ t r, exec (.xorReg d q) s = .next t ∧ OnlyResult s t d r false ∧
      ∀ i, r.getLsbD i = ((s.reg d).getLsbD i ^^ (s.reg q).getLsbD i)))

/-- The operand in memory of every form that has one is checked: outside the image it is an illegal access (R52, R53, R120,
R123, R130, R145, R155). And when there is no effective address at all, a sum of 65536 or more under `EA_WRAP = fault` (R8,
R261; the parameter is the spec's decision D7), so are LAD, the shifts, PUSH, CALL and SVC, which use the address as a
value, a count, a pushed word, a target or a call number (for the jumps, the statement JumpsTransferControl says it). That
PUSH and CALL report the missing address also when SP is 0 is the order of the checks, D17 (notes/assumptions/23.md). -/
def Obligations.MemoryFormsFaultOutsideTheImage : Prop :=
  ∀ (s : State) (d x : Reg) (adr : Word),
    ((∀ a, EaIs s adr x a → ¬ InImage s a) →
      ∀ i ∈ [Instr.ldMem d x adr, .st d x adr, .addaMem d x adr, .subaMem d x adr, .addlMem d x adr, .sublMem d x adr,
             .andMem d x adr, .orMem d x adr, .xorMem d x adr, .cpaMem d x adr, .cplMem d x adr],
        exec i s = .fault .illegalAccess) ∧
    ((∀ a, ¬ EaIs s adr x a) ↔ s.cfg.eaWrap = .fault ∧ 65536 ≤ adr.toNat + (s.reg x).toNat) ∧
    ((∀ a, ¬ EaIs s adr x a) →
      ∀ i ∈ [Instr.lad d x adr, .sla d x adr, .sra d x adr, .sll d x adr, .srl d x adr, .push x adr, .call x adr,
             .svc x adr],
        exec i s = .fault .illegalAccess)

/-! ### Compare -/

/-- CPA and CPL in both forms (R155 to R158): only the flags are written, from the wrapped difference; OF is the signed
overflow for CPA and the borrow for CPL. That CPA compares signed and CPL unsigned and that both compute OF is the spec's
decision D35, that the borrow is CPL's OF is D15 (both notes/assumptions/24.md). -/
def Obligations.ComparesWriteOnlyFlags : Prop :=
  (∀ (s : State) (d x : Reg) (adr : Word) (a : Nat), EaIs s adr x a → InImage s a →
    (∃ t, exec (.cpaMem d x adr) s = .next t ∧ OnlyFlags s t (s.reg d - s.word a)
      (decide ((s.reg d).toInt - (s.word a).toInt < -32768 ∨ 32767 < (s.reg d).toInt - (s.word a).toInt))) ∧
    (∃ t, exec (.cplMem d x adr) s = .next t ∧ OnlyFlags s t (s.reg d - s.word a)
      (decide ((s.reg d).toNat < (s.word a).toNat)))) ∧
  (∀ (s : State) (d r : Reg),
    (∃ t, exec (.cpaReg d r) s = .next t ∧ OnlyFlags s t (s.reg d - s.reg r)
      (decide ((s.reg d).toInt - (s.reg r).toInt < -32768 ∨ 32767 < (s.reg d).toInt - (s.reg r).toInt))) ∧
    (∃ t, exec (.cplReg d r) s = .next t ∧ OnlyFlags s t (s.reg d - s.reg r)
      (decide ((s.reg d).toNat < (s.reg r).toNat))))

/-- R159 (D35): a compare sets the three flags exactly as the subtraction on the same operands does, and ZF says that
the operands are equal. -/
def Obligations.CompareFlagsAreSubtractFlags : Prop :=
  ∀ (s t u : State) (i j : Instr) (b : Word) (d : Reg),
    ((∃ x adr a, i = .cpaMem d x adr ∧ j = .subaMem d x adr ∧ EaIs s adr x a ∧ b = s.word a) ∨
     (∃ x adr a, i = .cplMem d x adr ∧ j = .sublMem d x adr ∧ EaIs s adr x a ∧ b = s.word a) ∨
     (∃ r, i = .cpaReg d r ∧ j = .subaReg d r ∧ b = s.reg r) ∨
     (∃ r, i = .cplReg d r ∧ j = .sublReg d r ∧ b = s.reg r)) →
    exec i s = .next t → exec j s = .next u →
    t.of = u.of ∧ t.sf = u.sf ∧ t.zf = u.zf ∧ t.gr = s.gr ∧ (t.zf = true ↔ s.reg d = b) ∧ u.reg d = s.reg d - b

/-! ### Shifts -/

/-- SLA and SRA (R165, R166, R169; D13, D14, notes/assumptions/15.md for counts above 16): the bits of the result and
the overflow bit, for every count. -/
def Obligations.ArithmeticShiftsMoveBits : Prop :=
  ∀ (s : State) (d x : Reg) (adr : Word) (n : Nat), EaIs s adr x n →
    (∃ t r o, exec (.sla d x adr) s = .next t ∧ OnlyResult s t d r o ∧
      (∀ i < 15, r.getLsbD i = (decide (n ≤ i) && (s.reg d).getLsbD (i - n))) ∧
      r.getLsbD 15 = (s.reg d).getLsbD 15 ∧
      o = ((decide (n ≤ 15) && (s.reg d).getLsbD (15 - n)) ^^ (s.reg d).getLsbD 15)) ∧
    (∃ t r o, exec (.sra d x adr) s = .next t ∧ OnlyResult s t d r o ∧
      (∀ i < 16, r.getLsbD i = (s.reg d).getLsbD (min (i + n) 15)) ∧
      o = (decide (n ≠ 0) && (s.reg d).getLsbD (min (n - 1) 15)))

/-- SLL and SRL (R167, R168, R169; D13, notes/assumptions/15.md): the bits of the result and the bit shifted out last,
for every count. -/
def Obligations.LogicalShiftsMoveBits : Prop :=
  ∀ (s : State) (d x : Reg) (adr : Word) (n : Nat), EaIs s adr x n →
    (∃ t r o, exec (.sll d x adr) s = .next t ∧ OnlyResult s t d r o ∧
      (∀ i < 16, r.getLsbD i = (decide (n ≤ i) && (s.reg d).getLsbD (i - n))) ∧
      o = (decide (1 ≤ n ∧ n ≤ 16) && (s.reg d).getLsbD (16 - n))) ∧
    (∃ t r o, exec (.srl d x adr) s = .next t ∧ OnlyResult s t d r o ∧
      (∀ i < 16, r.getLsbD i = (decide (i + n < 16) && (s.reg d).getLsbD (i + n))) ∧
      o = (decide (1 ≤ n ∧ n ≤ 16) && (s.reg d).getLsbD (n - 1)))

/-! ### Jumps -/

/-- The six jumps (R180 to R185, R186; D16 for the untaken ones): taken, PC becomes the effective address if it is in
the image and nothing else changes, else it is an illegal access; not taken, nothing changes and the target is not
examined. -/
def Obligations.JumpsTransferControl : Prop :=
  ∀ (s : State) (x : Reg) (adr : Word),
    ∀ p ∈ [(Instr.jump x adr, true), (.jpl x adr, !s.sf && !s.zf), (.jmi x adr, s.sf), (.jnz x adr, !s.zf),
           (.jze x adr, s.zf), (.jov x adr, s.of)],
      (p.2 = true → ∀ a, EaIs s adr x a → InImage s a → exec p.1 s = .next { s with pc := a }) ∧
      (p.2 = true → (∀ a, EaIs s adr x a → ¬ InImage s a) → exec p.1 s = .fault .illegalAccess) ∧
      (p.2 = false → exec p.1 s = .next s)

/-! ### Stack and subroutines -/

/-- PUSH (R195; D12 for its fault): the effective address goes to the word below the top, which SP then names. -/
def Obligations.PushStoresBelowTheTop : Prop :=
  ∀ (s : State) (x : Reg) (adr : Word) (v : Nat), s.mem.wf → s.sp ≤ s.cfg.memSize → EaIs s adr x v →
    (s.sp ≠ 0 → ∃ t, exec (.push x adr) s = .next t ∧ t.sp = s.sp - 1 ∧
      StoresAt s t (s.sp - 1) (BitVec.ofNat 16 v) ∧
      RegsKept s t [] ∧ CondFlagsKept s t ∧ t.pc = s.pc ∧ StreamsKept s t ∧ ControlKept s t) ∧
    (s.sp = 0 → exec (.push x adr) s = .fault .stackOverflow)

/-- POP (R196; D11): the top word goes to the register, SP goes up by one, memory keeps the word; flags only under
`POP_SETS_FLAGS`. -/
def Obligations.PopTakesTheTop : Prop :=
  ∀ (s : State) (d : Reg),
    (s.sp < s.cfg.memSize → ∃ t, exec (.pop d) s = .next t ∧ t.reg d = s.word s.sp ∧ t.sp = s.sp + 1 ∧
      RegsKept s t [d] ∧ MemKept s t ∧ t.pc = s.pc ∧ StreamsKept s t ∧ ControlKept s t ∧
      (s.cfg.popSetsFlags = false → CondFlagsKept s t) ∧
      (s.cfg.popSetsFlags = true → t.of = false ∧ SignZeroOf t (s.word s.sp))) ∧
    (s.cfg.memSize ≤ s.sp → exec (.pop d) s = .fault .stackUnderflow)

/-- CALL (R197; D17 for the order of its checks): the address after the CALL goes to the stack and PC to the target. -/
def Obligations.CallPushesReturnAddress : Prop :=
  ∀ (s : State) (x : Reg) (adr : Word) (a : Nat), s.mem.wf → s.sp ≤ s.cfg.memSize → EaIs s adr x a →
    (s.sp ≠ 0 → InImage s a → ∃ t, exec (.call x adr) s = .next t ∧ t.pc = a ∧ t.sp = s.sp - 1 ∧
      StoresAt s t (s.sp - 1) (BitVec.ofNat 16 s.pc) ∧
      RegsKept s t [] ∧ CondFlagsKept s t ∧ StreamsKept s t ∧ ControlKept s t) ∧
    (s.sp = 0 → exec (.call x adr) s = .fault .stackOverflow) ∧
    (s.sp ≠ 0 → ¬ InImage s a → exec (.call x adr) s = .fault .illegalAccess)

/-- RET (R198): PC is loaded from the top of the stack, unchecked, and SP goes up by one. -/
def Obligations.ReturnLoadsPcFromTheTop : Prop :=
  ∀ s : State,
    (s.sp < s.cfg.memSize → ∃ t, exec .ret s = .next t ∧ t.pc = (s.word s.sp).toNat ∧ t.sp = s.sp + 1 ∧
      RegsKept s t [] ∧ CondFlagsKept s t ∧ MemKept s t ∧ StreamsKept s t ∧ ControlKept s t) ∧
    (s.cfg.memSize ≤ s.sp → exec .ret s = .fault .stackUnderflow)

/-- "A CALL to a label followed by RET resumes execution at the instruction immediately after the call" (R197, R198,
95_test_vectors.md S5): a RET run in the state that a CALL leaves goes back to the address after the CALL, modulo 65536,
with the stack pointer, registers and flags as before the CALL. -/
def Obligations.CallThenReturnResumes : Prop :=
  ∀ (s : State) (x : Reg) (adr : Word) (a : Nat), s.Inv → EaIs s adr x a → InImage s a → s.sp ≠ 0 →
    ∃ t u, exec (.call x adr) s = .next t ∧ exec .ret t = .next u ∧
      u.pc = s.pc % 65536 ∧ u.sp = s.sp ∧ RegsKept s u [] ∧ CondFlagsKept s u ∧ ControlKept s u ∧
      ∀ b, b ≠ s.sp - 1 → u.word b = s.word b

/-- R195, R196, R199: a POP after a PUSH gives the pushed value back and restores the stack pointer. The steps of PUSH and
POP are the spec's decisions D12 and D11 (notes/assumptions/24.md). -/
def Obligations.PushThenPopGivesBack : Prop :=
  ∀ (s : State) (x d : Reg) (adr : Word) (v : Nat), s.Inv → EaIs s adr x v → s.sp ≠ 0 →
    ∃ t u, exec (.push x adr) s = .next t ∧ exec (.pop d) t = .next u ∧
      u.reg d = BitVec.ofNat 16 v ∧ u.sp = s.sp ∧ u.pc = s.pc ∧ RegsKept s u [d]

/-- R199: while SP is within the image or at its end, no stack access is an illegal access. That PUSH on a full stack and
POP on an empty one are stack faults, and not illegal accesses, is the spec's decisions D12 and D11
(notes/assumptions/24.md). -/
def Obligations.StackAccessesStayInTheImage : Prop :=
  ∀ (s : State) (d x : Reg) (adr : Word), s.sp ≤ s.cfg.memSize →
    exec (.pop d) s ≠ .fault .illegalAccess ∧ exec .ret s ≠ .fault .illegalAccess ∧
    (∀ a, EaIs s adr x a → exec (.push x adr) s ≠ .fault .illegalAccess ∧
      (InImage s a → exec (.call x adr) s ≠ .fault .illegalAccess))

/-! ### System -/

/-- SVC with call number 1 (R210 to R212; D18, D19): the input service with a line. The line goes to the buffer at
GR[1], one byte a word, then its length to the cell at GR[2]; nothing else changes but the stream. -/
def Obligations.InputServiceStoresTheLine : Prop :=
  ∀ (s : State) (x : Reg) (adr : Word) (chars : Line) (rest : List Line),
    s.mem.wf → EaIs s adr x 1 → s.inStream = chars :: rest → InImage s (s.reg 2).toNat →
    (chars = [] ∨ (s.reg 1).toNat + chars.length ≤ s.cfg.memSize) →
    ∃ t, exec (.svc x adr) s = .next t ∧ t.inStream = rest ∧ t.outStream = s.outStream ∧
      t.word (s.reg 2).toNat = BitVec.ofNat 16 chars.length ∧
      (∀ (i : Nat) (h : i < chars.length), (s.reg 1).toNat + i ≠ (s.reg 2).toNat →
        (t.word ((s.reg 1).toNat + i)).toNat = chars[i].toNat) ∧
      (∀ a, a ≠ (s.reg 2).toNat → (a < (s.reg 1).toNat ∨ (s.reg 1).toNat + chars.length ≤ a) → t.word a = s.word a) ∧
      RegsKept s t [] ∧ CondFlagsKept s t ∧ PointersKept s t ∧ ControlKept s t

/-- SVC with call number 1 at end of input (R212): 0xFFFF goes to the cell at GR[2] and nothing else changes. -/
def Obligations.InputServiceAtEndOfInput : Prop :=
  ∀ (s : State) (x : Reg) (adr : Word), s.mem.wf → EaIs s adr x 1 → s.inStream = [] →
    (InImage s (s.reg 2).toNat → ∃ t, exec (.svc x adr) s = .next t ∧ StoresAt s t (s.reg 2).toNat 0xFFFF ∧
      RegsKept s t [] ∧ CondFlagsKept s t ∧ PointersKept s t ∧ StreamsKept s t ∧ ControlKept s t) ∧
    (¬ InImage s (s.reg 2).toNat → exec (.svc x adr) s = .fault .illegalAccess)

/-- SVC with call number 2 (R210, R211, R213; D18, D20): the output service appends the low bytes of the cells and a
line terminator to the output stream, and nothing else changes. -/
def Obligations.OutputServiceWritesTheCells : Prop :=
  ∀ (s : State) (x : Reg) (adr : Word), EaIs s adr x 2 → InImage s (s.reg 2).toNat →
    (s.word (s.reg 2).toNat = 0 ∨ (s.reg 1).toNat + (s.word (s.reg 2).toNat).toNat ≤ s.cfg.memSize) →
    ∃ t, exec (.svc x adr) s = .next t ∧
      t.outStream = s.outStream
        ++ ((List.range (s.word (s.reg 2).toNat).toNat).map fun i =>
             BitVec.ofNat 8 (s.word ((s.reg 1).toNat + i)).toNat)
        ++ [0x0A] ∧
      t.inStream = s.inStream ∧
      RegsKept s t [] ∧ CondFlagsKept s t ∧ MemKept s t ∧ PointersKept s t ∧ ControlKept s t

/-- A service's access outside the image is an illegal access, and another call number an invalid operation (R212 to R214).
The call numbers are the spec's decision D18, that the number is checked before any memory access is D17; that a line longer than the space to the end of the image is an illegal
access is D19; that the cells of the output service do not wrap is D20 (notes/assumptions/17.md, 24.md). -/
def Obligations.SupervisorCallFaults : Prop :=
  ∀ (s : State) (x : Reg) (adr : Word) (n : Nat), EaIs s adr x n →
    (n ≠ 1 → n ≠ 2 → exec (.svc x adr) s = .fault .invalidOperation) ∧
    (n = 1 ∨ n = 2 → ¬ InImage s (s.reg 2).toNat → exec (.svc x adr) s = .fault .illegalAccess) ∧
    (n = 1 → ∀ line rest, s.inStream = line :: rest → line ≠ [] →
      s.cfg.memSize < (s.reg 1).toNat + line.length → exec (.svc x adr) s = .fault .illegalAccess) ∧
    (n = 2 → s.word (s.reg 2).toNat ≠ 0 →
      s.cfg.memSize < (s.reg 1).toNat + (s.word (s.reg 2).toNat).toNat →
      exec (.svc x adr) s = .fault .illegalAccess)

/-- NOP and HLT (R215, R216): NOP changes nothing, HLT sets HALT and nothing else; PC stays past the instruction (D25).
-/
def Obligations.NopAndHaltComplete : Prop :=
  ∀ s : State, exec .nop s = .next s ∧
    ∃ t, exec .hlt s = .next t ∧ t.halt = true ∧ RegsKept s t [] ∧ CondFlagsKept s t ∧ MemKept s t ∧
      PointersKept s t ∧ StreamsKept s t ∧ LoopStateKept s t

/-! ### Rules of the whole machine -/

/-- R25: HALT is set by HLT and by nothing else, and is cleared by nothing but reset; after an instruction that left it
at 1 the run stops with cause HALT; no instruction reads it: runs of one instruction that differ in it alone have the
same outcome but for it. -/
def Obligations.HaltIsSetByHltAlone : Prop :=
  (∀ (i : Instr) (s t : State), exec i s = .next t → (t.halt = true ↔ s.halt = true ∨ i = .hlt)) ∧
  (∀ s : State, s.hostReset.halt = false) ∧
  (∀ s t : State, s.halt = false → Machine.step s = .next t →
    (t.halt = true ↔ s.atBreakpoint = false ∧ fetchDecode s = .ok .hlt) ∧
    (t.halt = true → iterate s = some (.halt, t))) ∧
  (∀ (i : Instr) (s : State) (h : Bool),
    exec i { s with halt := h } = mapNext (fun t => { t with halt := h || decide (i = .hlt) }) (exec i s))

/-- R26, R28, R29, R30 and R4: no instruction writes STEP, `ICOUNT`, the breakpoint set, `LASTCHK` or a parameter. -/
def Obligations.InstructionsKeepTheLoopState : Prop :=
  ∀ (i : Instr) (s t : State), exec i s = .next t → LoopStateKept s t

/-- R26, R28, R29, R30: no instruction reads STEP, `ICOUNT`, the breakpoint set or `LASTCHK`: runs of one instruction
that differ in them alone have the same outcome but for them. -/
def Obligations.InstructionsDoNotReadTheLoopState : Prop :=
  ∀ (i : Instr) (s : State) (st : Bool) (ic : Nat) (bp : List Nat) (lc : Option Nat),
    exec i { s with stepFlag := st, icount := ic, bp := bp, lastChk := lc } =
      mapNext (fun t => { t with stepFlag := st, icount := ic, bp := bp, lastChk := lc }) (exec i s)

/-- R32: the output service, and no other instruction, appends to the output stream; nothing removes from it, no
iteration of the run loop, whether or not it ends in a fault, and no reset; and no instruction reads it. That the output
service is SVC with effective address 2 is the spec's decision D18 (notes/assumptions/24.md). -/
def Obligations.OutputOnlyGrows : Prop :=
  (∀ (i : Instr) (s t : State), exec i s = .next t →
    ∃ bytes, t.outStream = s.outStream ++ bytes ∧ (bytes ≠ [] ↔ ∃ x adr, i = .svc x adr ∧ EaIs s adr x 2)) ∧
  (∀ (s t : State) (c : StopCause), iterate s = some (c, t) → ∃ bytes, t.outStream = s.outStream ++ bytes) ∧
  (∀ s : State, s.hostReset.outStream = s.outStream) ∧
  (∀ (i : Instr) (s : State) (out : List Byte),
    exec i { s with outStream := out ++ s.outStream } =
      mapNext (fun t => { t with outStream := out ++ t.outStream }) (exec i s))

/-- R24: the instructions that leave OF, SF and ZF unchanged: the jumps, PUSH, CALL, RET, SVC (D18), NOP, HLT; and, under
the default parameters, LAD and POP (D10, D11); and ST (R123). -/
def Obligations.FlagsAreLeftBy : Prop :=
  ∀ (s t : State) (d x : Reg) (adr : Word) (i : Instr),
    (i ∈ [Instr.jump x adr, .jpl x adr, .jmi x adr, .jnz x adr, .jze x adr, .jov x adr, .push x adr, .call x adr, .ret,
          .svc x adr, .nop, .hlt, .st d x adr] ∨
      (i = .lad d x adr ∧ s.cfg.ladSetsFlags = false) ∨ (i = .pop d ∧ s.cfg.popSetsFlags = false)) →
    exec i s = .next t → CondFlagsKept s t

/-- R20's summary: the general registers are written by the instructions that name a destination, and only there; jumps,
compares, stores, PUSH, CALL, RET, SVC, NOP and HLT write none. -/
def Obligations.RegistersAreWrittenOnlyByDestination : Prop :=
  ∀ (i : Instr) (s t : State) (r : Reg), exec i s = .next t → t.reg r ≠ s.reg r →
    (∃ x adr, i ∈ [Instr.ldMem r x adr, .lad r x adr, .addaMem r x adr, .subaMem r x adr, .addlMem r x adr,
        .sublMem r x adr, .andMem r x adr, .orMem r x adr, .xorMem r x adr, .sla r x adr, .sra r x adr, .sll r x adr,
        .srl r x adr]) ∨
    (∃ q, i ∈ [Instr.ldReg r q, .addaReg r q, .subaReg r q, .addlReg r q, .sublReg r q, .andReg r q, .orReg r q,
        .xorReg r q]) ∨
    i = .pop r

/-- R261 (D11, D12, D18 for POP, PUSH and SVC): which instruction, once fetched and decoded, raises a stack fault or an
invalid operation, and exactly when. Which of two faults is reported, a CALL on a full stack with its target outside the
image or an SVC with an unknown number, is the order of the checks, D17 (notes/assumptions/23.md). -/
def Obligations.FaultsComeFromTheNamedInstructions : Prop :=
  ∀ (i : Instr) (s : State),
    (exec i s = .fault .stackOverflow ↔
      s.sp = 0 ∧ ∃ x adr a, (i = .push x adr ∨ i = .call x adr) ∧ EaIs s adr x a) ∧
    (exec i s = .fault .stackUnderflow ↔ s.cfg.memSize ≤ s.sp ∧ (i = .ret ∨ ∃ d, i = .pop d)) ∧
    (exec i s = .fault .invalidOperation ↔ ∃ x adr n, i = .svc x adr ∧ EaIs s adr x n ∧ n ≠ 1 ∧ n ≠ 2)

/-- R261, R273: NOP, HLT and the register forms raise nothing once fetched and decoded, nor do the shifts and LAD under
`EA_WRAP = wrap`; and no instruction is refused, whatever the state. -/
def Obligations.TheseInstructionsAlwaysComplete : Prop :=
  (∀ (s : State) (d r : Reg),
    ∀ i ∈ [Instr.nop, .hlt, .ldReg d r, .addaReg d r, .subaReg d r, .addlReg d r, .sublReg d r, .andReg d r, .orReg d r,
           .xorReg d r, .cpaReg d r, .cplReg d r], ∃ t, exec i s = .next t) ∧
  (∀ (s : State) (d x : Reg) (adr : Word), s.cfg.eaWrap = .wrap →
    ∀ i ∈ [Instr.lad d x adr, .sla d x adr, .sra d x adr, .sll d x adr, .srl d x adr], ∃ t, exec i s = .next t) ∧
  (∀ (i : Instr) (s : State) (e : Refusal), exec i s ≠ .refused e)

/-! ### The assembler and the linker -/

/-- R100, R225: a line with an error emits no word and records no reference (the source says so for the duplicate label;
for the other errors it is the spec's decision D29, notes/assumptions/26.md); a line without one only appends: the write
offset does not go down and no word below it is rewritten. -/
def Obligations.AssemblyIsAppendOnly : Prop :=
  ∀ (c : Config) (b b' : Builder) (line : Text) (code : LineCode), b.assembleLine c line = .done code b' →
    b.w ≤ b'.w ∧ (∀ a, a < b.w → b'.image.read a = b.image.read a) ∧ b'.units = b.units ∧
    (code ≠ .ok → b'.w = b.w ∧ b'.image = b.image ∧ b'.tables.refs = b.tables.refs ∧ b'.litRefs = b.litRefs ∧
      b'.failed = true)

/-- R225, R227, R228, R234: assembling a line and closing a unit keep the builder's invariant: canonical image, each
reference word once and below the write offset, no name defined twice in a unit, closed or open, plainly or by a start
label, and the extern table holding exactly the start labels of the units, each once. That a start label which an earlier
unit has declared is refused is the treatment of U11 (notes/assumptions/21.md), that it goes to the extern table alone the
spec's decision D30 (notes/assumptions/26.md). -/
def Obligations.BuildingKeepsInvariant : Prop :=
  (∀ image : Memory, image.wf → (Builder.start image).Inv) ∧
  (∀ (c : Config) (b b' : Builder) (line : Text) (code : LineCode), b.Inv → b.assembleLine c line = .done code b' →
    b'.Inv) ∧
  (∀ b : Builder, b.Inv → b.snapshot.Inv)

/-- R90 to R95, R99, R102: an accepted machine instruction emits one instruction word, whose operation is the mnemonic's
register form exactly when a register stands right after the comma, and whose fields hold the operands that R102 names for
them, 0 where there is none; then the address word of its address operand, if it has one. The words, with the placeholder
0x0000 (the spec's decision D30) for a label or a literal, are the encoding of an instruction with these operands, which
the machine's decoder reads back. -/
def Obligations.AssembledInstructionsDecode : Prop :=
  ∀ (c : Config) (m : Mnemonic) (ts : List Token) (items : List Item) (rest : List Word),
    c.opmap.wf → c.hasOp m.op = true → instrBody c m ts = .ok items →
    ∃ (i : Instr) (isReg : Bool) (d s : BitVec 4) (adr : Option Item), OperandFields ts isReg d s adr ∧
      items = .word (packWord (c.opmap.code (if isReg then m.regOp else m.op)) d s) :: adr.toList ∧
      buildInstr d s ((adr.map Item.initial).getD 0) (if isReg then m.regOp else m.op) = some i ∧
      items.map Item.initial = encode c i ∧ decode c (items.map Item.initial ++ rest) = .ok i

/-- R232, R96, R99: IN and OUT expand to twelve words, the encodings of the seven instructions, whatever their two address
operands are: numbers, labels or literals. A label or a literal operand has the placeholder 0x0000 (the spec's decision
D30) and records its reference at offset +5 or +7 of the line. -/
def Obligations.InOutExpandToSevenInstructions : Prop :=
  ∀ (c : Config) (m : MacroOp) (a b : Item),
    expandInOut c m a b =
      ((wordItems ([Instr.push 1 0, .push 2 0, .lad 1 0 a.initial, .lad 2 0 b.initial,
        .svc 0 (if m = .input then 1 else 2), .pop 2, .pop 1].flatMap (encode c))).set 5 a).set 7 b ∧
    (expandInOut c m a b).length = 12 ∧
    (∀ ta tb : Token, AddressToken ta a → AddressToken tb b →
      inOutBody c m [ta, .comma, tb] = .ok (expandInOut c m a b)) ∧
    (∀ bld : Builder, bld.image.wf →
      let bld' := (expandInOut c m a b).foldl Builder.appendItem bld
      bld'.w = bld.w + 12 ∧
      bld'.tables.refs = bld.tables.refs ++ a.refAt (bld.w + 5) ++ b.refAt (bld.w + 7) ∧
      bld'.litRefs = bld.litRefs ++ a.literalAt (bld.w + 5) ++ b.literalAt (bld.w + 7) ∧
      (List.range 12).map (fun k => bld'.image.read (bld.w + k)) = (expandInOut c m a b).map Item.initial)

/-- R241 (D30): the literal values are listed in increasing unsigned order, each once, and are exactly those that are
referenced. -/
def Obligations.LiteralPoolIsSortedAndUnique : Prop :=
  ∀ refs : List (Word × Nat),
    (literalValues refs).Pairwise (fun v w => v.toNat < w.toNat) ∧
    ∀ v, v ∈ literalValues refs ↔ ∃ off, (v, off) ∈ refs

/-- R242, R243, R244: on success of a link every reference of every unit was resolved and the linked image holds, at each
reference's recorded location, the offset found in the extern table or else in the unit's own definitions, and at each
literal reference the address of a pool word that holds the literal; the link fails exactly when some reference resolves
to nothing. That tables still open at the link are the last unit is the spec's decision D30 (notes/assumptions/26.md). -/
def Obligations.LinkPatchesEveryReference : Prop :=
  ∀ (c : Config) (b b' : Builder) (success : Bool) (unresolved : SymbolMap), b.Inv →
    b.link c = .done success unresolved b' →
    (success = true ↔ ∀ t ∈ b.allUnits, ∀ e ∈ t.refs,
      ∃ off, b.externs.lookup e.1 = some off ∨ (b.externs.lookup e.1 = none ∧ t.defs.lookup e.1 = some off)) ∧
    (∀ t ∈ b.allUnits, ∀ e ∈ t.refs, ∀ off,
      (b.externs.lookup e.1 = some off ∨ (b.externs.lookup e.1 = none ∧ t.defs.lookup e.1 = some off)) →
      b'.image.read e.2 = BitVec.ofNat 16 off) ∧
    (∀ e ∈ b.litRefs, ∃ a, b.w ≤ a ∧ a < b'.w ∧ b'.image.read e.2 = BitVec.ofNat 16 a ∧ b'.image.read a = e.1)
end

