-- ==== Sys2Proof/Laws/State.lean ====
section
/-! SUPPORT. One lemma per field per update of State, true by rfl, and the reads of a register and of a memory word after
each update: no later proof unfolds a record update. -/
namespace Sys2Proof.Machine.State

variable (s : State)

/-! ### setReg -/

@[simp] theorem setReg_gr (r : Reg) (v : Word) : (s.setReg r v).gr = s.gr.set r v := rfl
@[simp] theorem setReg_pc (r : Reg) (v : Word) : (s.setReg r v).pc = s.pc := rfl
@[simp] theorem setReg_sp (r : Reg) (v : Word) : (s.setReg r v).sp = s.sp := rfl
@[simp] theorem setReg_of (r : Reg) (v : Word) : (s.setReg r v).of = s.of := rfl
@[simp] theorem setReg_sf (r : Reg) (v : Word) : (s.setReg r v).sf = s.sf := rfl
@[simp] theorem setReg_zf (r : Reg) (v : Word) : (s.setReg r v).zf = s.zf := rfl
@[simp] theorem setReg_halt (r : Reg) (v : Word) : (s.setReg r v).halt = s.halt := rfl
@[simp] theorem setReg_stepFlag (r : Reg) (v : Word) : (s.setReg r v).stepFlag = s.stepFlag := rfl
@[simp] theorem setReg_mem (r : Reg) (v : Word) : (s.setReg r v).mem = s.mem := rfl
@[simp] theorem setReg_icount (r : Reg) (v : Word) : (s.setReg r v).icount = s.icount := rfl
@[simp] theorem setReg_bp (r : Reg) (v : Word) : (s.setReg r v).bp = s.bp := rfl
@[simp] theorem setReg_lastChk (r : Reg) (v : Word) : (s.setReg r v).lastChk = s.lastChk := rfl
@[simp] theorem setReg_inStream (r : Reg) (v : Word) : (s.setReg r v).inStream = s.inStream := rfl
@[simp] theorem setReg_outStream (r : Reg) (v : Word) : (s.setReg r v).outStream = s.outStream := rfl
@[simp] theorem setReg_cfg (r : Reg) (v : Word) : (s.setReg r v).cfg = s.cfg := rfl
@[simp] theorem setReg_word (r : Reg) (v : Word) (k : Nat) : (s.setReg r v).word k = s.word k := rfl

/-! ### setPc -/

@[simp] theorem setPc_gr (n : Nat) : (s.setPc n).gr = s.gr := rfl
@[simp] theorem setPc_pc (n : Nat) : (s.setPc n).pc = n := rfl
@[simp] theorem setPc_sp (n : Nat) : (s.setPc n).sp = s.sp := rfl
@[simp] theorem setPc_of (n : Nat) : (s.setPc n).of = s.of := rfl
@[simp] theorem setPc_sf (n : Nat) : (s.setPc n).sf = s.sf := rfl
@[simp] theorem setPc_zf (n : Nat) : (s.setPc n).zf = s.zf := rfl
@[simp] theorem setPc_halt (n : Nat) : (s.setPc n).halt = s.halt := rfl
@[simp] theorem setPc_stepFlag (n : Nat) : (s.setPc n).stepFlag = s.stepFlag := rfl
@[simp] theorem setPc_mem (n : Nat) : (s.setPc n).mem = s.mem := rfl
@[simp] theorem setPc_icount (n : Nat) : (s.setPc n).icount = s.icount := rfl
@[simp] theorem setPc_bp (n : Nat) : (s.setPc n).bp = s.bp := rfl
@[simp] theorem setPc_lastChk (n : Nat) : (s.setPc n).lastChk = s.lastChk := rfl
@[simp] theorem setPc_inStream (n : Nat) : (s.setPc n).inStream = s.inStream := rfl
@[simp] theorem setPc_outStream (n : Nat) : (s.setPc n).outStream = s.outStream := rfl
@[simp] theorem setPc_cfg (n : Nat) : (s.setPc n).cfg = s.cfg := rfl
@[simp] theorem setPc_reg (n : Nat) (q : Reg) : (s.setPc n).reg q = s.reg q := rfl
@[simp] theorem setPc_word (n : Nat) (k : Nat) : (s.setPc n).word k = s.word k := rfl

/-! ### advance -/

@[simp] theorem advance_gr (n : Nat) : (s.advance n).gr = s.gr := rfl
@[simp] theorem advance_pc (n : Nat) : (s.advance n).pc = s.pc + n := rfl
@[simp] theorem advance_sp (n : Nat) : (s.advance n).sp = s.sp := rfl
@[simp] theorem advance_of (n : Nat) : (s.advance n).of = s.of := rfl
@[simp] theorem advance_sf (n : Nat) : (s.advance n).sf = s.sf := rfl
@[simp] theorem advance_zf (n : Nat) : (s.advance n).zf = s.zf := rfl
@[simp] theorem advance_halt (n : Nat) : (s.advance n).halt = s.halt := rfl
@[simp] theorem advance_stepFlag (n : Nat) : (s.advance n).stepFlag = s.stepFlag := rfl
@[simp] theorem advance_mem (n : Nat) : (s.advance n).mem = s.mem := rfl
@[simp] theorem advance_icount (n : Nat) : (s.advance n).icount = s.icount := rfl
@[simp] theorem advance_bp (n : Nat) : (s.advance n).bp = s.bp := rfl
@[simp] theorem advance_lastChk (n : Nat) : (s.advance n).lastChk = s.lastChk := rfl
@[simp] theorem advance_inStream (n : Nat) : (s.advance n).inStream = s.inStream := rfl
@[simp] theorem advance_outStream (n : Nat) : (s.advance n).outStream = s.outStream := rfl
@[simp] theorem advance_cfg (n : Nat) : (s.advance n).cfg = s.cfg := rfl
@[simp] theorem advance_reg (n : Nat) (q : Reg) : (s.advance n).reg q = s.reg q := rfl
@[simp] theorem advance_word (n : Nat) (k : Nat) : (s.advance n).word k = s.word k := rfl

/-! ### setSp -/

@[simp] theorem setSp_gr (n : Nat) : (s.setSp n).gr = s.gr := rfl
@[simp] theorem setSp_pc (n : Nat) : (s.setSp n).pc = s.pc := rfl
@[simp] theorem setSp_sp (n : Nat) : (s.setSp n).sp = n := rfl
@[simp] theorem setSp_of (n : Nat) : (s.setSp n).of = s.of := rfl
@[simp] theorem setSp_sf (n : Nat) : (s.setSp n).sf = s.sf := rfl
@[simp] theorem setSp_zf (n : Nat) : (s.setSp n).zf = s.zf := rfl
@[simp] theorem setSp_halt (n : Nat) : (s.setSp n).halt = s.halt := rfl
@[simp] theorem setSp_stepFlag (n : Nat) : (s.setSp n).stepFlag = s.stepFlag := rfl
@[simp] theorem setSp_mem (n : Nat) : (s.setSp n).mem = s.mem := rfl
@[simp] theorem setSp_icount (n : Nat) : (s.setSp n).icount = s.icount := rfl
@[simp] theorem setSp_bp (n : Nat) : (s.setSp n).bp = s.bp := rfl
@[simp] theorem setSp_lastChk (n : Nat) : (s.setSp n).lastChk = s.lastChk := rfl
@[simp] theorem setSp_inStream (n : Nat) : (s.setSp n).inStream = s.inStream := rfl
@[simp] theorem setSp_outStream (n : Nat) : (s.setSp n).outStream = s.outStream := rfl
@[simp] theorem setSp_cfg (n : Nat) : (s.setSp n).cfg = s.cfg := rfl
@[simp] theorem setSp_reg (n : Nat) (q : Reg) : (s.setSp n).reg q = s.reg q := rfl
@[simp] theorem setSp_word (n : Nat) (k : Nat) : (s.setSp n).word k = s.word k := rfl

/-! ### setHalt -/

@[simp] theorem setHalt_gr : s.setHalt.gr = s.gr := rfl
@[simp] theorem setHalt_pc : s.setHalt.pc = s.pc := rfl
@[simp] theorem setHalt_sp : s.setHalt.sp = s.sp := rfl
@[simp] theorem setHalt_of : s.setHalt.of = s.of := rfl
@[simp] theorem setHalt_sf : s.setHalt.sf = s.sf := rfl
@[simp] theorem setHalt_zf : s.setHalt.zf = s.zf := rfl
@[simp] theorem setHalt_halt : s.setHalt.halt = true := rfl
@[simp] theorem setHalt_stepFlag : s.setHalt.stepFlag = s.stepFlag := rfl
@[simp] theorem setHalt_mem : s.setHalt.mem = s.mem := rfl
@[simp] theorem setHalt_icount : s.setHalt.icount = s.icount := rfl
@[simp] theorem setHalt_bp : s.setHalt.bp = s.bp := rfl
@[simp] theorem setHalt_lastChk : s.setHalt.lastChk = s.lastChk := rfl
@[simp] theorem setHalt_inStream : s.setHalt.inStream = s.inStream := rfl
@[simp] theorem setHalt_outStream : s.setHalt.outStream = s.outStream := rfl
@[simp] theorem setHalt_cfg : s.setHalt.cfg = s.cfg := rfl
@[simp] theorem setHalt_reg (q : Reg) : s.setHalt.reg q = s.reg q := rfl
@[simp] theorem setHalt_word (k : Nat) : s.setHalt.word k = s.word k := rfl

/-! ### setWord -/

@[simp] theorem setWord_gr (a : Nat) (v : Word) : (s.setWord a v).gr = s.gr := rfl
@[simp] theorem setWord_pc (a : Nat) (v : Word) : (s.setWord a v).pc = s.pc := rfl
@[simp] theorem setWord_sp (a : Nat) (v : Word) : (s.setWord a v).sp = s.sp := rfl
@[simp] theorem setWord_of (a : Nat) (v : Word) : (s.setWord a v).of = s.of := rfl
@[simp] theorem setWord_sf (a : Nat) (v : Word) : (s.setWord a v).sf = s.sf := rfl
@[simp] theorem setWord_zf (a : Nat) (v : Word) : (s.setWord a v).zf = s.zf := rfl
@[simp] theorem setWord_halt (a : Nat) (v : Word) : (s.setWord a v).halt = s.halt := rfl
@[simp] theorem setWord_stepFlag (a : Nat) (v : Word) : (s.setWord a v).stepFlag = s.stepFlag := rfl
@[simp] theorem setWord_mem (a : Nat) (v : Word) : (s.setWord a v).mem = s.mem.write a v := rfl
@[simp] theorem setWord_icount (a : Nat) (v : Word) : (s.setWord a v).icount = s.icount := rfl
@[simp] theorem setWord_bp (a : Nat) (v : Word) : (s.setWord a v).bp = s.bp := rfl
@[simp] theorem setWord_lastChk (a : Nat) (v : Word) : (s.setWord a v).lastChk = s.lastChk := rfl
@[simp] theorem setWord_inStream (a : Nat) (v : Word) : (s.setWord a v).inStream = s.inStream := rfl
@[simp] theorem setWord_outStream (a : Nat) (v : Word) : (s.setWord a v).outStream = s.outStream := rfl
@[simp] theorem setWord_cfg (a : Nat) (v : Word) : (s.setWord a v).cfg = s.cfg := rfl
@[simp] theorem setWord_reg (a : Nat) (v : Word) (q : Reg) : (s.setWord a v).reg q = s.reg q := rfl

/-! ### emit -/

@[simp] theorem emit_gr (b : Byte) : (s.emit b).gr = s.gr := rfl
@[simp] theorem emit_pc (b : Byte) : (s.emit b).pc = s.pc := rfl
@[simp] theorem emit_sp (b : Byte) : (s.emit b).sp = s.sp := rfl
@[simp] theorem emit_of (b : Byte) : (s.emit b).of = s.of := rfl
@[simp] theorem emit_sf (b : Byte) : (s.emit b).sf = s.sf := rfl
@[simp] theorem emit_zf (b : Byte) : (s.emit b).zf = s.zf := rfl
@[simp] theorem emit_halt (b : Byte) : (s.emit b).halt = s.halt := rfl
@[simp] theorem emit_stepFlag (b : Byte) : (s.emit b).stepFlag = s.stepFlag := rfl
@[simp] theorem emit_mem (b : Byte) : (s.emit b).mem = s.mem := rfl
@[simp] theorem emit_icount (b : Byte) : (s.emit b).icount = s.icount := rfl
@[simp] theorem emit_bp (b : Byte) : (s.emit b).bp = s.bp := rfl
@[simp] theorem emit_lastChk (b : Byte) : (s.emit b).lastChk = s.lastChk := rfl
@[simp] theorem emit_inStream (b : Byte) : (s.emit b).inStream = s.inStream := rfl
@[simp] theorem emit_outStream (b : Byte) : (s.emit b).outStream = s.outStream ++ [b] := rfl
@[simp] theorem emit_cfg (b : Byte) : (s.emit b).cfg = s.cfg := rfl
@[simp] theorem emit_reg (b : Byte) (q : Reg) : (s.emit b).reg q = s.reg q := rfl
@[simp] theorem emit_word (b : Byte) (k : Nat) : (s.emit b).word k = s.word k := rfl

/-! ### setInStream -/

@[simp] theorem setInStream_gr (ls : List Line) : (s.setInStream ls).gr = s.gr := rfl
@[simp] theorem setInStream_pc (ls : List Line) : (s.setInStream ls).pc = s.pc := rfl
@[simp] theorem setInStream_sp (ls : List Line) : (s.setInStream ls).sp = s.sp := rfl
@[simp] theorem setInStream_of (ls : List Line) : (s.setInStream ls).of = s.of := rfl
@[simp] theorem setInStream_sf (ls : List Line) : (s.setInStream ls).sf = s.sf := rfl
@[simp] theorem setInStream_zf (ls : List Line) : (s.setInStream ls).zf = s.zf := rfl
@[simp] theorem setInStream_halt (ls : List Line) : (s.setInStream ls).halt = s.halt := rfl
@[simp] theorem setInStream_stepFlag (ls : List Line) : (s.setInStream ls).stepFlag = s.stepFlag := rfl
@[simp] theorem setInStream_mem (ls : List Line) : (s.setInStream ls).mem = s.mem := rfl
@[simp] theorem setInStream_icount (ls : List Line) : (s.setInStream ls).icount = s.icount := rfl
@[simp] theorem setInStream_bp (ls : List Line) : (s.setInStream ls).bp = s.bp := rfl
@[simp] theorem setInStream_lastChk (ls : List Line) : (s.setInStream ls).lastChk = s.lastChk := rfl
@[simp] theorem setInStream_inStream (ls : List Line) : (s.setInStream ls).inStream = ls := rfl
@[simp] theorem setInStream_outStream (ls : List Line) : (s.setInStream ls).outStream = s.outStream := rfl
@[simp] theorem setInStream_cfg (ls : List Line) : (s.setInStream ls).cfg = s.cfg := rfl
@[simp] theorem setInStream_reg (ls : List Line) (q : Reg) : (s.setInStream ls).reg q = s.reg q := rfl
@[simp] theorem setInStream_word (ls : List Line) (k : Nat) : (s.setInStream ls).word k = s.word k := rfl

/-! ### noteCheck -/

@[simp] theorem noteCheck_gr : s.noteCheck.gr = s.gr := rfl
@[simp] theorem noteCheck_pc : s.noteCheck.pc = s.pc := rfl
@[simp] theorem noteCheck_sp : s.noteCheck.sp = s.sp := rfl
@[simp] theorem noteCheck_of : s.noteCheck.of = s.of := rfl
@[simp] theorem noteCheck_sf : s.noteCheck.sf = s.sf := rfl
@[simp] theorem noteCheck_zf : s.noteCheck.zf = s.zf := rfl
@[simp] theorem noteCheck_halt : s.noteCheck.halt = s.halt := rfl
@[simp] theorem noteCheck_stepFlag : s.noteCheck.stepFlag = s.stepFlag := rfl
@[simp] theorem noteCheck_mem : s.noteCheck.mem = s.mem := rfl
@[simp] theorem noteCheck_icount : s.noteCheck.icount = s.icount := rfl
@[simp] theorem noteCheck_bp : s.noteCheck.bp = s.bp := rfl
@[simp] theorem noteCheck_lastChk : s.noteCheck.lastChk = some s.pc := rfl
@[simp] theorem noteCheck_inStream : s.noteCheck.inStream = s.inStream := rfl
@[simp] theorem noteCheck_outStream : s.noteCheck.outStream = s.outStream := rfl
@[simp] theorem noteCheck_cfg : s.noteCheck.cfg = s.cfg := rfl
@[simp] theorem noteCheck_reg (q : Reg) : s.noteCheck.reg q = s.reg q := rfl
@[simp] theorem noteCheck_word (k : Nat) : s.noteCheck.word k = s.word k := rfl

/-! ### countInstruction -/

@[simp] theorem countInstruction_gr : s.countInstruction.gr = s.gr := rfl
@[simp] theorem countInstruction_pc : s.countInstruction.pc = s.pc := rfl
@[simp] theorem countInstruction_sp : s.countInstruction.sp = s.sp := rfl
@[simp] theorem countInstruction_of : s.countInstruction.of = s.of := rfl
@[simp] theorem countInstruction_sf : s.countInstruction.sf = s.sf := rfl
@[simp] theorem countInstruction_zf : s.countInstruction.zf = s.zf := rfl
@[simp] theorem countInstruction_halt : s.countInstruction.halt = s.halt := rfl
@[simp] theorem countInstruction_stepFlag : s.countInstruction.stepFlag = s.stepFlag := rfl
@[simp] theorem countInstruction_mem : s.countInstruction.mem = s.mem := rfl
@[simp] theorem countInstruction_icount : s.countInstruction.icount = s.icount + 1 := rfl
@[simp] theorem countInstruction_bp : s.countInstruction.bp = s.bp := rfl
@[simp] theorem countInstruction_lastChk : s.countInstruction.lastChk = s.lastChk := rfl
@[simp] theorem countInstruction_inStream : s.countInstruction.inStream = s.inStream := rfl
@[simp] theorem countInstruction_outStream : s.countInstruction.outStream = s.outStream := rfl
@[simp] theorem countInstruction_cfg : s.countInstruction.cfg = s.cfg := rfl
@[simp] theorem countInstruction_reg (q : Reg) : s.countInstruction.reg q = s.reg q := rfl
@[simp] theorem countInstruction_word (k : Nat) : s.countInstruction.word k = s.word k := rfl

/-! ### setStepFlag -/

@[simp] theorem setStepFlag_gr (v : Bool) : (s.setStepFlag v).gr = s.gr := rfl
@[simp] theorem setStepFlag_pc (v : Bool) : (s.setStepFlag v).pc = s.pc := rfl
@[simp] theorem setStepFlag_sp (v : Bool) : (s.setStepFlag v).sp = s.sp := rfl
@[simp] theorem setStepFlag_of (v : Bool) : (s.setStepFlag v).of = s.of := rfl
@[simp] theorem setStepFlag_sf (v : Bool) : (s.setStepFlag v).sf = s.sf := rfl
@[simp] theorem setStepFlag_zf (v : Bool) : (s.setStepFlag v).zf = s.zf := rfl
@[simp] theorem setStepFlag_halt (v : Bool) : (s.setStepFlag v).halt = s.halt := rfl
@[simp] theorem setStepFlag_stepFlag (v : Bool) : (s.setStepFlag v).stepFlag = v := rfl
@[simp] theorem setStepFlag_mem (v : Bool) : (s.setStepFlag v).mem = s.mem := rfl
@[simp] theorem setStepFlag_icount (v : Bool) : (s.setStepFlag v).icount = s.icount := rfl
@[simp] theorem setStepFlag_bp (v : Bool) : (s.setStepFlag v).bp = s.bp := rfl
@[simp] theorem setStepFlag_lastChk (v : Bool) : (s.setStepFlag v).lastChk = s.lastChk := rfl
@[simp] theorem setStepFlag_inStream (v : Bool) : (s.setStepFlag v).inStream = s.inStream := rfl
@[simp] theorem setStepFlag_outStream (v : Bool) : (s.setStepFlag v).outStream = s.outStream := rfl
@[simp] theorem setStepFlag_cfg (v : Bool) : (s.setStepFlag v).cfg = s.cfg := rfl
@[simp] theorem setStepFlag_reg (v : Bool) (q : Reg) : (s.setStepFlag v).reg q = s.reg q := rfl
@[simp] theorem setStepFlag_word (v : Bool) (k : Nat) : (s.setStepFlag v).word k = s.word k := rfl

/-! ### setSZ -/

@[simp] theorem setSZ_gr (v : Word) : (s.setSZ v).gr = s.gr := rfl
@[simp] theorem setSZ_pc (v : Word) : (s.setSZ v).pc = s.pc := rfl
@[simp] theorem setSZ_sp (v : Word) : (s.setSZ v).sp = s.sp := rfl
@[simp] theorem setSZ_of (v : Word) : (s.setSZ v).of = s.of := rfl
@[simp] theorem setSZ_sf (v : Word) : (s.setSZ v).sf = v.getLsbD 15 := rfl
@[simp] theorem setSZ_zf (v : Word) : (s.setSZ v).zf = (v == 0) := rfl
@[simp] theorem setSZ_halt (v : Word) : (s.setSZ v).halt = s.halt := rfl
@[simp] theorem setSZ_stepFlag (v : Word) : (s.setSZ v).stepFlag = s.stepFlag := rfl
@[simp] theorem setSZ_mem (v : Word) : (s.setSZ v).mem = s.mem := rfl
@[simp] theorem setSZ_icount (v : Word) : (s.setSZ v).icount = s.icount := rfl
@[simp] theorem setSZ_bp (v : Word) : (s.setSZ v).bp = s.bp := rfl
@[simp] theorem setSZ_lastChk (v : Word) : (s.setSZ v).lastChk = s.lastChk := rfl
@[simp] theorem setSZ_inStream (v : Word) : (s.setSZ v).inStream = s.inStream := rfl
@[simp] theorem setSZ_outStream (v : Word) : (s.setSZ v).outStream = s.outStream := rfl
@[simp] theorem setSZ_cfg (v : Word) : (s.setSZ v).cfg = s.cfg := rfl
@[simp] theorem setSZ_reg (v : Word) (q : Reg) : (s.setSZ v).reg q = s.reg q := rfl
@[simp] theorem setSZ_word (v : Word) (k : Nat) : (s.setSZ v).word k = s.word k := rfl

/-! ### setOSZ -/

@[simp] theorem setOSZ_gr (o : Bool) (v : Word) : (s.setOSZ o v).gr = s.gr := rfl
@[simp] theorem setOSZ_pc (o : Bool) (v : Word) : (s.setOSZ o v).pc = s.pc := rfl
@[simp] theorem setOSZ_sp (o : Bool) (v : Word) : (s.setOSZ o v).sp = s.sp := rfl
@[simp] theorem setOSZ_of (o : Bool) (v : Word) : (s.setOSZ o v).of = o := rfl
@[simp] theorem setOSZ_sf (o : Bool) (v : Word) : (s.setOSZ o v).sf = v.getLsbD 15 := rfl
@[simp] theorem setOSZ_zf (o : Bool) (v : Word) : (s.setOSZ o v).zf = (v == 0) := rfl
@[simp] theorem setOSZ_halt (o : Bool) (v : Word) : (s.setOSZ o v).halt = s.halt := rfl
@[simp] theorem setOSZ_stepFlag (o : Bool) (v : Word) : (s.setOSZ o v).stepFlag = s.stepFlag := rfl
@[simp] theorem setOSZ_mem (o : Bool) (v : Word) : (s.setOSZ o v).mem = s.mem := rfl
@[simp] theorem setOSZ_icount (o : Bool) (v : Word) : (s.setOSZ o v).icount = s.icount := rfl
@[simp] theorem setOSZ_bp (o : Bool) (v : Word) : (s.setOSZ o v).bp = s.bp := rfl
@[simp] theorem setOSZ_lastChk (o : Bool) (v : Word) : (s.setOSZ o v).lastChk = s.lastChk := rfl
@[simp] theorem setOSZ_inStream (o : Bool) (v : Word) : (s.setOSZ o v).inStream = s.inStream := rfl
@[simp] theorem setOSZ_outStream (o : Bool) (v : Word) : (s.setOSZ o v).outStream = s.outStream := rfl
@[simp] theorem setOSZ_cfg (o : Bool) (v : Word) : (s.setOSZ o v).cfg = s.cfg := rfl
@[simp] theorem setOSZ_reg (o : Bool) (v : Word) (q : Reg) : (s.setOSZ o v).reg q = s.reg q := rfl
@[simp] theorem setOSZ_word (o : Bool) (v : Word) (k : Nat) : (s.setOSZ o v).word k = s.word k := rfl

/-! ### writeBack -/

@[simp] theorem writeBack_gr (d : Reg) (p : Word × Bool) : (s.writeBack d p).gr = s.gr.set d p.1 := rfl
@[simp] theorem writeBack_pc (d : Reg) (p : Word × Bool) : (s.writeBack d p).pc = s.pc := rfl
@[simp] theorem writeBack_sp (d : Reg) (p : Word × Bool) : (s.writeBack d p).sp = s.sp := rfl
@[simp] theorem writeBack_of (d : Reg) (p : Word × Bool) : (s.writeBack d p).of = p.2 := rfl
@[simp] theorem writeBack_sf (d : Reg) (p : Word × Bool) : (s.writeBack d p).sf = p.1.getLsbD 15 := rfl
@[simp] theorem writeBack_zf (d : Reg) (p : Word × Bool) : (s.writeBack d p).zf = (p.1 == 0) := rfl
@[simp] theorem writeBack_halt (d : Reg) (p : Word × Bool) : (s.writeBack d p).halt = s.halt := rfl
@[simp] theorem writeBack_stepFlag (d : Reg) (p : Word × Bool) : (s.writeBack d p).stepFlag = s.stepFlag := rfl
@[simp] theorem writeBack_mem (d : Reg) (p : Word × Bool) : (s.writeBack d p).mem = s.mem := rfl
@[simp] theorem writeBack_icount (d : Reg) (p : Word × Bool) : (s.writeBack d p).icount = s.icount := rfl
@[simp] theorem writeBack_bp (d : Reg) (p : Word × Bool) : (s.writeBack d p).bp = s.bp := rfl
@[simp] theorem writeBack_lastChk (d : Reg) (p : Word × Bool) : (s.writeBack d p).lastChk = s.lastChk := rfl
@[simp] theorem writeBack_inStream (d : Reg) (p : Word × Bool) : (s.writeBack d p).inStream = s.inStream := rfl
@[simp] theorem writeBack_outStream (d : Reg) (p : Word × Bool) : (s.writeBack d p).outStream = s.outStream := rfl
@[simp] theorem writeBack_cfg (d : Reg) (p : Word × Bool) : (s.writeBack d p).cfg = s.cfg := rfl
@[simp] theorem writeBack_word (d : Reg) (p : Word × Bool) (k : Nat) : (s.writeBack d p).word k = s.word k := rfl

/-! ### hostReset -/

@[simp] theorem hostReset_gr : s.hostReset.gr = Vector.replicate 8 0 := rfl
@[simp] theorem hostReset_pc : s.hostReset.pc = s.cfg.resetPc := rfl
@[simp] theorem hostReset_sp : s.hostReset.sp = s.cfg.memSize := rfl
@[simp] theorem hostReset_of : s.hostReset.of = false := rfl
@[simp] theorem hostReset_sf : s.hostReset.sf = false := rfl
@[simp] theorem hostReset_zf : s.hostReset.zf = false := rfl
@[simp] theorem hostReset_halt : s.hostReset.halt = false := rfl
@[simp] theorem hostReset_stepFlag : s.hostReset.stepFlag = false := rfl
@[simp] theorem hostReset_mem : s.hostReset.mem = s.mem := rfl
@[simp] theorem hostReset_icount : s.hostReset.icount = 0 := rfl
@[simp] theorem hostReset_bp : s.hostReset.bp = s.bp := rfl
@[simp] theorem hostReset_lastChk : s.hostReset.lastChk = none := rfl
@[simp] theorem hostReset_inStream : s.hostReset.inStream = s.inStream := rfl
@[simp] theorem hostReset_outStream : s.hostReset.outStream = s.outStream := rfl
@[simp] theorem hostReset_cfg : s.hostReset.cfg = s.cfg := rfl
@[simp] theorem hostReset_word (k : Nat) : s.hostReset.word k = s.word k := rfl

/-! ### Registers after a register write -/

@[simp] theorem setReg_reg_same (r : Reg) (v : Word) : (s.setReg r v).reg r = v := by
  simp [reg, setReg]

theorem setReg_reg_other {r q : Reg} (v : Word) (h : q ≠ r) : (s.setReg r v).reg q = s.reg q := by
  simp only [reg, setReg, Fin.getElem_fin]
  exact Vector.getElem_set_ne _ _ fun e => h (Fin.ext e.symm)

@[simp] theorem writeBack_reg_same (d : Reg) (p : Word × Bool) : (s.writeBack d p).reg d = p.1 :=
  s.setReg_reg_same d p.1

theorem writeBack_reg_other {d q : Reg} (p : Word × Bool) (h : q ≠ d) : (s.writeBack d p).reg q = s.reg q :=
  s.setReg_reg_other p.1 h

@[simp] theorem hostReset_reg (q : Reg) : s.hostReset.reg q = 0 := by
  simp [reg]

end Sys2Proof.Machine.State
end

