-- ==== Sys2Proof/Laws/Memory.lean ====
section
/-! SUPPORT. The laws of memory as a list of words: read after write, the canonical form kept, equal reads mean equal
memories. -/
namespace Sys2Proof.Machine

namespace Memory

theorem read_put_same (m : Memory) (a : Nat) (v : Word) (h : m.read a = unlisted) : (put a v m).read a = v := by
  unfold put
  split
  · next e => rw [h, e]
  · simp [read]

theorem read_put_other (m : Memory) {a b : Nat} (v : Word) (h : b ≠ a) : (put a v m).read b = m.read b := by
  unfold put
  split
  · rfl
  · simp [read, h.symm]

/-- An address below all listed ones is unlisted. -/
theorem read_of_lt : ∀ {m : Memory} {a : Nat}, (∀ e ∈ m, a < e.1) → m.read a = unlisted
  | [], _, _ => rfl
  | (k, w) :: m, a, h => by
    have hk : k ≠ a := by have := h (k, w) (by simp); simp at this; omega
    simp only [read, if_neg hk]
    exact read_of_lt fun e he => h e (List.mem_cons_of_mem _ he)

theorem wf_tail {e : Nat × Word} {m : Memory} (h : Memory.wf (e :: m)) : Memory.wf m :=
  ⟨(List.pairwise_cons.mp h.1).2, fun e' he => h.2 e' (List.mem_cons_of_mem _ he)⟩

theorem wf_head {e : Nat × Word} {m : Memory} (h : Memory.wf (e :: m)) : ∀ e' ∈ m, e.1 < e'.1 :=
  (List.pairwise_cons.mp h.1).1

/-- A word reads back as it was written. -/
theorem read_write_same : ∀ {m : Memory}, m.wf → ∀ (a : Nat) (v : Word), (m.write a v).read a = v
  | [], _, a, v => read_put_same [] a v rfl
  | (k, w) :: m, h, a, v => by
    unfold write
    split
    · refine read_put_same _ a v (read_of_lt ?_)
      intro e he
      rcases List.mem_cons.mp he with rfl | he
      · assumption
      · have := wf_head h e he; simp at this; omega
    · split
      · next e => subst e; exact read_put_same _ a v (read_of_lt (wf_head h))
      · next hne =>
        simp only [read, if_neg (Ne.symm hne)]
        exact read_write_same (wf_tail h) a v

/-- A write leaves every other address alone. -/
theorem read_write_other : ∀ (m : Memory) {a b : Nat} (v : Word), b ≠ a → (m.write a v).read b = m.read b
  | [], a, b, v, h => read_put_other [] v h
  | (k, w) :: m, a, b, v, h => by
    unfold write
    split
    · exact read_put_other _ v h
    · split
      · next e => subst e; rw [read_put_other _ v h]; simp [read, h.symm]
      · simp only [read]; rw [read_write_other m v h]

theorem mem_put {m : Memory} {a : Nat} {v : Word} {e : Nat × Word} (h : e ∈ put a v m) :
    (e = (a, v) ∧ v ≠ unlisted) ∨ e ∈ m := by
  unfold put at h
  split at h
  · exact .inr h
  · rcases List.mem_cons.mp h with h | h
    · exact .inl ⟨h, by assumption⟩
    · exact .inr h

/-- Every entry after a write is the written one or was there before. -/
theorem mem_write : ∀ {m : Memory} {a : Nat} {v : Word} {e : Nat × Word}, e ∈ m.write a v →
    (e = (a, v) ∧ v ≠ unlisted) ∨ e ∈ m
  | [], _, _, _, h => mem_put h
  | (k, w) :: m, a, v, e, h => by
    unfold write at h
    split at h
    · exact mem_put h
    · split at h
      · exact (mem_put h).imp_right (List.mem_cons_of_mem _)
      · rcases List.mem_cons.mp h with h | h
        · exact .inr (h ▸ List.mem_cons_self ..)
        · exact (mem_write h).imp_right (List.mem_cons_of_mem _)

theorem wf_put {m : Memory} {a : Nat} {v : Word} (h : m.wf) (hlt : ∀ e ∈ m, a < e.1) : (put a v m).wf := by
  unfold put
  split
  · exact h
  · next hv =>
    refine ⟨List.pairwise_cons.mpr ⟨hlt, h.1⟩, fun e he => ?_⟩
    rcases List.mem_cons.mp he with rfl | he
    · exact hv
    · exact h.2 e he

/-- Every write keeps the canonical form. -/
theorem wf_write : ∀ {m : Memory}, m.wf → ∀ (a : Nat) (v : Word), (m.write a v).wf
  | [], h, a, v => wf_put h (by simp)
  | (k, w) :: m, h, a, v => by
    unfold write
    split
    · next hlt =>
      refine wf_put h fun e he => ?_
      rcases List.mem_cons.mp he with rfl | he
      · exact hlt
      · have := wf_head h e he; simp at this; omega
    · split
      · next e => subst e; exact wf_put (wf_tail h) (wf_head h)
      · next hlt hne =>
        have hw := wf_write (wf_tail h) a v
        refine ⟨List.pairwise_cons.mpr ⟨fun e he => ?_, hw.1⟩, fun e he => ?_⟩
        · rcases mem_write he with ⟨rfl, -⟩ | he
          · simp; omega
          · exact wf_head h e he
        · rcases List.mem_cons.mp he with rfl | he
          · exact h.2 _ (List.mem_cons_self ..)
          · exact hw.2 e he

/-- The empty list is in the canonical form. -/
theorem wf_nil : Memory.wf [] := ⟨List.Pairwise.nil, by simp⟩

/-- A write inside a bound keeps every listed address inside it. -/
theorem bound_write {m : Memory} {n a : Nat} (v : Word) (h : ∀ e ∈ m, e.1 < n) (ha : a < n) :
    ∀ e ∈ m.write a v, e.1 < n := by
  intro e he
  rcases mem_write he with ⟨rfl, -⟩ | he
  · exact ha
  · exact h e he

end Memory

namespace State

theorem setWord_word_same (s : State) (h : s.mem.wf) (a : Nat) (v : Word) : (s.setWord a v).word a = v :=
  Memory.read_write_same h a v

theorem setWord_word_other (s : State) {a b : Nat} (v : Word) (h : b ≠ a) : (s.setWord a v).word b = s.word b :=
  Memory.read_write_other s.mem v h

end State

end Sys2Proof.Machine
end

