-- ==== Sys2Proof/Laws/Ops.lean ====
section
/-! SUPPORT. One lemma for each shared operation that says everything it can do. Proofs cite these and do not unfold the
operation. -/
namespace Sys2Proof.Machine

/-! ### Outcomes -/

@[simp] theorem conclude_ok (t : State) : conclude (.ok t) = .next t := rfl

@[simp] theorem conclude_error (f : Fault) : conclude (.error f) = .fault f := rfl

theorem conclude_next {r : Except Fault State} {t : State} : conclude r = .next t ↔ r = .ok t := by
  cases r <;> simp [conclude, raise]

theorem conclude_fault {r : Except Fault State} {f : Fault} : conclude r = .fault f ↔ r = .error f := by
  cases r <;> simp [conclude, raise]

/-- No instruction that ends in `conclude` is refused. -/
theorem conclude_not_refused (r : Except Fault State) (e : Refusal) : conclude r ≠ .refused e := by
  cases r <;> simp [conclude, raise]

@[simp] theorem except_ok_bind {α β : Type} (a : α) (k : α → Except Fault β) : (Except.ok a >>= k) = k a := rfl

@[simp] theorem except_error_bind {α β : Type} (f : Fault) (k : α → Except Fault β) :
    ((Except.error f : Except Fault α) >>= k) = .error f := rfl

@[simp] theorem except_pure {α : Type} (a : α) : (pure a : Except Fault α) = .ok a := rfl

/-- A sequence succeeds when its parts do. -/
theorem except_bind_ok {α β : Type} {m : Except Fault α} {k : α → Except Fault β} {b : β} :
    (m >>= k) = .ok b ↔ ∃ a, m = .ok a ∧ k a = .ok b := by
  cases m <;> simp [bind, Except.bind]

/-- A sequence faults when its first part does, or the rest after it. -/
theorem except_bind_error {α β : Type} {m : Except Fault α} {k : α → Except Fault β} {f : Fault} :
    (m >>= k) = .error f ↔ m = .error f ∨ ∃ a, m = .ok a ∧ k a = .error f := by
  cases m <;> simp [bind, Except.bind]

/-! ### Memory access -/

namespace State

theorem memRead_eq {s : State} {a : Nat} (h : a < s.cfg.memSize) : s.memRead a = .ok (s.word a) := if_pos h

theorem memRead_ok {s : State} {a : Nat} {v : Word} : s.memRead a = .ok v ↔ a < s.cfg.memSize ∧ v = s.word a := by
  unfold memRead
  split <;> simp_all [eq_comm]

theorem memRead_error {s : State} {a : Nat} {f : Fault} :
    s.memRead a = .error f ↔ s.cfg.memSize ≤ a ∧ f = .illegalAccess := by
  unfold memRead
  split <;> simp_all [eq_comm]

theorem memWrite_eq {s : State} {a : Nat} (h : a < s.cfg.memSize) (v : Word) : s.memWrite a v = .ok (s.setWord a v) :=
  if_pos h

theorem memWrite_ok {s t : State} {a : Nat} {v : Word} :
    s.memWrite a v = .ok t ↔ a < s.cfg.memSize ∧ t = s.setWord a v := by
  unfold memWrite
  split <;> simp_all [eq_comm]

theorem memWrite_error {s : State} {a : Nat} {v : Word} {f : Fault} :
    s.memWrite a v = .error f ↔ s.cfg.memSize ≤ a ∧ f = .illegalAccess := by
  unfold memWrite
  split <;> simp_all [eq_comm]

theorem checkTarget_ok {s : State} {t : Nat} {u : Unit} : s.checkTarget t = .ok u ↔ t < s.cfg.memSize := by
  unfold checkTarget
  split <;> simp_all

theorem checkTarget_error {s : State} {t : Nat} {f : Fault} :
    s.checkTarget t = .error f ↔ s.cfg.memSize ≤ t ∧ f = .illegalAccess := by
  unfold checkTarget
  split <;> simp_all [eq_comm]

/-! ### The stack -/

theorem push_ok {s t : State} {v : Word} :
    s.push v = .ok t ↔ s.sp ≠ 0 ∧ s.sp - 1 < s.cfg.memSize ∧ t = (s.setSp (s.sp - 1)).setWord (s.sp - 1) v := by
  unfold push
  split
  · simp_all
  · simp_all [memWrite_ok]

theorem push_error {s : State} {v : Word} {f : Fault} :
    s.push v = .error f ↔
      (s.sp = 0 ∧ f = .stackOverflow) ∨ (s.sp ≠ 0 ∧ s.cfg.memSize ≤ s.sp - 1 ∧ f = .illegalAccess) := by
  unfold push
  split
  · simp_all [eq_comm]
  · simp_all [memWrite_error]

theorem pop_eq (s : State) :
    s.pop = if s.cfg.memSize ≤ s.sp then .error .stackUnderflow else .ok (s.word s.sp, s.setSp (s.sp + 1)) := by
  unfold pop
  split
  · rfl
  · next h => rw [memRead_eq (by omega)]; rfl

theorem pop_ok {s : State} {p : Word × State} :
    s.pop = .ok p ↔ s.sp < s.cfg.memSize ∧ p = (s.word s.sp, s.setSp (s.sp + 1)) := by
  rw [pop_eq]
  split
  · simp; omega
  · simp [eq_comm]; omega

theorem pop_error {s : State} {f : Fault} : s.pop = .error f ↔ s.cfg.memSize ≤ s.sp ∧ f = .stackUnderflow := by
  rw [pop_eq]
  split <;> simp_all [eq_comm]

end State

/-! ### Operands -/

theorem effectiveAddress_ok {s : State} {adr : Word} {x : Reg} {a : Nat} :
    effectiveAddress s adr x = .ok a ↔ EaIs s adr x a := by
  unfold effectiveAddress EaIs
  cases s.cfg.eaWrap with
  | wrap => simp [eq_comm]
  | fault =>
    dsimp only
    split
    · simp_all [eq_comm]
    · simp_all

theorem effectiveAddress_error {s : State} {adr : Word} {x : Reg} {f : Fault} :
    effectiveAddress s adr x = .error f ↔
      s.cfg.eaWrap = .fault ∧ 65536 ≤ adr.toNat + (s.reg x).toNat ∧ f = .illegalAccess := by
  unfold effectiveAddress
  cases s.cfg.eaWrap with
  | wrap => simp
  | fault =>
    dsimp only
    split
    · simp_all
    · simp_all [eq_comm]

/-- An effective address is a 16-bit number. -/
theorem EaIs.lt {s : State} {adr : Word} {x : Reg} {a : Nat} (h : EaIs s adr x a) : a < 65536 := by
  unfold EaIs at h
  split at h
  · omega
  · omega

theorem memOperand_ok {s : State} {adr : Word} {x : Reg} {v : Word} :
    memOperand s adr x = .ok v ↔ ∃ a, EaIs s adr x a ∧ a < s.cfg.memSize ∧ v = s.word a := by
  unfold memOperand
  rw [except_bind_ok]
  simp [effectiveAddress_ok, State.memRead_ok]

theorem jumpTarget_ok {s : State} {adr : Word} {x : Reg} {t : Nat} :
    jumpTarget s adr x = .ok t ↔ EaIs s adr x t ∧ t < s.cfg.memSize := by
  unfold jumpTarget
  simp [except_bind_ok, effectiveAddress_ok, State.checkTarget_ok]

/-! ### Instruction shapes -/

theorem memForm_next {f : Word → Word → Word × Bool} {d x : Reg} {adr : Word} {s t : State} :
    memForm f d x adr s = .next t ↔
      ∃ a, EaIs s adr x a ∧ a < s.cfg.memSize ∧ t = s.writeBack d (f (s.reg d) (s.word a)) := by
  unfold memForm
  rw [conclude_next, except_bind_ok]
  simp only [memOperand_ok, except_pure, Except.ok.injEq]
  constructor
  · rintro ⟨v, ⟨a, h1, h2, rfl⟩, rfl⟩
    exact ⟨a, h1, h2, rfl⟩
  · rintro ⟨a, h1, h2, rfl⟩
    exact ⟨_, ⟨a, h1, h2, rfl⟩, rfl⟩

theorem regForm_eq (f : Word → Word → Word × Bool) (d r : Reg) (s : State) :
    regForm f d r s = .next (s.writeBack d (f (s.reg d) (s.reg r))) := rfl

theorem compareMem_next {f : Word → Word → Word × Bool} {d x : Reg} {adr : Word} {s t : State} :
    compareMem f d x adr s = .next t ↔
      ∃ a, EaIs s adr x a ∧ a < s.cfg.memSize ∧
        t = s.setOSZ (f (s.reg d) (s.word a)).2 (f (s.reg d) (s.word a)).1 := by
  unfold compareMem
  rw [conclude_next, except_bind_ok]
  simp only [memOperand_ok, except_pure, Except.ok.injEq]
  constructor
  · rintro ⟨v, ⟨a, h1, h2, rfl⟩, rfl⟩
    exact ⟨a, h1, h2, rfl⟩
  · rintro ⟨a, h1, h2, rfl⟩
    exact ⟨_, ⟨a, h1, h2, rfl⟩, rfl⟩

theorem compareReg_eq (f : Word → Word → Word × Bool) (d r : Reg) (s : State) :
    compareReg f d r s = .next (s.setOSZ (f (s.reg d) (s.reg r)).2 (f (s.reg d) (s.reg r)).1) := rfl

theorem shiftForm_next {f : Word → Nat → Word × Bool} {d x : Reg} {adr : Word} {s t : State} :
    shiftForm f d x adr s = .next t ↔ ∃ n, EaIs s adr x n ∧ t = s.writeBack d (f (s.reg d) n) := by
  unfold shiftForm
  rw [conclude_next, except_bind_ok]
  simp [effectiveAddress_ok, @eq_comm _ t]

theorem jumpForm_next {taken : Bool} {x : Reg} {adr : Word} {s t : State} :
    jumpForm taken x adr s = .next t ↔
      (taken = true ∧ ∃ a, EaIs s adr x a ∧ a < s.cfg.memSize ∧ t = s.setPc a) ∨ (taken = false ∧ t = s) := by
  unfold jumpForm
  cases taken with
  | true => simp [conclude_next, except_bind_ok, jumpTarget_ok, and_assoc, @eq_comm _ t]
  | false => simp [@eq_comm _ t]

/-! ### Services -/

theorem ServiceResult.andThen_done {r : ServiceResult} {k : State → ServiceResult} {t : State} :
    r.andThen k = .done t ↔ ∃ u, r = .done u ∧ k u = .done t := by
  cases r <;> simp [ServiceResult.andThen]

theorem serviceWrite_done {a : Nat} {v : Word} {s t : State} :
    serviceWrite a v s = .done t ↔ a < s.cfg.memSize ∧ t = s.setWord a v := by
  unfold serviceWrite
  cases h : s.memWrite a v with
  | ok u => simp [State.memWrite_ok] at h; simp [h, eq_comm]
  | error f => simp [State.memWrite_error] at h; simp; omega

/-- The memory that the input service's loop leaves, byte after byte. -/
def storedBytes : Nat → List Byte → Memory → Memory
  | _, [], m => m
  | a, b :: bs, m => storedBytes (a + 1) bs (m.write a (b.setWidth 16))

/-- Everything a completed storing loop did: its words, in the image. -/
theorem storeBytes_done : ∀ {bs : List Byte} {a : Nat} {s t : State}, storeBytes a bs s = .done t →
    (bs = [] ∨ a + bs.length ≤ s.cfg.memSize) ∧ t = { s with mem := storedBytes a bs s.mem }
  | [], a, s, t, h => by simp [storeBytes] at h; simp [storedBytes, h]
  | b :: bs, a, s, t, h => by
    unfold storeBytes at h
    obtain ⟨u, hu, ht⟩ := ServiceResult.andThen_done.mp h
    obtain ⟨ha, rfl⟩ := serviceWrite_done.mp hu
    obtain ⟨hb, rfl⟩ := storeBytes_done ht
    refine ⟨.inr ?_, rfl⟩
    rcases hb with rfl | hb
    · simp; omega
    · simp at hb ⊢; omega

theorem wf_storedBytes : ∀ (bs : List Byte) (a : Nat) {m : Memory}, m.wf → (storedBytes a bs m).wf
  | [], _, _, h => h
  | _ :: bs, a, _, h => wf_storedBytes bs (a + 1) (Memory.wf_write h _ _)

theorem bound_storedBytes {n : Nat} : ∀ (bs : List Byte) (a : Nat) {m : Memory}, (∀ e ∈ m, e.1 < n) →
    (bs = [] ∨ a + bs.length ≤ n) → ∀ e ∈ storedBytes a bs m, e.1 < n
  | [], _, _, h, _ => h
  | b :: bs, a, m, h, hb => by
    have hb : a + (bs.length + 1) ≤ n := by simpa using hb
    exact bound_storedBytes bs (a + 1) (Memory.bound_write _ h (by omega)) (.inr (by omega))

/-- Outside the stored words memory is as it was. -/
theorem storedBytes_outside : ∀ (bs : List Byte) (a k : Nat) (m : Memory), (k < a ∨ a + bs.length ≤ k) →
    (storedBytes a bs m).read k = m.read k
  | [], _, _, _, _ => rfl
  | b :: bs, a, k, m, h => by
    simp only [List.length_cons] at h
    rw [storedBytes, storedBytes_outside bs (a + 1) k _ (by omega), Memory.read_write_other _ _ (by omega)]

/-- Inside them stand the bytes, zero-extended. -/
theorem storedBytes_inside : ∀ (bs : List Byte) (a i : Nat) (m : Memory), m.wf → ∀ h : i < bs.length,
    (storedBytes a bs m).read (a + i) = bs[i].setWidth 16
  | b :: bs, a, 0, m, hm, h => by
    show (storedBytes (a + 1) bs _).read a = _
    rw [storedBytes_outside bs (a + 1) a _ (by omega), Memory.read_write_same hm]; rfl
  | b :: bs, a, i + 1, m, hm, h => by
    rw [storedBytes, show a + (i + 1) = (a + 1) + i by omega,
      storedBytes_inside bs (a + 1) i _ (Memory.wf_write hm _ _) (by simpa using h)]
    rfl

/-- Everything a completed output loop did: the low bytes of its cells, appended. -/
theorem outputCells_done : ∀ {n a : Nat} {s t : State}, outputCells a n s = .done t →
    (n = 0 ∨ a + n ≤ s.cfg.memSize) ∧
      t = { s with outStream := s.outStream ++ (List.range n).map fun i => (s.word (a + i)).extractLsb' 0 8 }
  | 0, a, s, t, h => by simp [outputCells] at h; simp [h]
  | n + 1, a, s, t, h => by
    unfold outputCells at h
    split at h
    · next c hc =>
      obtain ⟨ha, rfl⟩ := State.memRead_ok.mp hc
      obtain ⟨hb, rfl⟩ := outputCells_done h
      refine ⟨.inr ?_, ?_⟩
      · rcases hb with rfl | hb
        · omega
        · simp at hb; omega
      · simp [State.emit, List.range_succ_eq_map, State.word, Function.comp_def, Nat.add_assoc, Nat.add_comm 1]
    · cases h

end Sys2Proof.Machine
end

