-- ==== Sys2Proof/Laws/Build.lean ====
section
/-! SUPPORT. What appending to an image and patching it do, said once for the assembler and the linker. -/
namespace Sys2Proof.Machine

/-- What appending `n` words leaves alone. -/
structure Appended (b b' : Builder) (n : Nat) : Prop where
  w : b'.w = b.w + n
  img : ∀ a, a < b.w → b'.image.read a = b.image.read a
  units : b'.units = b.units
  records : b'.records = b.records
  failed : b'.failed = b.failed

theorem appendItem_appended (b : Builder) (it : Item) : Appended b (b.appendItem it) 1 := by
  cases it <;> exact ⟨rfl, fun a ha => Memory.read_write_other _ _ (Nat.ne_of_lt ha), rfl, rfl, rfl⟩

theorem appendItems_appended : ∀ (is : List Item) (b : Builder), Appended b (is.foldl Builder.appendItem b) is.length
  | [], b => ⟨rfl, fun _ _ => rfl, rfl, rfl, rfl⟩
  | it :: is, b => by
    have h1 := appendItem_appended b it
    have h2 := appendItems_appended is (b.appendItem it)
    have := h1.w; have := h2.w
    exact ⟨by simp only [List.foldl_cons, List.length_cons]; omega, fun a ha => by rw [List.foldl_cons,
          h2.img a (by omega), h1.img a ha], h2.units.trans h1.units, h2.records.trans h1.records,
                h2.failed.trans h1.failed⟩

/-- A unit defines the names of its tables. -/
theorem UnitTables.defines_iff (t : UnitTables) (name : Text) : t.defines name = true ↔ name ∈ t.names := by
  simp [UnitTables.defines, UnitTables.names, List.mem_map]

/-- A definition emits nothing and records no reference. -/
theorem define_keeps (b : Builder) (e n) : (b.define e n).w = b.w ∧ (b.define e n).image = b.image ∧
      (b.define e n).units = b.units ∧ (b.define e n).tables.refs = b.tables.refs ∧ (b.define e n).litRefs =
            b.litRefs := by
  unfold Builder.define; split <;> simp

theorem mem_insertWord {v w : Word} : ∀ {l : List Word}, w ∈ insertWord v l ↔ w = v ∨ w ∈ l
  | [] => by simp [insertWord]
  | x :: xs => by
    unfold insertWord
    split
    · simp
    · split
      · next h => subst h; simp
      · simp only [List.mem_cons, mem_insertWord (l := xs)]; tauto

/-- Every referenced literal is in the pool. -/
theorem mem_literalValues {e : Word × Nat} : ∀ {refs : List (Word × Nat)}, e ∈ refs → e.1 ∈ literalValues refs
  | f :: refs, h => by
    rw [show literalValues (f :: refs) = insertWord f.1 (literalValues refs) from rfl, mem_insertWord]
    rcases List.mem_cons.mp h with rfl | h
    · exact .inl rfl
    · exact .inr (mem_literalValues h)

/-- The order of the search for a name. -/
theorem resolveName_some {ex defs : SymbolMap} {n off} : resolveName ex defs n = some off ↔ (ex.lookup n =
      some off ∨ (ex.lookup n = none ∧ defs.lookup n = some off)) := by
  unfold resolveName
  cases ex.lookup n <;> simp

theorem UnitTables.hasEntries_eq_false (t : UnitTables) : t.hasEntries = false ↔ t.defs = [] ∧ t.refs = [] := by
  simp [UnitTables.hasEntries, List.isEmpty_iff]

/-- The units that a link resolves hold the references of the whole build. -/
theorem allUnits_refOffsets (b : Builder) : b.allUnits.flatMap UnitTables.refOffsets =
      b.units.flatMap UnitTables.refOffsets ++ b.tables.refOffsets := by
  unfold Builder.allUnits
  split
  · simp
  · next h =>
    have h' : b.tables.hasEntries = false := by simp only [Bool.or_eq_true, not_or, Bool.not_eq_true] at h; exact h.2
    simp [(UnitTables.hasEntries_eq_false _).mp h', UnitTables.refOffsets]

/-! ### Patching -/

theorem patches_other : ∀ (l : List (Nat × Option Nat)) (m : Memory) (a : Nat), a ∉ l.map Prod.fst →
    (l.foldl (fun m e => patch m e.1 e.2) m).read a = m.read a
  | [], _, _, _ => rfl
  | (o, t) :: l, m, a, h => by
    simp at h
    rw [List.foldl_cons, patches_other l _ a (by simpa using h.2)]
    cases t with
    | none => rfl
    | some t => exact Memory.read_write_other _ _ h.1

theorem patches_wf : ∀ (l : List (Nat × Option Nat)) (m : Memory), m.wf → (l.foldl (fun m e => patch m e.1 e.2) m).wf
  | [], _, h => h
  | (o, t) :: l, m, h => patches_wf l _ (by cases t with | none => exact h | some t => exact Memory.wf_write h _ _)

/-- A patch stands where its location is named once. -/
theorem patches_at : ∀ (l : List (Nat × Option Nat)) (m : Memory), m.wf → (l.map Prod.fst).Nodup → ∀ o t, (o,
      some t) ∈ l →
    (l.foldl (fun m e => patch m e.1 e.2) m).read o = BitVec.ofNat 16 t
  | [], _, _, _, _, _, h => by simp at h
  | (o', t') :: l, m, hm, hn, o, t, h => by
    obtain ⟨n1, n2⟩ := List.nodup_cons.mp hn
    rcases List.mem_cons.mp h with h | h
    · cases h
      rw [List.foldl_cons, patches_other l _ _ n1]
      exact Memory.read_write_same hm _ _
    · rw [List.foldl_cons]
      exact patches_at l _ (by cases t' with | none => exact hm | some t => exact Memory.wf_write hm _ _) n2 o t h

/-- Patching unit by unit is patching one list of locations. -/
theorem patchUnits_eq (ex : SymbolMap) : ∀ (us : List UnitTables) (m : Memory), us.foldl (patchUnit ex) m =
    (us.flatMap fun t => t.refs.map fun e => (e.2, resolveName ex t.defs e.1)).foldl (fun m e => patch m e.1 e.2) m
  | [], _ => rfl
  | t :: us, m => by
    rw [List.foldl_cons, patchUnits_eq ex us, List.flatMap_cons, List.foldl_append]
    congr 1
    unfold patchUnit
    rw [List.foldl_map]

/-- The literal pool: its words, their addresses, and the rest of the image. -/
theorem literalPool_appended : ∀ (vs : List Word) (b : Builder), 
    (vs.foldl Builder.appendWord b).w = b.w + vs.length ∧ (∀ a, a < b.w →
          (vs.foldl Builder.appendWord b).image.read a = b.image.read a) ∧
    (b.image.wf → (vs.foldl Builder.appendWord b).image.wf ∧
    ∀ v ∈ vs, ∃ a, (poolAddresses vs b.w).lookup v = some a ∧ b.w ≤ a ∧ a < b.w + vs.length ∧
          (vs.foldl Builder.appendWord b).image.read a = v)
  | [], b => ⟨rfl, fun _ _ => rfl, fun h => ⟨h, by simp⟩⟩
  | v :: vs, b => by
    obtain ⟨h1, h2, h3⟩ := literalPool_appended vs (b.appendWord v)
    have hw : (b.appendWord v).w = b.w + 1 := rfl
    rw [hw] at h1 h2 h3
    simp only [List.foldl_cons, List.length_cons]
    refine ⟨by omega, fun a ha => by rw [h2 a (by omega)]; exact Memory.read_write_other _ _ (Nat.ne_of_lt ha),
          fun hm => ?_⟩
    obtain ⟨h4, h5⟩ := h3 (Memory.wf_write hm _ _)
    refine ⟨h4, fun u hu => ?_⟩
    simp only [poolAddresses, List.lookup_cons]
    by_cases hv : u = v
    · subst hv
      refine ⟨b.w, by simp, le_refl _, by omega, ?_⟩
      rw [h2 _ (by omega)]; exact Memory.read_write_same hm _ _
    · obtain ⟨a, e1, e2, e3, e4⟩ := h5 u (by simpa [hv] using hu)
      refine ⟨a, ?_, by omega, by omega, e4⟩
      have : (u == v) = false := by simpa using hv
      simp [this, e1]

/-- Assembler and engine share one memory (R33): what a build operation leaves in the image, the machine holds. -/
theorem build_shares_memory {y y' : System} {r : LineResult} {a : Reply} (h : y.build r = .ok (a, y')) :
    y'.machine.mem = y'.builder.image := by
  unfold System.build at h
  split at h
  · split at h <;> cases h
    rfl
  · cases h

end Sys2Proof.Machine
end

