-- ==== Sys2Proof/Laws/Decode.lean ====
section
/-! SUPPORT. The laws of the instruction word's fields, of the opcode map and of register ids that decoding and encoding
rest on. -/
namespace Sys2Proof

@[simp] theorem opField_packWord (op : Byte) (d s : BitVec 4) : opField (packWord op d s) = op := by
  unfold opField packWord
  ext i hi
  simp
  grind

@[simp] theorem dField_packWord (op : Byte) (d s : BitVec 4) : dField (packWord op d s) = d := by
  unfold dField packWord
  ext i hi
  simp
  grind

@[simp] theorem sField_packWord (op : Byte) (d s : BitVec 4) : sField (packWord op d s) = s := by
  unfold sField packWord
  ext i hi
  simp
  grind

@[simp] theorem opField_opWord (c : Config) (o : Op) (d s : BitVec 4) : opField (opWord c o d s) = c.opmap.code o :=
  opField_packWord _ _ _

@[simp] theorem dField_opWord (c : Config) (o : Op) (d s : BitVec 4) : dField (opWord c o d s) = d :=
  dField_packWord _ _ _

@[simp] theorem sField_opWord (c : Config) (o : Op) (d s : BitVec 4) : sField (opWord c o d s) = s :=
  sField_packWord _ _ _

@[simp] theorem regOf_regId (r : Reg) : regOf (regId r) = some r := by
  revert r; decide

/-- A register id of 8 to 15 names no register. -/
theorem regOf_none (id : BitVec 4) (h : 8 ≤ id.toNat) : regOf id = none := by
  unfold regOf
  rw [dif_neg (by omega)]

theorem regId_of_regOf {id : BitVec 4} {r : Reg} (h : regOf id = some r) : regId r = id := by
  unfold regOf at h
  split at h
  · cases h
    apply BitVec.eq_of_toNat_eq
    simp [regId]
  · cases h

theorem Op.mem_all (o : Op) : o ∈ Op.all := by
  cases o <;> decide

/-- An injective opcode map has one operation for a byte. -/
theorem OpMap.code_inj {m : OpMap} (h : m.wf) {o o' : Op} (e : m.code o = m.code o') : o = o' :=
  List.inj_on_of_nodup_map h o.mem_all o'.mem_all e

/-- The decoder finds an operation of the machine by its own opcode byte. -/
theorem opOf_code {c : Config} (h : c.opmap.wf) {o : Op} (ho : c.hasOp o = true) : opOf c (c.opmap.code o) = some o := by
  unfold opOf
  cases hf : Op.all.find? (fun o' => c.hasOp o' && c.opmap.code o' == c.opmap.code o) with
  | none =>
    have := List.find?_eq_none.mp hf o o.mem_all
    simp [ho] at this
  | some o' =>
    have hp := List.find?_some hf
    simp only [Bool.and_eq_true, beq_iff_eq] at hp
    rw [OpMap.code_inj h hp.2]

/-- What the decoder finds is an operation of the machine with that byte. -/
theorem opOf_some {c : Config} {b : Byte} {o : Op} (h : opOf c b = some o) :
    c.hasOp o = true ∧ c.opmap.code o = b := by
  have hp := List.find?_some h
  simpa only [Bool.and_eq_true, beq_iff_eq] using hp

/-- The decoder finds nothing exactly where no operation of the machine has the byte. -/
theorem opOf_none {c : Config} {b : Byte} :
    opOf c b = none ↔ ∀ o, c.hasOp o = true → c.opmap.code o ≠ b := by
  unfold opOf
  rw [List.find?_eq_none]
  constructor
  · intro h o ho e
    exact h o o.mem_all (by simp [ho, e])
  · intro h o _ e
    simp only [Bool.and_eq_true, beq_iff_eq] at e
    exact h o e.1 e.2

theorem instrR_some {mk : Reg → Instr} {d : BitVec 4} {i : Instr} :
    instrR mk d = some i ↔ ∃ r, regOf d = some r ∧ i = mk r := by
  unfold instrR
  cases regOf d <;> simp [eq_comm]

theorem instrRR_some {mk : Reg → Reg → Instr} {d s : BitVec 4} {i : Instr} :
    instrRR mk d s = some i ↔ ∃ r q, regOf d = some r ∧ regOf s = some q ∧ i = mk r q := by
  unfold instrRR
  cases regOf d <;> cases regOf s <;> simp [eq_comm]

theorem instrRA_some {mk : Reg → Reg → Word → Instr} {d s : BitVec 4} {adr : Word} {i : Instr} :
    instrRA mk d s adr = some i ↔ ∃ r q, regOf d = some r ∧ regOf s = some q ∧ i = mk r q adr :=
  instrRR_some

theorem instrA_some {mk : Reg → Word → Instr} {s : BitVec 4} {adr : Word} {i : Instr} :
    instrA mk s adr = some i ↔ ∃ r, regOf s = some r ∧ i = mk r adr :=
  instrR_some

theorem finishDecode_ok {o : Op} {d s : BitVec 4} {adr : Word} {i : Instr} :
    finishDecode o d s adr = .ok i ↔ buildInstr d s adr o = some i := by
  unfold finishDecode
  cases buildInstr d s adr o <;> simp

/-- Everything a successful decoding found: the operation of the first word, the address word if the operation has one,
and the instruction built of them. -/
theorem decode_ok {c : Config} {ws : List Word} {i : Instr} (h : decode c ws = .ok i) :
    ∃ w rest o adr, ws = w :: rest ∧ opOf c (opField w) = some o ∧
      (o.format.hasAddress = true → rest.head? = some adr) ∧
      buildInstr (dField w) (sField w) adr o = some i := by
  unfold decode at h
  split at h
  · cases h
  · next w rest =>
    split at h
    · cases h
    · next o ho =>
      split at h
      · split at h
        · cases h
        · exact ⟨_, _, o, _, rfl, ho, fun _ => rfl, finishDecode_ok.mp h⟩
      · next hf => exact ⟨w, rest, o, 0, rfl, ho, fun e => absurd e hf, finishDecode_ok.mp h⟩

/-- What is built of an operation is an instance of it. -/
theorem buildInstr_op {d s : BitVec 4} {adr : Word} {o : Op} {i : Instr} (h : buildInstr d s adr o = some i) :
    i.op = o := by
  cases o <;> simp only [buildInstr, instrR_some, instrRR_some, instrRA_some, instrA_some, Option.some.injEq] at h <;>
    (obtain ⟨_, _, _, _, rfl⟩ := h; rfl)

/-- The default opcode map is injective. -/
theorem OpMap.standard_wf : OpMap.standard.wf := by decide

end Sys2Proof
end

