-- ==== Sys2Proof/Laws/Effects.lean ====
section
/-! SUPPORT. What the shared instruction shapes do, in the terms of Safety.lean,
      and what the four arithmetic functions compute. -/
namespace Sys2Proof.Machine

/-- An operand has at most one effective address. -/
theorem EaIs.unique {s : State} {adr x a b} (h : EaIs s adr x a) (h' : EaIs s adr x b) : a = b := by
  rw [← effectiveAddress_ok] at h h'; rw [h] at h'; injection h'

/-- SF and ZF as `SetSZ` writes them are the sign and the zero of the result. -/
theorem signZeroOf_intro (t : State) (r : Word) (h1 : t.sf = r.getLsbD 15) (h2 : t.zf = (r == 0)) :
      SignZeroOf t r := by
  constructor
  · rw [h1]
    have : r.getLsbD 15 = r.msb := by rw [BitVec.msb_eq_getLsbD_last]
    rw [this, BitVec.msb_eq_decide]; simp
  · rw [h2, beq_iff_eq]; exact ⟨fun h => by simp [h], fun h => BitVec.eq_of_toNat_eq (by simpa using h)⟩

/-- All that writing a result back does. -/
theorem onlyResult_writeBack (s : State) (d : Reg) (p : Word × Bool) : OnlyResult s (s.writeBack d p) d p.1 p.2 := by
  refine ⟨by simp, by simp, signZeroOf_intro _ _ rfl rfl, ?_, fun a => rfl, ⟨rfl, rfl⟩, ⟨rfl, rfl⟩, rfl, rfl,
        rfl, rfl, rfl, rfl⟩
  intro r hr; exact s.writeBack_reg_other p (by simpa using hr)

/-- The same, with result and overflow bit given by equations. -/
theorem onlyResult_of {s : State} {d : Reg} {p : Word × Bool} {r o} (h1 : p.1 = r) (h2 : p.2 = o) :
      OnlyResult s (s.writeBack d p) d r o := by
  subst h1 h2; exact onlyResult_writeBack s d p

/-- All that a compare's flag update does. -/
theorem onlyFlags_of {s : State} {p : Word × Bool} {r o} (h1 : p.1 = r) (h2 : p.2 = o) : OnlyFlags s
      (s.setOSZ p.2 p.1) r o := by
  subst h1 h2
  exact ⟨rfl, signZeroOf_intro _ _ rfl rfl, fun _ _ => rfl, fun a => rfl, ⟨rfl, rfl⟩, ⟨rfl, rfl⟩, rfl, rfl,
        rfl, rfl, rfl, rfl⟩

/-- All that a register write does. -/
theorem onlyRegister_setReg (s : State) (d : Reg) (v : Word) : OnlyRegister s (s.setReg d v) d v := by
  refine ⟨by simp, ?_, ⟨rfl, rfl, rfl⟩, fun a => rfl, ⟨rfl, rfl⟩, ⟨rfl, rfl⟩, rfl, rfl, rfl, rfl, rfl, rfl⟩
  intro r hr; exact s.setReg_reg_other v (by simpa using hr)

/-- All that a word write does to memory. -/
theorem storesAt_setWord (s : State) (h : s.mem.wf) (a : Nat) (v : Word) : StoresAt s (s.setWord a v) a v :=
  ⟨s.setWord_word_same h a v, fun _ hb => s.setWord_word_other v hb⟩

/-- Without an address inside the image the memory operand is an illegal access. -/
theorem memOperand_none_inside {s : State} {adr : Word} {x : Reg} (h : ∀ a, EaIs s adr x a → ¬ InImage s a) :
    memOperand s adr x = .error .illegalAccess := by
  unfold memOperand
  cases he : effectiveAddress s adr x with
  | ok a => have := h a (effectiveAddress_ok.mp he); simp [State.memRead, InImage] at *; omega
  | error f => obtain ⟨_, _, rfl⟩ := effectiveAddress_error.mp he; rfl

/-- The same, for a given effective address. -/
theorem memOperand_outside {s : State} {adr : Word} {x : Reg} {a} (h : EaIs s adr x a) (h' : ¬ InImage s a) :
    memOperand s adr x = .error .illegalAccess :=
  memOperand_none_inside fun _ hb => EaIs.unique h hb ▸ h'

/-! ### The arithmetic functions: wrapped result and overflow bit -/

/-- `w16` of a natural number. -/
theorem w16_natCast (n : Nat) : w16 (n : Int) = BitVec.ofNat 16 n := by
  simp [w16]

theorem addA_fst (a b : Word) : (addA a b).1 = a + b := by
  simp only [addA, w16, BitVec.ofInt_add, BitVec.ofInt_toInt]

theorem subA_fst (a b : Word) : (subA a b).1 = a - b := by
  simp only [subA, w16]
  rw [Int.sub_eq_add_neg, BitVec.ofInt_add, BitVec.ofInt_neg, BitVec.ofInt_toInt, BitVec.ofInt_toInt,
        BitVec.sub_eq_add_neg]

theorem addL_fst (a b : Word) : (addL a b).1 = a + b := by
  simp only [addL, w16, BitVec.ofInt_add]
  simp

theorem subL_fst (a b : Word) : (subL a b).1 = a - b := by
  simp only [subL, w16]
  rw [Int.sub_eq_add_neg, BitVec.ofInt_add, BitVec.ofInt_neg, BitVec.sub_eq_add_neg]; simp

theorem addA_snd (a b : Word) : (addA a b).2 = decide (a.toInt + b.toInt < -32768 ∨ 32767 < a.toInt + b.toInt) := by
  simp [addA, outsideSigned]

theorem subA_snd (a b : Word) : (subA a b).2 = decide (a.toInt - b.toInt < -32768 ∨ 32767 < a.toInt - b.toInt) := by
  simp [subA, outsideSigned]

theorem addL_snd (a b : Word) : (addL a b).2 = decide (65535 < a.toNat + b.toNat) := by
  simp only [addL]; congr 1; simp only [gt_iff_lt, eq_iff_iff]; omega

theorem subL_snd (a b : Word) : (subL a b).2 = decide (a.toNat < b.toNat) := by
  simp only [subL]; congr 1; simp only [eq_iff_iff]; omega

/-! ### The faults of the shared shapes: an illegal access is all that operands can raise -/

theorem effectiveAddress_fault {s adr x f} (h : effectiveAddress s adr x = .error f) : f = .illegalAccess :=
      (effectiveAddress_error.mp h).2.2

theorem memOperand_fault {s adr x f} (h : memOperand s adr x = .error f) : f = .illegalAccess := by
  unfold memOperand at h
  rcases except_bind_error.mp h with h | ⟨a, -, h⟩
  · exact effectiveAddress_fault h
  · exact (State.memRead_error.mp h).2

theorem jumpTarget_fault {s adr x f} (h : jumpTarget s adr x = .error f) : f = .illegalAccess := by
  unfold jumpTarget at h
  rcases except_bind_error.mp h with h | ⟨a, -, h⟩
  · exact effectiveAddress_fault h
  · rcases except_bind_error.mp h with h | ⟨a, -, h⟩
    · exact (State.checkTarget_error.mp h).2
    · cases h

theorem memForm_fault {g d x adr s f} (h : memForm g d x adr s = .fault f) : f = .illegalAccess := by
  rcases except_bind_error.mp (conclude_fault.mp h) with h | ⟨a, -, h⟩
  · exact memOperand_fault h
  · cases h

theorem compareMem_fault {g d x adr s f} (h : compareMem g d x adr s = .fault f) : f = .illegalAccess := by
  rcases except_bind_error.mp (conclude_fault.mp h) with h | ⟨a, -, h⟩
  · exact memOperand_fault h
  · cases h

theorem shiftForm_fault {g d x adr s f} (h : shiftForm g d x adr s = .fault f) : f = .illegalAccess := by
  rcases except_bind_error.mp (conclude_fault.mp h) with h | ⟨a, -, h⟩
  · exact effectiveAddress_fault h
  · cases h

theorem jumpForm_fault {b x adr s f} (h : jumpForm b x adr s = .fault f) : f = .illegalAccess := by
  unfold jumpForm at h
  split at h
  · rcases except_bind_error.mp (conclude_fault.mp h) with h | ⟨a, -, h⟩
    · exact jumpTarget_fault h
    · cases h
  · cases h

/-- No instruction is refused. -/
theorem exec_not_refused (i : Instr) (s : State) (e : Refusal) : exec i s ≠ .refused e := by
  cases i
  case svc x adr =>
    simp only [exec, execSvc]
    split <;> simp [raise]
  case jump | jpl | jmi | jnz | jze | jov =>
    simp only [exec, execJump, execJpl, execJmi, execJnz, execJze, execJov, jumpForm]
    try split
    all_goals exact conclude_not_refused _ e
  all_goals first | (intro h; cases h; done) | exact conclude_not_refused _ e

end Sys2Proof.Machine
end

