-- ==== Sys2Proof/Laws/Exec.lean ====
section
/-! SUPPORT. What an instruction can do, said once: `exec_next` lists the next states of `exec`, instruction by
instruction group. Rules about every instruction are derived from it. -/
namespace Sys2Proof.Machine

/-- The register that an instruction with a computed result writes, with the flags of the result. -/
def resultReg : Instr → Option Reg
  | .ldMem d _ _ | .ldReg d _ | .addaMem d _ _ | .subaMem d _ _ | .addlMem d _ _ | .sublMem d _ _
  | .addaReg d _ | .subaReg d _ | .addlReg d _ | .sublReg d _ | .andMem d _ _ | .orMem d _ _ | .xorMem d _ _
  | .andReg d _ | .orReg d _ | .xorReg d _ | .sla d _ _ | .sra d _ _ | .sll d _ _ | .srl d _ _ => some d
  | .nop | .st _ _ _ | .lad _ _ _ | .cpaMem _ _ _ | .cplMem _ _ _ | .cpaReg _ _ | .cplReg _ _
  | .jmi _ _ | .jnz _ _ | .jze _ _ | .jump _ _ | .jpl _ _ | .jov _ _ | .push _ _ | .pop _ | .call _ _ | .ret
  | .svc _ _ | .hlt => none

/-- The instructions that write the flags alone. -/
def isCompare : Instr → Bool
  | .cpaMem _ _ _ | .cplMem _ _ _ | .cpaReg _ _ | .cplReg _ _ => true
  | .nop | .st _ _ _ | .lad _ _ _ | .ldMem _ _ _ | .ldReg _ _ | .addaMem _ _ _ | .subaMem _ _ _ | .addlMem _ _ _
  | .sublMem _ _ _ | .addaReg _ _ | .subaReg _ _ | .addlReg _ _ | .sublReg _ _ | .andMem _ _ _ | .orMem _ _ _
  | .xorMem _ _ _ | .andReg _ _ | .orReg _ _ | .xorReg _ _ | .sla _ _ _ | .sra _ _ _ | .sll _ _ _ | .srl _ _ _
  | .jmi _ _ | .jnz _ _ | .jze _ _ | .jump _ _ | .jpl _ _ | .jov _ _ | .push _ _ | .pop _ | .call _ _ | .ret
  | .svc _ _ | .hlt => false

/-- The jumps. -/
def isJump : Instr → Bool
  | .jmi _ _ | .jnz _ _ | .jze _ _ | .jump _ _ | .jpl _ _ | .jov _ _ => true
  | .nop | .st _ _ _ | .lad _ _ _ | .ldMem _ _ _ | .ldReg _ _ | .addaMem _ _ _ | .subaMem _ _ _ | .addlMem _ _ _
  | .sublMem _ _ _ | .addaReg _ _ | .subaReg _ _ | .addlReg _ _ | .sublReg _ _ | .andMem _ _ _ | .orMem _ _ _
  | .xorMem _ _ _ | .andReg _ _ | .orReg _ _ | .xorReg _ _ | .sla _ _ _ | .sra _ _ _ | .sll _ _ _ | .srl _ _ _
  | .cpaMem _ _ _ | .cplMem _ _ _ | .cpaReg _ _ | .cplReg _ _ | .push _ _ | .pop _ | .call _ _ | .ret
  | .svc _ _ | .hlt => false

/-! ### The instructions outside the shared shapes -/

theorem execLad_next {d x : Reg} {adr : Word} {s t : State} :
    execLad d x adr s = .next t ↔ ∃ a, EaIs s adr x a ∧
      t = if s.cfg.ladSetsFlags then s.writeBack d (BitVec.ofNat 16 a, false) else s.setReg d (BitVec.ofNat 16 a) := by
  unfold execLad
  simp [conclude_next, except_bind_ok, effectiveAddress_ok, @eq_comm _ t]

theorem execSt_next {d x : Reg} {adr : Word} {s t : State} :
    execSt d x adr s = .next t ↔ ∃ a, EaIs s adr x a ∧ a < s.cfg.memSize ∧ t = s.setWord a (s.reg d) := by
  unfold execSt
  simp [conclude_next, except_bind_ok, effectiveAddress_ok, State.memWrite_ok]

theorem execPush_next {x : Reg} {adr : Word} {s t : State} :
    execPush x adr s = .next t ↔ ∃ a, EaIs s adr x a ∧ s.sp ≠ 0 ∧ s.sp - 1 < s.cfg.memSize ∧
      t = (s.setSp (s.sp - 1)).setWord (s.sp - 1) (BitVec.ofNat 16 a) := by
  unfold execPush
  simp [conclude_next, except_bind_ok, effectiveAddress_ok, State.push_ok]

theorem execPop_next {d : Reg} {s t : State} :
    execPop d s = .next t ↔ s.sp < s.cfg.memSize ∧
      t = if s.cfg.popSetsFlags then (s.setSp (s.sp + 1)).writeBack d (s.word s.sp, false)
        else (s.setSp (s.sp + 1)).setReg d (s.word s.sp) := by
  unfold execPop
  simp [conclude_next, except_bind_ok, State.pop_ok, @eq_comm _ t]

theorem execCall_next {x : Reg} {adr : Word} {s t : State} :
    execCall x adr s = .next t ↔ ∃ a, EaIs s adr x a ∧ s.sp ≠ 0 ∧ a < s.cfg.memSize ∧ s.sp - 1 < s.cfg.memSize ∧
      t = ((s.setSp (s.sp - 1)).setWord (s.sp - 1) (BitVec.ofNat 16 s.pc)).setPc a := by
  unfold execCall
  rw [conclude_next, except_bind_ok]
  simp only [effectiveAddress_ok]
  refine exists_congr fun a => and_congr_right fun _ => ?_
  split
  · simp_all
  · next h =>
    simp only [except_bind_ok, State.checkTarget_ok, State.push_ok, except_pure, Except.ok.injEq]
    constructor
    · rintro ⟨-, h1, u, ⟨h2, h3, rfl⟩, rfl⟩
      exact ⟨h2, h1, h3, rfl⟩
    · rintro ⟨h2, h1, h3, rfl⟩
      exact ⟨(), h1, _, ⟨h2, h3, rfl⟩, rfl⟩

theorem execRet_next {s t : State} :
    execRet s = .next t ↔ s.sp < s.cfg.memSize ∧ t = (s.setSp (s.sp + 1)).setPc (s.word s.sp).toNat := by
  unfold execRet
  simp [conclude_next, except_bind_ok, State.pop_ok, @eq_comm _ t]

/-- A completed input service: memory and the input stream. -/
theorem inputService_done {s t : State} (h : inputService s = .done t) :
    ∃ m ls, t = { s with mem := m, inStream := ls } ∧ (s.mem.wf → m.wf) ∧
      ((∀ e ∈ s.mem, e.1 < s.cfg.memSize) → ∀ e ∈ m, e.1 < s.cfg.memSize) ∧ ∃ taken, s.inStream = taken ++ ls := by
  unfold inputService at h
  split at h
  · next hs =>
    obtain ⟨ha, rfl⟩ := serviceWrite_done.mp h
    exact ⟨_, s.inStream, rfl, fun w => Memory.wf_write w _ _, fun b => Memory.bound_write _ b ha, [], rfl⟩
  · next line rest hs =>
    obtain ⟨u, hu, ht⟩ := ServiceResult.andThen_done.mp h
    obtain ⟨hb, rfl⟩ := storeBytes_done hu
    obtain ⟨ha, rfl⟩ := serviceWrite_done.mp ht
    refine ⟨_, rest, rfl, fun w => Memory.wf_write ?_ _ _, fun b => Memory.bound_write _ ?_ ha, [line], hs⟩
    · exact wf_storedBytes line _ w
    · exact bound_storedBytes line _ b hb

/-- A completed output service: the output stream. -/
theorem outputService_done {s t : State} (h : outputService s = .done t) :
    ∃ bytes, t = { s with outStream := s.outStream ++ bytes } := by
  unfold outputService at h
  split at h
  · cases h
  · obtain ⟨u, hu, ht⟩ := ServiceResult.andThen_done.mp h
    obtain ⟨-, rfl⟩ := outputCells_done hu
    cases ht
    exact ⟨_, by rw [State.emit, List.append_assoc]⟩

theorem execSvc_next {x : Reg} {adr : Word} {s t : State} (h : execSvc x adr s = .next t) :
    (EaIs s adr x 1 ∧ ∃ m ls, t = { s with mem := m, inStream := ls } ∧ (s.mem.wf → m.wf) ∧
      ((∀ e ∈ s.mem, e.1 < s.cfg.memSize) → ∀ e ∈ m, e.1 < s.cfg.memSize) ∧ ∃ taken, s.inStream = taken ++ ls) ∨
    (EaIs s adr x 2 ∧ ∃ bytes, t = { s with outStream := s.outStream ++ bytes }) := by
  unfold execSvc at h
  split at h
  · next u hu =>
    cases h
    unfold supervisorCall at hu
    split at hu
    · cases hu
    · next n hn =>
      have hn := effectiveAddress_ok.mp hn
      split at hu
      · next e => subst e; exact .inl ⟨hn, inputService_done hu⟩
      · split at hu
        · next e => subst e; exact .inr ⟨hn, outputService_done hu⟩
        · cases hu
  · cases h

/-! ### All instructions -/

/-- Every next state of `exec`. -/
theorem exec_next {i : Instr} {s t : State} (h : exec i s = .next t) :
    (∃ d p, resultReg i = some d ∧ t = s.writeBack d p) ∨
    (∃ p : Bool × Word, isCompare i = true ∧ t = s.setOSZ p.1 p.2) ∨
    (isJump i = true ∧ (t = s ∨ ∃ a, a < s.cfg.memSize ∧ t = s.setPc a)) ∨
    (i = .nop ∧ t = s) ∨
    (i = .hlt ∧ t = s.setHalt) ∨
    (∃ d x adr a, i = .lad d x adr ∧ EaIs s adr x a ∧
      t = if s.cfg.ladSetsFlags then s.writeBack d (BitVec.ofNat 16 a, false)
        else s.setReg d (BitVec.ofNat 16 a)) ∨
    (∃ d x adr a, i = .st d x adr ∧ EaIs s adr x a ∧ a < s.cfg.memSize ∧ t = s.setWord a (s.reg d)) ∨
    (∃ x adr a, i = .push x adr ∧ EaIs s adr x a ∧ s.sp ≠ 0 ∧ s.sp - 1 < s.cfg.memSize ∧
      t = (s.setSp (s.sp - 1)).setWord (s.sp - 1) (BitVec.ofNat 16 a)) ∨
    (∃ d, i = .pop d ∧ s.sp < s.cfg.memSize ∧
      t = if s.cfg.popSetsFlags then (s.setSp (s.sp + 1)).writeBack d (s.word s.sp, false)
        else (s.setSp (s.sp + 1)).setReg d (s.word s.sp)) ∨
    (∃ x adr a, i = .call x adr ∧ EaIs s adr x a ∧ s.sp ≠ 0 ∧ a < s.cfg.memSize ∧ s.sp - 1 < s.cfg.memSize ∧
      t = ((s.setSp (s.sp - 1)).setWord (s.sp - 1) (BitVec.ofNat 16 s.pc)).setPc a) ∨
    (i = .ret ∧ s.sp < s.cfg.memSize ∧ t = (s.setSp (s.sp + 1)).setPc (s.word s.sp).toNat) ∨
    (∃ x adr, i = .svc x adr ∧
      ((EaIs s adr x 1 ∧ ∃ m ls, t = { s with mem := m, inStream := ls } ∧ (s.mem.wf → m.wf) ∧
        ((∀ e ∈ s.mem, e.1 < s.cfg.memSize) → ∀ e ∈ m, e.1 < s.cfg.memSize) ∧ ∃ taken, s.inStream = taken ++ ls) ∨
      (EaIs s adr x 2 ∧ ∃ bytes, t = { s with outStream := s.outStream ++ bytes }))) := by
  have jump : ∀ {b x adr}, jumpForm b x adr s = .next t → t = s ∨ ∃ a, a < s.cfg.memSize ∧ t = s.setPc a := by
    intro b x adr hj
    rcases jumpForm_next.mp hj with ⟨-, a, -, ha, rfl⟩ | ⟨-, rfl⟩
    · exact .inr ⟨a, ha, rfl⟩
    · exact .inl rfl
  cases i
  case nop => cases h; exact .inr (.inr (.inr (.inl ⟨rfl, rfl⟩)))
  case hlt => cases h; exact .inr (.inr (.inr (.inr (.inl ⟨rfl, rfl⟩))))
  case lad d x adr =>
    obtain ⟨a, ha, rfl⟩ := execLad_next.mp h
    exact .inr (.inr (.inr (.inr (.inr (.inl ⟨d, x, adr, a, rfl, ha, rfl⟩)))))
  case st d x adr =>
    obtain ⟨a, ha, hi, rfl⟩ := execSt_next.mp h
    exact .inr (.inr (.inr (.inr (.inr (.inr (.inl ⟨d, x, adr, a, rfl, ha, hi, rfl⟩))))))
  case push x adr =>
    obtain ⟨a, ha, h0, hi, rfl⟩ := execPush_next.mp h
    exact .inr (.inr (.inr (.inr (.inr (.inr (.inr (.inl ⟨x, adr, a, rfl, ha, h0, hi, rfl⟩)))))))
  case pop d =>
    obtain ⟨hi, rfl⟩ := execPop_next.mp h
    exact .inr (.inr (.inr (.inr (.inr (.inr (.inr (.inr (.inl ⟨d, rfl, hi, rfl⟩))))))))
  case call x adr =>
    obtain ⟨a, ha, h0, hi, hi', rfl⟩ := execCall_next.mp h
    exact .inr (.inr (.inr (.inr (.inr (.inr (.inr (.inr (.inr (.inl ⟨x, adr, a, rfl, ha, h0, hi, hi', rfl⟩)))))))))
  case ret =>
    obtain ⟨hi, rfl⟩ := execRet_next.mp h
    exact .inr (.inr (.inr (.inr (.inr (.inr (.inr (.inr (.inr (.inr (.inl ⟨rfl, hi, rfl⟩))))))))))
  case svc x adr =>
    exact .inr (.inr (.inr (.inr (.inr (.inr (.inr (.inr (.inr (.inr (.inr ⟨x, adr, rfl, execSvc_next h⟩))))))))))
  case jump x adr => exact .inr (.inr (.inl ⟨rfl, jump (b := true) (x := x) (adr := adr) h⟩))
  case jpl x adr => exact .inr (.inr (.inl ⟨rfl, jump (b := !s.sf && !s.zf) (x := x) (adr := adr) h⟩))
  case jmi x adr => exact .inr (.inr (.inl ⟨rfl, jump (b := s.sf) (x := x) (adr := adr) h⟩))
  case jnz x adr => exact .inr (.inr (.inl ⟨rfl, jump (b := !s.zf) (x := x) (adr := adr) h⟩))
  case jze x adr => exact .inr (.inr (.inl ⟨rfl, jump (b := s.zf) (x := x) (adr := adr) h⟩))
  case jov x adr => exact .inr (.inr (.inl ⟨rfl, jump (b := s.of) (x := x) (adr := adr) h⟩))
  case cpaMem | cplMem =>
    obtain ⟨a, -, -, rfl⟩ := compareMem_next.mp h
    exact .inr (.inl ⟨(_, _), rfl, rfl⟩)
  case cpaReg | cplReg => cases h; exact .inr (.inl ⟨(_, _), rfl, rfl⟩)
  case sla | sra | sll | srl =>
    obtain ⟨a, -, rfl⟩ := shiftForm_next.mp h
    exact .inl ⟨_, _, rfl, rfl⟩
  case ldMem | addaMem | subaMem | addlMem | sublMem | andMem | orMem | xorMem =>
    obtain ⟨a, -, -, rfl⟩ := memForm_next.mp h
    exact .inl ⟨_, _, rfl, rfl⟩
  case ldReg | addaReg | subaReg | addlReg | sublReg | andReg | orReg | xorReg =>
    cases h; exact .inl ⟨_, _, rfl, rfl⟩

end Sys2Proof.Machine
end

