-- ==== Sys2Proof/Laws/PerInstr.lean ====
section
/-! SUPPORT. Statements about every instruction as syntax, one lemma per constructor. -/

/-- The encoding of an instruction is as long as its operation says (R75): one word, or two with an address word. -/
def Sys2Proof.Laws.EncodedLength.Statement (i : Sys2Proof.Instr) : Prop :=
  ∀ c : Sys2Proof.Config, (Sys2Proof.encode c i).length = i.words

theorem Sys2Proof.Laws.EncodedLength.nop :
    Sys2Proof.Laws.EncodedLength.Statement (.nop) := fun _ => rfl

theorem Sys2Proof.Laws.EncodedLength.ldMem (d x : Sys2Proof.Reg) (adr : Sys2Proof.Word) :
    Sys2Proof.Laws.EncodedLength.Statement (.ldMem d x adr) := fun _ => rfl

theorem Sys2Proof.Laws.EncodedLength.st (d x : Sys2Proof.Reg) (adr : Sys2Proof.Word) :
    Sys2Proof.Laws.EncodedLength.Statement (.st d x adr) := fun _ => rfl

theorem Sys2Proof.Laws.EncodedLength.lad (d x : Sys2Proof.Reg) (adr : Sys2Proof.Word) :
    Sys2Proof.Laws.EncodedLength.Statement (.lad d x adr) := fun _ => rfl

theorem Sys2Proof.Laws.EncodedLength.ldReg (d r : Sys2Proof.Reg) :
    Sys2Proof.Laws.EncodedLength.Statement (.ldReg d r) := fun _ => rfl

theorem Sys2Proof.Laws.EncodedLength.addaMem (d x : Sys2Proof.Reg) (adr : Sys2Proof.Word) :
    Sys2Proof.Laws.EncodedLength.Statement (.addaMem d x adr) := fun _ => rfl

theorem Sys2Proof.Laws.EncodedLength.subaMem (d x : Sys2Proof.Reg) (adr : Sys2Proof.Word) :
    Sys2Proof.Laws.EncodedLength.Statement (.subaMem d x adr) := fun _ => rfl

theorem Sys2Proof.Laws.EncodedLength.addlMem (d x : Sys2Proof.Reg) (adr : Sys2Proof.Word) :
    Sys2Proof.Laws.EncodedLength.Statement (.addlMem d x adr) := fun _ => rfl

theorem Sys2Proof.Laws.EncodedLength.sublMem (d x : Sys2Proof.Reg) (adr : Sys2Proof.Word) :
    Sys2Proof.Laws.EncodedLength.Statement (.sublMem d x adr) := fun _ => rfl

theorem Sys2Proof.Laws.EncodedLength.addaReg (d r : Sys2Proof.Reg) :
    Sys2Proof.Laws.EncodedLength.Statement (.addaReg d r) := fun _ => rfl

theorem Sys2Proof.Laws.EncodedLength.subaReg (d r : Sys2Proof.Reg) :
    Sys2Proof.Laws.EncodedLength.Statement (.subaReg d r) := fun _ => rfl

theorem Sys2Proof.Laws.EncodedLength.addlReg (d r : Sys2Proof.Reg) :
    Sys2Proof.Laws.EncodedLength.Statement (.addlReg d r) := fun _ => rfl

theorem Sys2Proof.Laws.EncodedLength.sublReg (d r : Sys2Proof.Reg) :
    Sys2Proof.Laws.EncodedLength.Statement (.sublReg d r) := fun _ => rfl

theorem Sys2Proof.Laws.EncodedLength.andMem (d x : Sys2Proof.Reg) (adr : Sys2Proof.Word) :
    Sys2Proof.Laws.EncodedLength.Statement (.andMem d x adr) := fun _ => rfl

theorem Sys2Proof.Laws.EncodedLength.orMem (d x : Sys2Proof.Reg) (adr : Sys2Proof.Word) :
    Sys2Proof.Laws.EncodedLength.Statement (.orMem d x adr) := fun _ => rfl

theorem Sys2Proof.Laws.EncodedLength.xorMem (d x : Sys2Proof.Reg) (adr : Sys2Proof.Word) :
    Sys2Proof.Laws.EncodedLength.Statement (.xorMem d x adr) := fun _ => rfl

theorem Sys2Proof.Laws.EncodedLength.andReg (d r : Sys2Proof.Reg) :
    Sys2Proof.Laws.EncodedLength.Statement (.andReg d r) := fun _ => rfl

theorem Sys2Proof.Laws.EncodedLength.orReg (d r : Sys2Proof.Reg) :
    Sys2Proof.Laws.EncodedLength.Statement (.orReg d r) := fun _ => rfl

theorem Sys2Proof.Laws.EncodedLength.xorReg (d r : Sys2Proof.Reg) :
    Sys2Proof.Laws.EncodedLength.Statement (.xorReg d r) := fun _ => rfl

theorem Sys2Proof.Laws.EncodedLength.cpaMem (d x : Sys2Proof.Reg) (adr : Sys2Proof.Word) :
    Sys2Proof.Laws.EncodedLength.Statement (.cpaMem d x adr) := fun _ => rfl

theorem Sys2Proof.Laws.EncodedLength.cplMem (d x : Sys2Proof.Reg) (adr : Sys2Proof.Word) :
    Sys2Proof.Laws.EncodedLength.Statement (.cplMem d x adr) := fun _ => rfl

theorem Sys2Proof.Laws.EncodedLength.cpaReg (d r : Sys2Proof.Reg) :
    Sys2Proof.Laws.EncodedLength.Statement (.cpaReg d r) := fun _ => rfl

theorem Sys2Proof.Laws.EncodedLength.cplReg (d r : Sys2Proof.Reg) :
    Sys2Proof.Laws.EncodedLength.Statement (.cplReg d r) := fun _ => rfl

theorem Sys2Proof.Laws.EncodedLength.sla (d x : Sys2Proof.Reg) (adr : Sys2Proof.Word) :
    Sys2Proof.Laws.EncodedLength.Statement (.sla d x adr) := fun _ => rfl

theorem Sys2Proof.Laws.EncodedLength.sra (d x : Sys2Proof.Reg) (adr : Sys2Proof.Word) :
    Sys2Proof.Laws.EncodedLength.Statement (.sra d x adr) := fun _ => rfl

theorem Sys2Proof.Laws.EncodedLength.sll (d x : Sys2Proof.Reg) (adr : Sys2Proof.Word) :
    Sys2Proof.Laws.EncodedLength.Statement (.sll d x adr) := fun _ => rfl

theorem Sys2Proof.Laws.EncodedLength.srl (d x : Sys2Proof.Reg) (adr : Sys2Proof.Word) :
    Sys2Proof.Laws.EncodedLength.Statement (.srl d x adr) := fun _ => rfl

theorem Sys2Proof.Laws.EncodedLength.jmi (x : Sys2Proof.Reg) (adr : Sys2Proof.Word) :
    Sys2Proof.Laws.EncodedLength.Statement (.jmi x adr) := fun _ => rfl

theorem Sys2Proof.Laws.EncodedLength.jnz (x : Sys2Proof.Reg) (adr : Sys2Proof.Word) :
    Sys2Proof.Laws.EncodedLength.Statement (.jnz x adr) := fun _ => rfl

theorem Sys2Proof.Laws.EncodedLength.jze (x : Sys2Proof.Reg) (adr : Sys2Proof.Word) :
    Sys2Proof.Laws.EncodedLength.Statement (.jze x adr) := fun _ => rfl

theorem Sys2Proof.Laws.EncodedLength.jump (x : Sys2Proof.Reg) (adr : Sys2Proof.Word) :
    Sys2Proof.Laws.EncodedLength.Statement (.jump x adr) := fun _ => rfl

theorem Sys2Proof.Laws.EncodedLength.jpl (x : Sys2Proof.Reg) (adr : Sys2Proof.Word) :
    Sys2Proof.Laws.EncodedLength.Statement (.jpl x adr) := fun _ => rfl

theorem Sys2Proof.Laws.EncodedLength.jov (x : Sys2Proof.Reg) (adr : Sys2Proof.Word) :
    Sys2Proof.Laws.EncodedLength.Statement (.jov x adr) := fun _ => rfl

theorem Sys2Proof.Laws.EncodedLength.push (x : Sys2Proof.Reg) (adr : Sys2Proof.Word) :
    Sys2Proof.Laws.EncodedLength.Statement (.push x adr) := fun _ => rfl

theorem Sys2Proof.Laws.EncodedLength.pop (d : Sys2Proof.Reg) :
    Sys2Proof.Laws.EncodedLength.Statement (.pop d) := fun _ => rfl

theorem Sys2Proof.Laws.EncodedLength.call (x : Sys2Proof.Reg) (adr : Sys2Proof.Word) :
    Sys2Proof.Laws.EncodedLength.Statement (.call x adr) := fun _ => rfl

theorem Sys2Proof.Laws.EncodedLength.ret :
    Sys2Proof.Laws.EncodedLength.Statement (.ret) := fun _ => rfl

theorem Sys2Proof.Laws.EncodedLength.svc (x : Sys2Proof.Reg) (adr : Sys2Proof.Word) :
    Sys2Proof.Laws.EncodedLength.Statement (.svc x adr) := fun _ => rfl

theorem Sys2Proof.Laws.EncodedLength.hlt :
    Sys2Proof.Laws.EncodedLength.Statement (.hlt) := fun _ => rfl
end

