-- ==== Sys2Proof/Laws/Service.lean ====
section
/-! SUPPORT. The services in their failing cases, and what of the state they can touch. -/
namespace Sys2Proof.Machine

/-- The input loop over a buffer inside the image. -/
theorem storeBytes_in_image : ∀ (bs : List Byte) (a : Nat) (s : State), (bs = [] ∨ a + bs.length ≤ s.cfg.memSize) →
    storeBytes a bs s = .done { s with mem := storedBytes a bs s.mem }
  | [], a, s, _ => rfl
  | b :: bs, a, s, h => by
    have h : a + (bs.length + 1) ≤ s.cfg.memSize := by simpa using h
    unfold storeBytes
    rw [serviceWrite_done.mpr ⟨by omega, rfl⟩]
    simp only [ServiceResult.andThen]
    rw [storeBytes_in_image bs (a+1) _ (.inr (by simp; omega))]; rfl

/-- The output loop over a buffer inside the image. -/
theorem outputCells_in_image : ∀ (n a : Nat) (s : State), (n = 0 ∨ a + n ≤ s.cfg.memSize) →
    outputCells a n s = .done
      { s with outStream := s.outStream ++ (List.range n).map fun i => (s.word (a + i)).extractLsb' 0 8 }
  | 0, a, s, _ => by simp [outputCells]
  | n+1, a, s, h => by
    have h : a + (n+1) ≤ s.cfg.memSize := by simpa using h
    unfold outputCells
    rw [State.memRead_eq (by omega)]
    simp only
    rw [outputCells_in_image n (a+1) _ (.inr (by simp; omega))]
    simp [State.emit, List.range_succ_eq_map, State.word, Function.comp_def, Nat.add_assoc, Nat.add_comm 1]

/-- When a service's write faults, and what it leaves. -/
theorem serviceWrite_stopped {a v s f t} : serviceWrite a v s = .stopped f t ↔ s.cfg.memSize ≤ a ∧ f =
      .illegalAccess ∧ t = s := by
  unfold serviceWrite
  cases h : s.memWrite a v with
  | ok u => simp [State.memWrite_ok] at h; simp; omega
  | error e => simp [State.memWrite_error] at h; simp [h, eq_comm]

/-- The input loop over a buffer that is not inside the image. -/
theorem storeBytes_past_image : ∀ (bs : List Byte) (a : Nat) (s : State), bs ≠ [] →
      s.cfg.memSize < a + bs.length → ∃ t, storeBytes a bs s = .stopped .illegalAccess t
  | [], _, _, h, _ => absurd rfl h
  | b :: bs, a, s, _, h => by
    unfold storeBytes
    by_cases ha : a < s.cfg.memSize
    · rw [serviceWrite_done.mpr ⟨ha, rfl⟩]
      simp at h
      obtain ⟨t, ht⟩ := storeBytes_past_image bs (a+1) (s.setWord a (b.setWidth 16))
            (by rintro rfl; simp at h; omega) (by simp; omega)
      exact ⟨t, ht⟩
    · rw [serviceWrite_stopped.mpr ⟨by omega, rfl, rfl⟩]; exact ⟨_, rfl⟩

/-- The output loop over a buffer that is not inside the image. -/
theorem outputCells_past_image : ∀ (n a : Nat) (s : State), n ≠ 0 → s.cfg.memSize < a + n → ∃ t,
      outputCells a n s = .stopped .illegalAccess t
  | 0, _, _, h, _ => absurd rfl h
  | n+1, a, s, _, h => by
    unfold outputCells
    by_cases ha : a < s.cfg.memSize
    · rw [State.memRead_eq ha]
      obtain ⟨t, ht⟩ := outputCells_past_image n (a+1) (s.emit ((s.word a).extractLsb' 0 8))
            (by rintro rfl; omega) (by simp; omega)
      exact ⟨t, ht⟩
    · rw [State.memRead_error.mpr ⟨by omega, rfl⟩]; exact ⟨_, rfl⟩

theorem serviceWrite_fault {a v s f t} (h : serviceWrite a v s = .stopped f t) : f = .illegalAccess := by
  unfold serviceWrite at h
  split at h
  · cases h
  · next e he => cases h; exact (State.memWrite_error.mp he).2

theorem storeBytes_stopped : ∀ bs a s f t, storeBytes a bs s = .stopped f t → f = .illegalAccess
  | [], a, s, f, t, h => by simp [storeBytes] at h
  | b :: bs, a, s, f, t, h => by
    unfold storeBytes at h
    cases hw : serviceWrite a (b.setWidth 16) s with
    | done u => rw [hw] at h; exact storeBytes_stopped bs _ u f t h
    | stopped g u => rw [hw] at h; cases h; exact serviceWrite_fault hw

theorem outputCells_stopped : ∀ n a s f t, outputCells a n s = .stopped f t → f = .illegalAccess
  | 0, a, s, f, t, h => by simp [outputCells] at h
  | n+1, a, s, f, t, h => by
    unfold outputCells at h
    split at h
    · exact outputCells_stopped n _ _ f t h
    · next e he => cases h; exact (State.memRead_error.mp he).2

/-- What a supervisor call can fault with. -/
theorem supervisorCall_stopped {x adr s f t} (h : supervisorCall x adr s = .stopped f t) : f = .illegalAccess ∨
      (f = .invalidOperation ∧ ∃ n, EaIs s adr x n ∧ n ≠ 1 ∧ n ≠ 2) := by
  unfold supervisorCall at h
  split at h
  · next e he => cases h; exact .inl (effectiveAddress_error.mp he).2.2
  · next n hn =>
    split at h
    · left; unfold inputService at h
      split at h
      · exact serviceWrite_fault h
      · next l rest _ =>
        cases hb : storeBytes (s.reg 1).toNat l (s.setInStream rest) with
        | done u => rw [hb] at h; exact serviceWrite_fault h
        | stopped g u => rw [hb] at h; cases h; exact storeBytes_stopped _ _ _ _ _ hb
    · split at h
      · left; unfold outputService at h
        split at h
        · next e he => cases h; exact (State.memRead_error.mp he).2
        · next v _ =>
          cases hb : outputCells (s.reg 1).toNat v.toNat s with
          | done u => rw [hb] at h; cases h
          | stopped g u => rw [hb] at h; cases h; exact outputCells_stopped _ _ _ _ _ hb
      · cases h; exact .inr ⟨rfl, n, effectiveAddress_ok.mp hn, by assumption, by assumption⟩

theorem serviceWrite_state (a v s) : ∃ m, (serviceWrite a v s).state = { s with mem := m } := by
  unfold serviceWrite
  split
  · next h => obtain ⟨_, rfl⟩ := State.memWrite_ok.mp h; exact ⟨_, rfl⟩
  · exact ⟨s.mem, rfl⟩

theorem storeBytes_state : ∀ bs a s, ∃ m, (storeBytes a bs s).state = { s with mem := m }
  | [], a, s => ⟨s.mem, rfl⟩
  | b :: bs, a, s => by
    unfold storeBytes
    cases h : serviceWrite a (b.setWidth 16) s with
    | done t =>
      obtain ⟨m, hm⟩ := storeBytes_state bs (a+1) t
      obtain ⟨_, rfl⟩ := serviceWrite_done.mp h
      exact ⟨m, hm⟩
    | stopped f t =>
      have := serviceWrite_state a (b.setWidth 16) s
      rwa [h] at this

theorem outputCells_state : ∀ n a s, ∃ o, (outputCells a n s).state = { s with outStream := o }
  | 0, a, s => ⟨s.outStream, rfl⟩
  | n+1, a, s => by
    unfold outputCells
    split
    · obtain ⟨o, ho⟩ := outputCells_state n (a+1) (s.emit _)
      exact ⟨o, ho⟩
    · exact ⟨s.outStream, rfl⟩

/-- Whether or not it faults, a supervisor call touches memory and the streams alone. -/
theorem supervisorCall_state (x adr s) :
    ∃ m ls os, (supervisorCall x adr s).state = { s with mem := m, inStream := ls, outStream := os } := by
  unfold supervisorCall
  split
  · exact ⟨s.mem, s.inStream, s.outStream, rfl⟩
  · split
    · unfold inputService
      split
      · obtain ⟨m, hm⟩ := serviceWrite_state (s.reg 2).toNat 0xFFFF s
        exact ⟨m, _, _, hm⟩
      · next l rest _ =>
        obtain ⟨m, hm⟩ := storeBytes_state l (s.reg 1).toNat (s.setInStream rest)
        cases h : storeBytes (s.reg 1).toNat l (s.setInStream rest) with
        | done t =>
          rw [h] at hm; change t = _ at hm; subst hm
          obtain ⟨m', hm'⟩ := serviceWrite_state (s.reg 2).toNat (w16 l.length) { s.setInStream rest with mem := m }
          exact ⟨m', rest, s.outStream, hm'⟩
        | stopped f t => rw [h] at hm; exact ⟨m, rest, s.outStream, hm⟩
    · split
      · unfold outputService
        split
        · exact ⟨s.mem, s.inStream, s.outStream, rfl⟩
        · next v _ =>
          obtain ⟨o, ho⟩ := outputCells_state v.toNat (s.reg 1).toNat s
          cases h : outputCells (s.reg 1).toNat v.toNat s with
          | done t => rw [h] at ho; change t = _ at ho; subst ho; exact ⟨s.mem, s.inStream, _, rfl⟩
          | stopped f t => rw [h] at ho; exact ⟨s.mem, s.inStream, _, ho⟩
      · exact ⟨s.mem, s.inStream, s.outStream, rfl⟩

end Sys2Proof.Machine
end

