-- ==== Sys2Proof/Laws/Run.lean ====
section
/-! SUPPORT. What a step and an iteration of the run loop can do, said once. -/
namespace Sys2Proof.Machine

/-- A completed `ExecOne` ran a decoded instruction. -/
theorem execOne_next {s t : State} (h : execOne s = .next t) : ∃ i, fetchDecode s = .ok i ∧ exec i
      (s.advance i.words) = .next t := by
  unfold execOne at h
  split at h
  · cases h
  · next i hi => exact ⟨i, hi, h⟩

/-- A decoded instruction lies inside the image. -/
theorem fetchDecode_ok {s : State} {i} (h : fetchDecode s = .ok i) : s.pc + i.words ≤ s.cfg.memSize ∧
      decode s.cfg (fetchable s) = .ok i := by
  have hd : decode s.cfg (fetchable s) = .ok i := by
    unfold fetchDecode at h
    split at h <;> simp_all
  refine ⟨?_, hd⟩
  obtain ⟨w, rest, o, adr, hw, ho, ha, hb⟩ := decode_ok hd
  have hop := buildInstr_op hb
  unfold Instr.words Op.words
  rw [hop]
  unfold fetchable at hw
  split at hw
  · split at hw
    · split <;> omega
    · cases hw
      rw [if_neg (by intro hf; have := ha hf; simp at this)]; omega
  · cases hw

/-- Everything a completed step can be: a breakpoint pause, or one instruction. -/
theorem step_next {s t : State} (h : Machine.step s = .next t) : s.halt = false ∧
    ((s.atBreakpoint = true ∧ t = s.noteCheck) ∨ (s.atBreakpoint = false ∧ ∃ i u, fetchDecode s.noteCheck =
          .ok i ∧ exec i (s.noteCheck.advance i.words) = .next u ∧ t = retire u)) := by
  simp only [Machine.step, stepOnce] at h
  split at h
  · cases h
  · next hh =>
    refine ⟨by simpa using hh, ?_⟩
    unfold iteration at h
    split at h
    · cases h; left; exact ⟨by assumption, rfl⟩
    · split at h
      · next u hu =>
        cases h
        obtain ⟨i, h1, h2⟩ := execOne_next hu
        right; exact ⟨by simp_all, i, u, h1, h2, rfl⟩
      · cases h
      · cases h

/-- Everything an iteration without a breakpoint can be: an instruction that completed, or a fault. -/
theorem iterate_cases (s : State) (hb : s.atBreakpoint = false) :
    (∃ i u, fetchDecode s.noteCheck = .ok i ∧ exec i (s.noteCheck.advance i.words) = .next u ∧ iterate s =
          some (completionCause u, retire u)) ∨
    (∃ f, execOne s.noteCheck = .fault f ∧ iterate s = some (f.cause, leftByFault s.noteCheck)) := by
  cases he : execOne s.noteCheck with
  | next u =>
    obtain ⟨i, h1, h2⟩ := execOne_next he
    left; exact ⟨i, u, h1, h2, by simp [iterate, hb, he]⟩
  | fault f => right; exact ⟨f, rfl, by simp [iterate, hb, he]⟩
  | refused r =>
    exfalso
    unfold execOne at he
    split at he
    · cases he
    · exact exec_not_refused _ _ _ he

/-- Past the image no word is fetched. -/
theorem wordsFetched_outside {s : State} (h : s.cfg.memSize ≤ s.pc) : wordsFetched s.cfg (fetchable s) = 0 := by
  unfold fetchable
  rw [if_neg (by omega)]
  rfl

/-- An instruction that decodes has been fetched whole. -/
theorem wordsFetched_of_decode {c : Config} {ws : List Word} {i : Instr} (h : decode c ws = .ok i) :
    wordsFetched c ws = i.words := by
  obtain ⟨w, rest, o, adr, rfl, ho, ha, hb⟩ := decode_ok h
  have hop := buildInstr_op hb
  unfold wordsFetched Instr.words Op.words
  simp only [ho, hop]
  split
  · next hf =>
    simp only [Bool.and_eq_true, Bool.not_eq_eq_eq_not, Bool.not_true] at hf
    rw [if_pos hf.1]
  · next hf =>
    rw [if_neg]
    intro hf'
    have := ha hf'
    cases rest <;> simp_all

/-- What a fault leaves: PC past the words fetched, and memory and streams touched by a supervisor call alone. -/
theorem leftByFault_eq (s) : ∃ m ls os,
    leftByFault s =
      { s with pc := s.pc + wordsFetched s.cfg (fetchable s), mem := m, inStream := ls, outStream := os } ∧
    ((∀ x adr, fetchDecode s ≠ .ok (.svc x adr)) → m = s.mem ∧ ls = s.inStream ∧ os = s.outStream) := by
  unfold leftByFault
  dsimp only
  split
  · next x adr hd =>
    obtain ⟨m, ls, os, h⟩ := supervisorCall_state x adr (s.advance (wordsFetched s.cfg (fetchable s)))
    exact ⟨m, ls, os, h, fun hn => absurd (by simp [fetchDecode, hd]) (hn x adr)⟩
  · exact ⟨s.mem, s.inStream, s.outStream, rfl, fun _ => ⟨rfl, rfl, rfl⟩⟩

/-- While a run is in progress the host can only wait for its stop (R12, R265). -/
theorem perform_during_run {y : System} (h : y.phase = .running) (op : HostOp) (hop : ∀ n, op ≠ .run n) :
    y.perform op = .error .runInProgress := by
  unfold System.perform
  rw [if_pos h]
  unfold System.duringRun
  split
  · next n => exact absurd rfl (hop n)
  · rfl

end Sys2Proof.Machine
end

