-- ==== Sys2Proof/Tests/Slice0.lean ====
section
/-! SUPPORT. Tests. The expected results come from spec/95_test_vectors.md (the vector's name stands in each docstring)
and, for the instruction words, from the field layout of R71 and the opcodes of R76 written out bit by bit. The
witnesses show, for each statement of Certificates/Slice0/Obligations.lean that has hypotheses, a state and operands
that meet them. -/
namespace Sys2Proof.Tests
open Sys2Proof.Machine

/-! ### Helpers -/

/-- The vectors' machine: an image of 0x0100 words, the other parameters at their defaults. -/
def small : Config := { Config.standard with memSize := 0x100 }

/-- The vectors' start state: reset, with the instruction's address 0x0010 in PC. -/
def base : State := { State.reset with pc := 0x10, sp := 0x100, cfg := small }

/-- One step, with the words at PC. -/
def one (s : State) (ws : List Word) : Result := Machine.step (s.placeAt s.pc ws)

/-- What is looked at in the next state; none if there is none. -/
def seen {α : Type} (f : State → α) : Result → Option α
  | .next t => some (f t)
  | .fault _ | .refused _ => none

/-- The fault of an outcome. -/
def faulted : Result → Option Fault
  | .fault f => some f
  | .next _ | .refused _ => none

/-- A register and the flags OF, SF, ZF. -/
def result (r : Reg) (t : State) : Word × Bool × Bool × Bool := (t.reg r, t.of, t.sf, t.zf)

/-- The state as the host finds it after an iteration of the run loop. -/
def stopOf (s : State) : Option (StopCause × Nat × Nat × Bool) :=
  (iterate s).map fun p => (p.1, p.2.pc, p.2.icount, p.2.stepFlag)

/-! ### WellFormed -/

/-- R76, R123: without `HAS_ST` the machine has no ST. -/
theorem test_st_is_ill_formed_without_its_parameter : (Instr.st 1 2 0x0040).wf Config.standard = false := by decide

theorem test_st_is_well_formed_with_its_parameter : (Instr.st 1 2 0x0040).wf Config.table = true := by decide

theorem test_ill_formed_word_is_rejected :
    decode Config.standard (encode Config.standard (.st 1 2 0x0040)) = .unassigned := by decide

/-! ### Decoding: words written out from R71, R72 and R76 -/

theorem test_decode_load_move :
    decode Config.table [0b00010000_0001_0011, 0x0020] = .ok (.ldMem 1 3 0x0020) ∧
    decode Config.table [0b00010001_0110_0101, 0x00FF] = .ok (.st 6 5 0x00FF) ∧
    decode Config.table [0b00010010_0111_0000, 0xFFFF] = .ok (.lad 7 0 0xFFFF) ∧
    decode Config.table [0b00010100_0001_0010] = .ok (.ldReg 1 2) := by decide

theorem test_decode_arithmetic :
    decode Config.table [0b00100000_0010_0001, 0x000D] = .ok (.addaMem 2 1 0x000D) ∧
    decode Config.table [0b00100001_0111_0100, 0x8000] = .ok (.subaMem 7 4 0x8000) ∧
    decode Config.table [0b00100010_0001_0010, 0x0040] = .ok (.addlMem 1 2 0x0040) ∧
    decode Config.table [0b00100011_0001_0110, 0x0040] = .ok (.sublMem 1 6 0x0040) ∧
    decode Config.table [0b00100100_0000_0111] = .ok (.addaReg 0 7) ∧
    decode Config.table [0b00100101_0101_0011] = .ok (.subaReg 5 3) ∧
    decode Config.table [0b00100110_0001_0010] = .ok (.addlReg 1 2) ∧
    decode Config.table [0b00100111_0100_0110] = .ok (.sublReg 4 6) := by decide

theorem test_decode_logical :
    decode Config.table [0b00110000_0001_0010, 0x0040] = .ok (.andMem 1 2 0x0040) ∧
    decode Config.table [0b00110001_0011_0000, 0x0041] = .ok (.orMem 3 0 0x0041) ∧
    decode Config.table [0b00110010_0101_0111, 0x0042] = .ok (.xorMem 5 7 0x0042) ∧
    decode Config.table [0b00110100_0001_0010] = .ok (.andReg 1 2) ∧
    decode Config.table [0b00110101_0011_0100] = .ok (.orReg 3 4) ∧
    decode Config.table [0b00110110_0101_0110] = .ok (.xorReg 5 6) := by decide

theorem test_decode_compare :
    decode Config.table [0b01000000_0001_0010, 0x0010] = .ok (.cpaMem 1 2 0x0010) ∧
    decode Config.table [0b01000001_0100_0101, 0x0064] = .ok (.cplMem 4 5 0x0064) ∧
    decode Config.table [0b01000100_0001_0010] = .ok (.cpaReg 1 2) ∧
    decode Config.table [0b01000101_0110_0000] = .ok (.cplReg 6 0) := by decide

theorem test_decode_shift :
    decode Config.table [0b01010000_0010_0001, 0x0002] = .ok (.sla 2 1 0x0002) ∧
    decode Config.table [0b01010001_0010_0011, 0x0001] = .ok (.sra 2 3 0x0001) ∧
    decode Config.table [0b01010010_0111_0000, 0x0010] = .ok (.sll 7 0 0x0010) ∧
    decode Config.table [0b01010011_0000_0110, 0xFFFF] = .ok (.srl 0 6 0xFFFF) := by decide

theorem test_decode_branch :
    decode Config.table [0b01100001_0000_0001, 0x0020] = .ok (.jmi 1 0x0020) ∧
    decode Config.table [0b01100010_0000_0010, 0x0021] = .ok (.jnz 2 0x0021) ∧
    decode Config.table [0b01100011_0000_0110, 0x0008] = .ok (.jze 6 0x0008) ∧
    decode Config.table [0b01100100_0000_0111, 0x0023] = .ok (.jump 7 0x0023) ∧
    decode Config.table [0b01100101_0000_0011, 0x0024] = .ok (.jpl 3 0x0024) ∧
    decode Config.table [0b01100110_0000_0100, 0x0025] = .ok (.jov 4 0x0025) := by decide

theorem test_decode_stack_and_system :
    decode Config.table [0b01110000_0000_0001, 0x0000] = .ok (.push 1 0x0000) ∧
    decode Config.table [0b01110001_0010_0000] = .ok (.pop 2) ∧
    decode Config.table [0b10000000_0000_0101, 0x8001] = .ok (.call 5 0x8001) ∧
    decode Config.table [0b10000001_0000_0000] = .ok .ret ∧
    decode Config.table [0b11110000_0000_0011, 0x0002] = .ok (.svc 3 0x0002) ∧
    decode Config.table [0b00000000_0000_0000] = .ok .nop ∧
    decode Config.table [0b11111111_0000_0000] = .ok .hlt := by decide

/-- A13, A14, B7, F16, G13, H2, I3. -/
theorem test_decode_rejects_and_ignores :
    decode Config.standard [0x1180, 0x0000] = .unassigned ∧
    decode Config.standard [0x1090, 0x0020] = .badRegister ∧
    decode Config.standard [0x2418] = .badRegister ∧
    decode Config.standard [0x6209, 0x0020] = .badRegister ∧
    decode Config.standard [0x8157] = .ok .ret ∧
    decode Config.standard [0x00A5] = .ok .nop ∧
    decode Config.standard [0x0100] = .unassigned ∧
    decode Config.standard [0x1010] = .truncated := by decide

/-- The table's numbering: the address word is bits 31..16. -/
theorem test_decode_table_word :
    decodeTableWord 32 0x00201013 = some (.ldMem 1 3 0x0020) ∧
    decodeTableWord 16 0x1412 = some (.ldReg 1 2) ∧
    decodeTableWord 16 0x1013 = some (.ldMem 1 3 0x0000) ∧
    decodeTableWord 16 0x0100 = none := by decide

/-- A table word is run by the very next step after reset, ST's too. -/
theorem test_fetch_word_runs_next :
    seen (result 1) (Machine.step (State.reset.withFetchWord 32 0x12341210)) = some (0x1234, false, false, false) ∧
    seen (fun t => (t.pc, t.icount)) (Machine.step (State.reset.withFetchWord 32 0x00001100)) = some (2, 1) ∧
    seen State.halt (Machine.step (State.reset.withFetchWord 16 0xFF00)) = some true := by decide

/-! ### Load and move -/

/-- A1, A2. -/
theorem test_ld_memory :
    seen (result 1) (one (base.setWord 0x20 0x8001) [0x1010, 0x0020]) = some (0x8001, false, true, false) ∧
    seen (result 1) (one { base.setReg 3 5 with of := true } [0x1013, 0x0020]) = some (0, false, false, true) := by
  decide

/-- A5, A6. -/
theorem test_ld_bounds :
    faulted (one base [0x1010, 0x0100]) = some .illegalAccess ∧
    seen (result 1) (one ((base.setReg 2 1).setWord 0 0x0077) [0x1012, 0xFFFF]) = some (0x0077, false, false, false) ∧
    faulted (one { base.setReg 2 1 with cfg := { small with eaWrap := .fault } } [0x1012, 0xFFFF])
      = some .illegalAccess := by decide

/-- A7, A8. -/
theorem test_ld_register :
    seen (result 1) (one { base with of := true, sf := true } [0x1412]) = some (0, false, false, true) ∧
    seen (result 3) (one (base.setReg 3 0x9000) [0x1433]) = some (0x9000, false, true, false) := by decide

/-- A9, A11. -/
theorem test_lad :
    seen (result 7) (one { base with of := true, sf := true, zf := true } [0x1270, 0xFFFF])
      = some (0xFFFF, true, true, true) ∧
    seen (result 1) (one (base.setReg 1 0xFFFF) [0x1211, 0x0001]) = some (0, false, false, false) := by decide

/-- R123: ST under `HAS_ST`, at the last word of the image and past it. -/
theorem test_st :
    seen (fun t => (t.word 0xFF, t.of)) (one { (base.setReg 6 0x8001) with of := true, cfg := { small with hasSt := true } }
      [0x1160, 0x00FF]) = some (0x8001, true) ∧
    faulted (one { base with cfg := { small with hasSt := true } } [0x1160, 0x0100]) = some .illegalAccess := by decide

/-! ### Arithmetic -/

/-- Section B, the function vectors of ADDA and ADDL. -/
theorem test_add_functions :
    addA 0x7FFF 0x0001 = (0x8000, true) ∧ addA 0x8000 0xFFFF = (0x7FFF, true) ∧ addA 0x8000 0x8000 = (0x0000, true) ∧
    addA 0xFFFF 0x0001 = (0x0000, false) ∧ addL 0xFFFE 0x0002 = (0x0000, true) ∧
    addL 0x7FFF 0x0001 = (0x8000, false) ∧ addL 0xFFFF 0xFFFF = (0xFFFE, true) ∧
    addL 0xFFFF 0x0000 = (0xFFFF, false) := by decide

/-- Section B, the function vectors of SUBA and SUBL. -/
theorem test_subtract_functions :
    subA 0x0003 0x0005 = (0xFFFE, false) ∧ subA 0x8000 0x0001 = (0x7FFF, true) ∧
    subA 0x0000 0x8000 = (0x8000, true) ∧ subA 0x7FFF 0xFFFF = (0x8000, true) ∧
    subL 0x0003 0x0005 = (0xFFFE, true) ∧ subL 0x8000 0x0001 = (0x7FFF, false) ∧
    subL 0x0000 0xFFFF = (0x0001, true) ∧ subL 0xFFFF 0x0000 = (0xFFFF, false) := by decide

/-- B1, B3, B4, and SUBA's memory form on the vector 0x8000 - 0x0001. -/
theorem test_arithmetic_memory :
    seen (result 1) (one ((base.setReg 1 0x7FFF).setWord 0x40 1) [0x2010, 0x0040]) = some (0x8000, true, true, false) ∧
    seen (result 1) (one (((base.setReg 1 0xFFFE).setReg 2 2).setWord 0x42 2) [0x2212, 0x0040])
      = some (0, true, false, true) ∧
    seen (result 1) (one ((base.setReg 1 3).setWord 0x40 5) [0x2310, 0x0040]) = some (0xFFFE, true, true, false) ∧
    seen (result 1) (one ((base.setReg 1 0x8000).setWord 0x40 1) [0x2110, 0x0040])
      = some (0x7FFF, true, false, false) := by decide

/-- B2, B5, and the register forms of ADDL and SUBL on the vectors 0xFFFE + 2 (S4) and 0 - 0xFFFF. -/
theorem test_arithmetic_register :
    seen (result 1) (one (base.setReg 1 0x4000) [0x2411]) = some (0x8000, true, true, false) ∧
    seen (result 5) (one (base.setReg 5 0x1234) [0x2555]) = some (0, false, false, true) ∧
    seen (result 1) (one ((base.setReg 1 0xFFFE).setReg 2 2) [0x2612]) = some (0, true, false, true) ∧
    seen (result 1) (one ((base.setReg 1 0).setReg 2 0xFFFF) [0x2712]) = some (1, true, false, false) := by decide

/-! ### Boolean -/

/-- C1, C3, C5. -/
theorem test_logical_memory :
    seen (result 1) (one { (base.setReg 1 0xF0F0).setWord 0x40 0x0FF0 with of := true } [0x3010, 0x0040])
      = some (0x00F0, false, false, false) ∧
    seen (result 1) (one ((base.setReg 1 0x8000).setWord 0x40 1) [0x3110, 0x0040]) = some (0x8001, false, true, false) ∧
    seen (result 1) (one ((base.setReg 1 0x00FF).setWord 0x40 0xFFFF) [0x3210, 0x0040])
      = some (0xFF00, false, true, false) := by decide

/-- C2, C4, C7. -/
theorem test_logical_register :
    seen (result 1) (one ((base.setReg 1 0xFF00).setReg 2 0x00FF) [0x3412]) = some (0, false, false, true) ∧
    seen (result 1) (one base [0x3512]) = some (0, false, false, true) ∧
    seen (result 1) (one ((base.setReg 1 0xAAAA).setReg 2 0x5555) [0x3612]) = some (0xFFFF, false, true, false) := by
  decide

/-! ### Compare -/

/-- D1, D3. -/
theorem test_compare_memory :
    seen (result 1) (one ((base.setReg 1 1).setWord 0x40 3) [0x4010, 0x0040]) = some (1, false, true, false) ∧
    seen (result 4) (one ((base.setReg 4 1).setWord 0x64 2) [0x4145, 0x0064]) = some (1, true, true, false) := by decide

/-- D2, D4. -/
theorem test_compare_register :
    seen (result 1) (one ((base.setReg 1 0x8000).setReg 2 1) [0x4412]) = some (0x8000, true, false, false) ∧
    seen (result 1) (one (base.setReg 1 0x8000) [0x4512]) = some (0x8000, false, true, false) := by decide

/-! ### Shifts -/

/-- Section E, the function vectors of SLA and SRA. -/
theorem test_arithmetic_shift_functions :
    shiftLeftA 0x4000 1 = (0x0000, true) ∧ shiftLeftA 0xC000 1 = (0x8000, false) ∧
    shiftLeftA 0xBFFF 1 = (0xFFFE, true) ∧ shiftLeftA 0x8001 16 = (0x8000, true) ∧
    shiftLeftA 0x7FFF 20 = (0x0000, false) ∧ shiftLeftA 0x1234 0 = (0x1234, false) ∧
    shiftRightA 0x8005 1 = (0xC002, true) ∧ shiftRightA 0x8000 15 = (0xFFFF, false) ∧
    shiftRightA 0x8000 16 = (0xFFFF, true) ∧ shiftRightA 0x7FFF 16 = (0x0000, false) ∧
    shiftRightA 0x8000 100 = (0xFFFF, true) ∧ shiftRightA 0x0007 0 = (0x0007, false) := by decide

/-- Section E, the function vectors of SLL and SRL. -/
theorem test_logical_shift_functions :
    shiftLeftL 0x4001 2 = (0x0004, true) ∧ shiftLeftL 0x0001 15 = (0x8000, false) ∧
    shiftLeftL 0x0001 16 = (0x0000, true) ∧ shiftLeftL 0xFFFF 17 = (0x0000, false) ∧
    shiftLeftL 0xFFFF 4 = (0xFFF0, true) ∧ shiftLeftL 0x8000 0 = (0x8000, false) ∧
    shiftRightL 0x0006 2 = (0x0001, true) ∧ shiftRightL 0x8000 16 = (0x0000, true) ∧
    shiftRightL 0x8000 17 = (0x0000, false) ∧ shiftRightL 0xFFFF 15 = (0x0001, true) ∧
    shiftRightL 0x8000 15 = (0x0001, false) ∧ shiftRightL 0xFFFF 0 = (0xFFFF, false) := by decide

/-- E1, E2, E3, E4. -/
theorem test_shift_instructions :
    seen (result 2) (one (base.setReg 2 5) [0x5020, 0x0002]) = some (0x0014, false, false, false) ∧
    seen (result 2) (one ((base.setReg 2 0xFFF4).setReg 3 1) [0x5123, 0x0001]) = some (0xFFFD, false, true, false) ∧
    seen (result 0) (one (base.setReg 0 3) [0x5200, 0x0001]) = some (0x0030, false, false, false) ∧
    seen (result 2) (one (base.setReg 2 6) [0x5320, 0x0002]) = some (0x0001, true, false, false) := by decide

/-- E5: a count is not an address. -/
theorem test_shift_count_is_no_address :
    seen (result 2) (one (base.setReg 2 0x8000) [0x5220, 0x0200]) = some (0, false, false, true) := by decide +kernel

/-! ### Jumps -/

/-- F2, F3, F4, F5, F6. -/
theorem test_jump_and_jpl :
    seen State.pc (one (base.setReg 1 0x30) [0x6401, 0x0000]) = some 0x30 ∧
    faulted (one base [0x6400, 0x0100]) = some .illegalAccess ∧
    seen State.pc (one base [0x6500, 0x0020]) = some 0x20 ∧
    seen State.pc (one { base with zf := true } [0x6500, 0x0020]) = some 0x12 ∧
    seen State.pc (one { base with sf := true } [0x6500, 0x0020]) = some 0x12 := by decide

/-- F7, F8, F9, F10. -/
theorem test_jmi_and_jnz :
    seen State.pc (one { base with sf := true } [0x6100, 0x0020]) = some 0x20 ∧
    seen State.pc (one base [0x6100, 0x0020]) = some 0x12 ∧
    seen State.pc (one base [0x6200, 0x0020]) = some 0x20 ∧
    seen State.pc (one { base with zf := true } [0x6200, 0x0020]) = some 0x12 := by decide

/-- F11, F12, F13, F14, F15. -/
theorem test_jze_and_jov :
    seen State.pc (one { base.setReg 6 2 with zf := true } [0x6306, 0x0008]) = some 0x0A ∧
    seen State.pc (one base [0x6300, 0xFFFF]) = some 0x12 ∧
    faulted (one { base with zf := true } [0x6300, 0xFFFF]) = some .illegalAccess ∧
    seen (fun t => (t.pc, t.of)) (one { base with of := true } [0x6600, 0x0030]) = some (0x30, true) ∧
    seen State.pc (one base [0x6600, 0x0030]) = some 0x12 := by decide

/-! ### Stack and subroutines -/

/-- G1, G2, G3. -/
theorem test_push :
    seen (fun t => (t.sp, t.word 0xFE)) (one { base.setReg 1 7 with sp := 0xFF } [0x7001, 0x0000]) = some (0xFE, 7) ∧
    seen (fun t => (t.sp, t.word 0xFF)) (one (base.setReg 0 3) [0x7000, 0x0005]) = some (0xFF, 8) ∧
    faulted (one { base with sp := 0 } [0x7000, 0x0005]) = some .stackOverflow := by decide

/-- G4, G5. -/
theorem test_pop :
    seen (fun t => (t.reg 2, t.sp, t.sf, t.word 0xFE)) (one { base.setWord 0xFE 0x8007 with sp := 0xFE } [0x7120])
      = some (0x8007, 0xFF, false, 0x8007) ∧
    faulted (one base [0x7120]) = some .stackUnderflow := by decide

/-- G6, G7, G8, G9. -/
theorem test_call :
    seen (fun t => (t.sp, t.word 0xFF, t.pc)) (one { base with pc := 2 } [0x8000, 0x0005]) = some (0xFF, 4, 5) ∧
    faulted (one { base with sp := 0 } [0x8000, 0x0005]) = some .stackOverflow ∧
    faulted (one { base with sp := 0 } [0x8000, 0x0100]) = some .stackOverflow ∧
    faulted (one { base with sp := 0x80 } [0x8000, 0x0100]) = some .illegalAccess := by decide

/-- G10, G11, G12, G13. -/
theorem test_ret :
    seen (fun t => (t.pc, t.sp)) (one { base.setWord 0xFF 4 with sp := 0xFF } [0x8100]) = some (4, 0x100) ∧
    faulted (one base [0x8100]) = some .stackUnderflow ∧
    seen (fun t => (t.pc, t.sp)) (one { base.setWord 0xFF 0x200 with sp := 0xFF } [0x8157]) = some (0x200, 0x100) := by
  decide

/-! ### System -/

/-- The state of H4 and H6: the buffer at 0x0020, the length cell at 0x0030. -/
def service : State := (base.setReg 1 0x20).setReg 2 0x30

/-- H4, H5, H14. -/
theorem test_output_service :
    seen State.outStream (one (((service.setWord 0x30 2).setWord 0x20 0x0141).setWord 0x21 0x42) [0xF000, 0x0002])
      = some [0x41, 0x42, 0x0A] ∧
    seen State.outStream (one service [0xF000, 0x0002]) = some [0x0A] ∧
    faulted (one (service.setReg 2 0x100) [0xF000, 0x0002]) = some .illegalAccess := by decide

/-- H6. -/
theorem test_input_service :
    seen (fun t => (t.word 0x20, t.word 0x21, t.word 0x30, t.inStream))
      (one { service with inStream := [[0x48, 0x69]] } [0xF000, 0x0001]) = some (0x48, 0x69, 2, []) := by decide

/-- H7, H8. -/
theorem test_input_service_without_characters :
    seen (fun t => (t.word 0x20, t.word 0x30)) (one (service.setWord 0x20 7) [0xF000, 0x0001]) = some (7, 0xFFFF) ∧
    seen (fun t => (t.word 0x20, t.word 0x30)) (one { (service.setWord 0x20 7).setWord 0x30 7 with inStream := [[]] }
      [0xF000, 0x0001]) = some (7, 0) := by decide

/-- H9, H10, H11, H12. -/
theorem test_supervisor_call_number :
    faulted (one base [0xF000, 0x0003]) = some .invalidOperation ∧
    faulted (one base [0xF000, 0x0000]) = some .invalidOperation ∧
    faulted (one (base.setReg 0 1) [0xF000, 0x0002]) = some .invalidOperation ∧
    seen State.outStream (one (service.setReg 0 1) [0xF000, 0x0001]) = some [0x0A] := by decide

/-- H13: what a service that faults part-way leaves. -/
theorem test_input_service_partial :
    (iterate { (service.setReg 1 0xFF).placeAt 0x10 [0xF000, 0x0001] with inStream := [[0x41, 0x42]] }).map
      (fun p => (p.1, p.2.word 0xFF, p.2.word 0x30, p.2.pc, p.2.icount))
      = some (.illegalAccess, 0x41, 0, 0x12, 0) := by decide

/-- H1, H2, H3. -/
theorem test_nop_and_hlt :
    seen (fun t => (t.pc, t.icount)) (one base [0x0000]) = some (0x11, 1) ∧
    seen (fun t => (t.pc, t.icount)) (one base [0x00A5]) = some (0x11, 1) ∧
    seen (fun t => (t.halt, t.pc, t.icount)) (one base [0xFF00]) = some (true, 0x11, 1) := by decide

/-! ### Fetch and the run loop -/

/-- A machine with an image of four words. -/
def four : State := { base with pc := 3, sp := 4, cfg := { small with memSize := 4 } }

/-- I1, I2, I4: PC after a fetch that faults is past the words fetched, and `ICOUNT` stays. -/
theorem test_fetch_faults_at_the_end_of_the_image :
    stopOf { four with pc := 4 } = some (.illegalAccess, 4, 0, false) ∧
    stopOf (four.placeAt 3 [0x1010]) = some (.illegalAccess, 4, 0, false) ∧
    stopOf (four.placeAt 3 [0x0100]) = some (.invalidOperation, 4, 0, false) := by decide

/-- A13, A14: the same for a decode that faults. -/
theorem test_decode_faults :
    stopOf (base.placeAt 0x10 [0x1180, 0x0000]) = some (.invalidOperation, 0x11, 0, false) ∧
    stopOf (base.placeAt 0x10 [0x1090, 0x0020]) = some (.invalidOperation, 0x12, 0, false) := by decide

/-- Program P1 in a machine as it is after a reset. -/
def p1 : State := { base with pc := 0 }.placeAt 0 [0x1230, 0x1234, 0xFF00]

/-- I5, I11: a breakpoint at PC, and the same with the single-step flag. -/
theorem test_breakpoint :
    stopOf { p1 with bp := [0] } = some (.breakpoint, 0, 0, false) ∧
    stopOf { p1 with bp := [0], lastChk := some 0 } = some (.ok, 2, 1, false) ∧
    stopOf { p1 with bp := [0], stepFlag := true } = some (.breakpoint, 0, 0, true) ∧
    stopOf { p1 with bp := [1] } = some (.ok, 2, 1, false) := by decide

/-- I8, I9: a single step, and a single step that halts. -/
theorem test_single_step :
    stopOf { p1 with stepFlag := true } = some (.singleStep, 2, 1, false) ∧
    stopOf { p1 with pc := 2, icount := 1, stepFlag := true } = some (.halt, 3, 2, true) := by decide

/-! ### The assembler and the linker -/

/-- Characters of a line. -/
def chars (s : String) : Text := s.toList

/-- The unit of section J: nothing defined, write offset 0x0010. -/
def fresh : Builder := { Builder.start [] with w := 0x10 }

/-- A line's code, the write offset after it, and the words it wrote. -/
def assembled (c : Config) (line : String) : Option (LineCode × Nat × List Word) :=
  match fresh.assembleLine c (chars line) with
  | .done code b => some (code, b.w, (List.range (b.w - 0x10)).map fun i => b.image.read (0x10 + i))
  | .refused _ => none

/-- J2, J12, J16, J29. -/
theorem test_assemble_words :
    assembled small "      LD   GR1,GR2 ; copy" = some (.ok, 0x11, [0x1412]) ∧
    assembled small "      LAD  GR1,65537" = some (.ok, 0x12, [0x1210, 0x0001]) ∧
    assembled small "MSG   DC   'It''s',0,#FFFF,-1"
      = some (.ok, 0x17, [0x49, 0x74, 0x27, 0x73, 0x0000, 0xFFFF, 0xFFFF]) ∧
    assembled small "      DC   'abc" = some (.ok, 0x13, [0x61, 0x62, 0x63]) := by decide +kernel

/-- J4, J5, J7, J14, J28. -/
theorem test_assemble_errors :
    assembled small "      LD" = some (.noOperand, 0x10, []) ∧
    assembled small "      LD   GR1" = some (.invalidOperand, 0x10, []) ∧
    assembled small "      RET  GR1" = some (.invalidOperand, 0x10, []) ∧
    assembled small "      LD   GR1,#00G1" = some (.invalidOperand, 0x10, []) ∧
    assembled small "      SVC  2" = some (.noOperator, 0x10, []) := by decide +kernel

/-- J22, J26, J27. -/
theorem test_assemble_macro_and_shift :
    assembled small "      IN   BUF,LEN" = some (.ok, 0x1C,
      [0x7001, 0, 0x7002, 0, 0x1210, 0, 0x1220, 0, 0xF000, 0x0001, 0x7120, 0x7110]) ∧
    assembled small "      SLA  3" = some (.ok, 0x12, [0x5000, 0x0003]) ∧
    assembled small "      SLA  GR2,3" = some (.invalidOperand, 0x10, []) ∧
    assembled { small with shiftShape := .regEadr } "      SLA  GR2,3" = some (.ok, 0x12, [0x5020, 0x0003]) := by
  decide +kernel

/-- R85, R87, R88: a literal of a quoted character; its text is the full form, with the quote doubled as in the source. -/
theorem test_constant_text :
    tokenize small (chars "='A'") = [.const 65 (chars "='A'")] ∧
    tokenize small (chars "=''''") = [.const 39 (chars "=''''")] := by decide

/-- U12: a run of spaces in a quoted string refuses the line, after `=` too; a single space does not. -/
theorem test_space_run_is_refused :
    (["      DC   'A  B'", "      LD   GR1,='  '", "      LD   GR1,='  "].map fun l =>
      fresh.assembleLine small (chars l)) = List.replicate 3 (.refused .spaceRunInString) ∧
    tokenize small (chars "=' '") = [.const 32 (chars "=' '")] := by decide +kernel

/-- A build of several files from offset 0, linked; the answer and the first words of the image. -/
def built (files : List (List String)) (n : Nat) : Option (Bool × List Word) :=
  match (Builder.start []).assembleFiles small (files.map fun f => f.map chars) with
  | .done _ b =>
    match b.link small with
    | .done ok _ b' => some (ok, (List.range n).map b'.image.read)
    | .refused _ => none
  | .refused _ => none

/-- K1. -/
theorem test_link_literals :
    built [["LD GR1,=5", "ADDA GR1,=5", "LD GR2,=#FFFF", "LD GR3,=-1", "HLT"]] 11 = some (true,
      [0x1010, 9, 0x2010, 9, 0x1020, 10, 0x1030, 10, 0xFF00, 5, 0xFFFF]) := by decide +kernel

/-- K2, K3. -/
theorem test_link_across_units :
    built [["X START", "NOP"], ["X NOP", "JUMP X"]] 4 = some (true, [0, 0, 0x6400, 0]) ∧
    built [["X NOP"], ["JUMP X"]] 3 = some (false, [0, 0x6400, 0]) := by decide +kernel

/-- K4. -/
theorem test_link_without_snapshot :
    (match (Builder.start []).assembleLines small [chars "L JUMP L"] with
      | .done _ b =>
        match b.link small with
        | .done ok _ b' => some (ok, b'.image.read 0, b'.image.read 1)
        | .refused _ => none
      | .refused _ => none) = some (true, 0x6400, 0) := by decide +kernel

/-! ### The host -/

/-- What the host is answered, operation by operation; an operation that is not accepted changes nothing. -/
def answers : List HostOp → System → List (Reply ⊕ HostRefusal)
  | [], _ => []
  | op :: ops, y =>
    match y.perform op with
    | .ok (a, y') => .inl a :: answers ops y'
    | .error e => .inr e :: answers ops y

/-- R33, R233, R276: a word that a line has appended is read at once; R12, R265: while a run is in progress only its stop
is waited for. -/
theorem test_host_reads_while_building_and_waits_while_running :
    answers [.assemble (chars "      HLT"), .readCell 0, .link, .reset, .run 0, .reset, .stepInstruction, .run 1, .reset]
      (System.start { base with pc := 0 }) =
    [.inl (.line .ok), .inl (.number 0xFF00), .inl (.linked true []), .inl .done,
     .inl .running, .inr .runInProgress, .inr .runInProgress, .inl (.stopped .halt), .inl .done] := by
  decide +kernel

/-! ### Witnesses: the hypotheses of the statements are met, at the bounds of their ranges -/

/-- A word at PC is run by a step. -/
def holding (s : State) (ws : List Word) : State := s.placeAt s.pc ws

theorem test_witness_ResetWritesRegistersFlagsAndCounter : { base with icount := 5, halt := true }.Inv := by decide

theorem test_witness_StepKeepsInvariant :
    (holding base [0x2411]).Inv ∧ (∃ t, Machine.step (holding base [0x2411]) = .next t) ∧
    { State.reset with pc := 65535 }.Inv ∧
    seen State.pc (Machine.step { State.reset with pc := 65535 }) = some 65536 :=
  ⟨by decide, ⟨_, rfl⟩, by decide, by decide⟩

/-- A one-word instruction that ends the image completes; a POP on the empty stack faults. -/
theorem test_witness_StepRunsDecodedInstruction :
    let s := holding { base with pc := 0xFF } [0x2411]
    let u := holding base [0x7120]
    (s.halt = false ∧ s.atBreakpoint = false ∧ s.pc + (Instr.addaReg 1 1).words ≤ s.cfg.memSize ∧
      decode s.cfg [s.word s.pc, s.word (s.pc + 1)] = .ok (.addaReg 1 1) ∧
      ∃ t, exec (.addaReg 1 1) (s.noteCheck.setPc (s.pc + 1)) = .next t) ∧
    (u.halt = false ∧ u.atBreakpoint = false ∧ u.pc + (Instr.pop 2).words ≤ u.cfg.memSize ∧
      decode u.cfg [u.word u.pc, u.word (u.pc + 1)] = .ok (.pop 2) ∧
      exec (.pop 2) (u.noteCheck.setPc (u.pc + 1)) = .fault .stackUnderflow) :=
  ⟨⟨by decide, by decide, by decide, by decide, _, rfl⟩, by decide, by decide, by decide, by decide, rfl⟩

/-- The clauses in the order of the statement: past the image; an unassigned opcode in the last word; a missing address
word; ids 8 in `d` and in `s`. -/
theorem test_witness_FetchFaultsInOrder :
    base.cfg.wf ∧ base.halt = false ∧ { base with pc := 0x100 }.atBreakpoint = false ∧
    { base with pc := 0x100 }.cfg.memSize ≤ 0x100 ∧
    (∀ o, small.hasOp o = true → small.opmap.code o ≠ opField 0x0100) ∧
    (small.hasOp .ldMem = true ∧ small.opmap.code .ldMem = opField 0x1010 ∧ Op.ldMem.format.hasAddress = true ∧
      0xFF + 1 = small.memSize ∧ (holding { base with pc := 0xFF } [0x1010]).word 0xFF = 0x1010) ∧
    (8 ≤ (dField 0x1080).toNat ∧ 8 ≤ (sField 0x1018).toNat ∧ Op.ldMem.format ∈ [Format.rr, .ra, .a] ∧
      0xFE + Op.ldMem.words ≤ small.memSize) :=
  ⟨by decide, by decide, by decide, by decide, opOf_none.mp (by decide), by decide, by decide⟩

theorem test_witness_StepCountsCompletedInstructions :
    (∃ t, Machine.step base = .next t) ∧ base.atBreakpoint = false ∧
    (∃ t, Machine.step { base with bp := [0x10] } = .next t) ∧ { base with bp := [0x10] }.atBreakpoint = true :=
  ⟨⟨_, rfl⟩, by decide, ⟨_, rfl⟩, by decide⟩

theorem test_witness_BreakpointPausesOnce :
    let s := { base with bp := [0x10] }
    s.halt = false ∧ s.pc ∈ s.bp ∧ s.lastChk ≠ some s.pc := by decide

theorem test_witness_HaltedMachineDoesNotRun : base.setHalt.halt = true := rfl

theorem test_witness_SingleStepEndsAfterOneInstruction : base.halt = false := rfl

theorem test_witness_RunNeverReturnsOk :
    (∃ t, run 3 (holding base [0xFF00]) = .stopped .halt t) ∧ ∃ t, run 3 { base with pc := 0xFE } = .stopped .illegalAccess t :=
  ⟨⟨_, rfl⟩, _, rfl⟩

/-- A fault of a POP, one of an SVC that has stored a word, and one of a first fetch. -/
theorem test_witness_FaultLeavesStateButPc :
    let s := holding base [0x7120]
    (s.atBreakpoint = false ∧ (∃ t, iterate s = some (Fault.cause .stackUnderflow, t)) ∧
      fetchDecode s = .ok (.pop 2)) ∧
    (let u := holding { service.setReg 1 0xFF with inStream := [[0x41, 0x42]] } [0xF000, 0x0001]
     u.atBreakpoint = false ∧ ∃ t, iterate u = some (Fault.cause .illegalAccess, t)) ∧
    (let v := { base with pc := 0x100 }
     v.atBreakpoint = false ∧ v.cfg.memSize ≤ v.pc ∧ ∃ t, iterate v = some (Fault.cause .illegalAccess, t)) :=
  ⟨⟨by decide, ⟨_, rfl⟩, by decide⟩, ⟨by decide, _, rfl⟩, by decide, by decide, _, rfl⟩

theorem test_witness_DecodeReadsBackEncoding :
    Config.table.opmap.wf ∧ (Instr.st 7 7 0xFFFF).wf Config.table = true ∧ (Instr.srl 7 0 0).wf Config.standard = true := by
  decide

theorem test_witness_EncodingAgreesWithDecodedWords :
    decode small [0x2417] = .ok (.addaReg 1 7) ∧ decode small [0x6497, 0x0001] = .ok (.jump 7 1) := by decide

/-- One operation of each format; the ignored fields differ. -/
theorem test_witness_UnusedFieldsAreIgnored :
    small.opmap.wf ∧ small.hasOp .ret = true ∧ Op.ret.format ∉ [Format.r, .rr, .ra] ∧
    Op.ret.format ∉ [Format.rr, .ra, .a] ∧ Op.pop.format ∈ [Format.r, .rr, .ra] ∧
    Op.pop.format ∉ [Format.rr, .ra, .a] ∧ Op.jump.format ∉ [Format.r, .rr, .ra] ∧
    Op.jump.format ∈ [Format.rr, .ra, .a] := by decide

theorem test_witness_UnassignedOpcodesAreRejected :
    ∀ o, Config.standard.hasOp o = true → Config.standard.opmap.code o ≠ opField 0x11FF := opOf_none.mp (by decide)

/-- The operands of the memory forms: the last address of the image and the first one past it. -/
theorem test_operands_at_the_bound :
    EaIs base 0x00FF 0 0xFF ∧ InImage base 0xFF ∧ EaIs base 0x0100 0 0x100 ∧ ¬ InImage base 0x100 :=
  ⟨rfl, by unfold InImage; decide, rfl, by unfold InImage; decide⟩

theorem test_witness_OnlyTheNamedInstructionsWriteMemory :
    base.mem.wf ∧ InImage base 0xFF ∧ ¬ InImage base 0x100 ∧
    seen (fun t => t.word 0xFF) (exec (.st 1 0 0x00FF) (base.setReg 1 7)) = some 7 ∧
    seen (fun t => t.word 0xFF) (exec (.call 0 0x0020) base) = some 0x10 ∧
    seen (fun t => t.word 0x30) (exec (.svc 0 1) service) = some 0xFFFF :=
  ⟨by decide, by unfold InImage; decide, by unfold InImage; decide, by decide, by decide, by decide⟩

/-- The last address of the image and the first one past it; each jump is taken in one of the two states; a stack with
room, and one that is full but for a word. -/
theorem test_witness_ReadsAreCheckedAgainstTheImage :
    (InImage base 0xFF ∧ ¬ InImage base 0x100) ∧
    effectiveAddress base 0x00FF 0 = .ok 0xFF ∧ effectiveAddress base 0x0100 0 = .ok 0x100 ∧
    (let s := { base with sf := true, of := true, zf := true }
     ((!base.sf && !base.zf) = true ∧ (!base.zf) = true) ∧ s.sf = true ∧ s.zf = true ∧ s.of = true) ∧
    (0 < base.sp ∧ base.sp ≤ base.cfg.memSize ∧ 0 < { base with sp := 1 }.sp) ∧
    seen State.pc (exec (.call 0 0x00FF) base) = some 0xFF ∧ base.pc ≠ 0xFF :=
  ⟨⟨test_operands_at_the_bound.2.1, test_operands_at_the_bound.2.2.2⟩, rfl, rfl, by decide, by decide, by decide, by decide⟩

theorem test_witness_MemoryIsItsReads :
    Memory.wf [(0, 1), (5, 2)] ∧ Memory.wf (Memory.write [(0, 1)] 5 2) ∧
    ∀ a, Memory.read [(0, 1), (5, 2)] a = (Memory.write [(0, 1)] 5 2).read a :=
  ⟨by decide, by decide, fun _ => rfl⟩

/-- The sums 65535 and 65536 under both settings of `EA_WRAP`. -/
theorem test_witness_EffectiveAddressAddsTheIndex :
    EaIs (base.setReg 0 1) 0xFFFE 0 0xFFFF ∧ EaIs (base.setReg 0 1) 0xFFFF 0 0 ∧
    (let s := { base.setReg 7 1 with cfg := { small with eaWrap := .fault } }
     s.cfg.eaWrap = .fault ∧ EaIs s 0xFFFE 7 0xFFFF ∧ 65536 ≤ (0xFFFF : Word).toNat + (s.reg 7).toNat) :=
  ⟨rfl, rfl, rfl, ⟨rfl, by decide⟩, by decide⟩

theorem test_witness_LoadsWriteRegisterAndFlags :
    EaIs base 0x00FF 0 0xFF ∧ InImage base 0xFF ∧ EaIs base 0x0100 0 0x100 ∧ ¬ InImage base 0x100 :=
  test_operands_at_the_bound

theorem test_witness_LoadAddressWritesTheEffectiveAddress :
    EaIs base 0x0100 0 0x100 ∧ base.cfg.ladSetsFlags = false ∧
    (let s := { base with cfg := { small with ladSetsFlags := true } }
     EaIs s 0xFFFF 0 0xFFFF ∧ s.cfg.ladSetsFlags = true) := ⟨rfl, rfl, rfl, rfl⟩

theorem test_witness_StoreWritesOneWord :
    base.mem.wf ∧ EaIs base 0x00FF 0 0xFF ∧ InImage base 0xFF ∧ EaIs base 0x0100 0 0x100 ∧ ¬ InImage base 0x100 :=
  ⟨by decide, test_operands_at_the_bound⟩

theorem test_witness_ArithmeticMemoryForms :
    EaIs base 0x00FF 0 0xFF ∧ InImage base 0xFF ∧ EaIs base 0x0100 0 0x100 ∧ ¬ InImage base 0x100 :=
  test_operands_at_the_bound

theorem test_witness_BooleanInstructionsWorkBitwise : EaIs base 0x00FF 0 0xFF ∧ InImage base 0xFF :=
  ⟨test_operands_at_the_bound.1, test_operands_at_the_bound.2.1⟩

/-- No address: past the image, or none at all under `EA_WRAP = fault`, where the sum 65536 is the first without one. -/
theorem test_witness_MemoryFormsFaultOutsideTheImage :
    (∀ a, EaIs base 0x0100 0 a → ¬ InImage base a) ∧
    (let s := { base.setReg 0 1 with cfg := { small with eaWrap := .fault } }
     (∀ a, EaIs s 0xFFFF 0 a → ¬ InImage s a) ∧ (∀ a, ¬ EaIs s 0xFFFF 0 a) ∧ EaIs s 0xFFFE 0 0xFFFF) :=
  ⟨fun _ h => EaIs.unique test_operands_at_the_bound.2.2.1 h ▸ test_operands_at_the_bound.2.2.2,
    fun _ h => absurd h.2 (by decide), fun _ h => absurd h.2 (by decide), rfl, by decide⟩

theorem test_witness_ComparesWriteOnlyFlags : EaIs base 0x00FF 0 0xFF ∧ InImage base 0xFF :=
  ⟨test_operands_at_the_bound.1, test_operands_at_the_bound.2.1⟩

theorem test_witness_CompareFlagsAreSubtractFlags :
    EaIs base 0x00FF 0 0xFF ∧ (∃ t, exec (.cpaMem 1 0 0x00FF) base = .next t) ∧
    (∃ u, exec (.subaMem 1 0 0x00FF) base = .next u) ∧ (∃ t, exec (.cplMem 1 0 0x00FF) base = .next t) ∧
    (∃ u, exec (.sublMem 1 0 0x00FF) base = .next u) ∧ (∃ t, exec (.cpaReg 1 2) base = .next t) ∧
    (∃ u, exec (.subaReg 1 2) base = .next u) ∧ (∃ t, exec (.cplReg 1 2) base = .next t) ∧
    ∃ u, exec (.sublReg 1 2) base = .next u :=
  ⟨rfl, ⟨_, rfl⟩, ⟨_, rfl⟩, ⟨_, rfl⟩, ⟨_, rfl⟩, ⟨_, rfl⟩, ⟨_, rfl⟩, ⟨_, rfl⟩, _, rfl⟩

/-- The counts 0, 15, 16 and 65535. -/
theorem test_witness_ArithmeticShiftsMoveBits :
    EaIs base 0 0 0 ∧ EaIs base 15 0 15 ∧ EaIs base 16 0 16 ∧ EaIs base 0xFFFF 0 65535 := ⟨rfl, rfl, rfl, rfl⟩

theorem test_witness_LogicalShiftsMoveBits :
    EaIs base 0 0 0 ∧ EaIs base 16 0 16 ∧ EaIs base 17 0 17 ∧ EaIs base 0xFFFF 0 65535 := ⟨rfl, rfl, rfl, rfl⟩

theorem test_witness_JumpsTransferControl :
    EaIs base 0x00FF 0 0xFF ∧ InImage base 0xFF ∧ (∀ a, EaIs base 0x0100 0 a → ¬ InImage base a) ∧
    ((!base.sf && !base.zf) = true ∧ (!base.zf) = true ∧ base.sf = false ∧ base.of = false) :=
  ⟨test_operands_at_the_bound.1, test_operands_at_the_bound.2.1, test_witness_MemoryFormsFaultOutsideTheImage.1,
    by decide⟩

/-- SP at the end of the image, at 1 and at 0. -/
theorem test_witness_PushStoresBelowTheTop :
    base.mem.wf ∧ base.sp = base.cfg.memSize ∧ base.sp ≠ 0 ∧ EaIs base 0xFFFF 0 65535 ∧
    { base with sp := 1 }.sp ≠ 0 ∧ EaIs { base with sp := 0 } 0 0 0 ∧ { base with sp := 0 }.sp = 0 :=
  ⟨by decide, by decide, by decide, rfl, by decide, rfl, rfl⟩

theorem test_witness_PopTakesTheTop :
    { base with sp := 0xFF }.sp < base.cfg.memSize ∧ base.cfg.memSize ≤ base.sp ∧ base.cfg.popSetsFlags = false ∧
    { base with sp := 0xFF, cfg := { small with popSetsFlags := true } }.cfg.popSetsFlags = true := by decide

/-- SP at the end of the image and at 0, the target in the image and past it. -/
theorem test_witness_CallPushesReturnAddress :
    base.mem.wf ∧ base.sp ≤ base.cfg.memSize ∧ base.sp ≠ 0 ∧ EaIs base 0x00FF 0 0xFF ∧ InImage base 0xFF ∧
    EaIs base 0x0100 0 0x100 ∧ ¬ InImage base 0x100 ∧ { base with sp := 0 }.sp = 0 :=
  ⟨by decide, by decide, by decide, test_operands_at_the_bound.1, test_operands_at_the_bound.2.1,
    test_operands_at_the_bound.2.2.1, test_operands_at_the_bound.2.2.2, rfl⟩

theorem test_witness_ReturnLoadsPcFromTheTop :
    { base with sp := 0xFF }.sp < base.cfg.memSize ∧ base.cfg.memSize ≤ base.sp := by decide

theorem test_witness_CallThenReturnResumes :
    base.Inv ∧ EaIs base 0x00FF 0 0xFF ∧ InImage base 0xFF ∧ base.sp ≠ 0 :=
  ⟨by decide, test_operands_at_the_bound.1, test_operands_at_the_bound.2.1, by decide⟩

theorem test_witness_PushThenPopGivesBack : base.Inv ∧ EaIs base 0xFFFF 0 65535 ∧ base.sp ≠ 0 :=
  ⟨by decide, rfl, by decide⟩

theorem test_witness_StackAccessesStayInTheImage :
    base.sp ≤ base.cfg.memSize ∧ EaIs base 0x00FF 0 0xFF ∧ InImage base 0xFF :=
  ⟨by decide, test_operands_at_the_bound.1, test_operands_at_the_bound.2.1⟩

/-- A line that ends with the image, the count cell in the buffer; and an empty line. -/
theorem test_witness_InputServiceStoresTheLine :
    let s := { (base.setReg 1 0xFE).setReg 2 0xFF with inStream := [[0x41, 0x42]] }
    let u := { service with inStream := [[]] }
    (s.mem.wf ∧ EaIs s 1 0 1 ∧ s.inStream = [0x41, 0x42] :: [] ∧ InImage s (s.reg 2).toNat ∧
      (s.reg 1).toNat + [0x41, 0x42].length ≤ s.cfg.memSize) ∧
    (EaIs u 1 0 1 ∧ u.inStream = [] :: [] ∧ InImage u (u.reg 2).toNat) :=
  ⟨⟨by decide, rfl, rfl, by unfold InImage; decide, by decide⟩, rfl, rfl, by unfold InImage; decide⟩

theorem test_witness_InputServiceAtEndOfInput :
    service.mem.wf ∧ EaIs service 1 0 1 ∧ service.inStream = [] ∧ InImage service (service.reg 2).toNat ∧
    ¬ InImage (service.setReg 2 0x100) ((service.setReg 2 0x100).reg 2).toNat :=
  ⟨by decide, rfl, rfl, by unfold InImage; decide, by unfold InImage; decide⟩

/-- A count of 0, and a buffer that ends with the image. -/
theorem test_witness_OutputServiceWritesTheCells :
    let s := (service.setReg 1 0xFE).setWord 0x30 2
    EaIs service 2 0 2 ∧ InImage service (service.reg 2).toNat ∧ service.word (service.reg 2).toNat = 0 ∧
    EaIs s 2 0 2 ∧ InImage s (s.reg 2).toNat ∧ (s.reg 1).toNat + (s.word (s.reg 2).toNat).toNat = s.cfg.memSize :=
  ⟨rfl, by unfold InImage; decide, by decide, rfl, by unfold InImage; decide, by decide⟩

/-- The numbers 0 and 3; the count cell past the image; a line and a count that reach one word past it. -/
theorem test_witness_SupervisorCallFaults :
    let u := { service.setReg 1 0xFF with inStream := [[0x41, 0x42]] }
    let v := (service.setReg 1 0xFF).setWord 0x30 2
    EaIs base 0 0 0 ∧ EaIs base 3 0 3 ∧ EaIs (base.setReg 2 0x100) 1 0 1 ∧
    ¬ InImage (base.setReg 2 0x100) ((base.setReg 2 0x100).reg 2).toNat ∧
    (EaIs u 1 0 1 ∧ u.cfg.memSize < (u.reg 1).toNat + [0x41, 0x42].length) ∧
    (EaIs v 2 0 2 ∧ v.word (v.reg 2).toNat ≠ 0 ∧
      v.cfg.memSize < (v.reg 1).toNat + (v.word (v.reg 2).toNat).toNat) :=
  ⟨rfl, rfl, rfl, by unfold InImage; decide, ⟨rfl, by decide⟩, rfl, by decide, by decide⟩

theorem test_witness_HaltIsSetByHltAlone :
    (∃ t, exec .hlt base = .next t) ∧ (∃ t, exec .nop base = .next t) ∧ base.halt = false ∧
    (∃ t, Machine.step (holding base [0xFF00]) = .next t ∧ t.halt = true) ∧ ∃ t, Machine.step base = .next t ∧ t.halt = false :=
  ⟨⟨_, rfl⟩, ⟨_, rfl⟩, rfl, ⟨_, rfl, rfl⟩, _, rfl, rfl⟩

theorem test_witness_InstructionsKeepTheLoopState :
    ∃ t, exec (.pop 1) { base with sp := 0xFF, bp := [3], stepFlag := true } = .next t := ⟨_, rfl⟩

/-- A completed output service, an instruction that leaves the stream, and an iteration that faults. -/
theorem test_witness_OutputOnlyGrows :
    (EaIs service 2 0 2 ∧ ∃ t, exec (.svc 0 2) service = .next t) ∧ (∃ t, exec .nop base = .next t) ∧
    ∃ c t, iterate (holding base [0x7120]) = some (c, t) := ⟨⟨rfl, _, rfl⟩, ⟨_, rfl⟩, _, _, rfl⟩

theorem test_witness_FlagsAreLeftBy :
    (∃ t, exec (.jump 0 0x00FF) base = .next t) ∧ (∃ t, exec (.st 1 0 0x00FF) base = .next t) ∧
    (base.cfg.ladSetsFlags = false ∧ ∃ t, exec (.lad 1 0 0) base = .next t) ∧
    (base.cfg.popSetsFlags = false ∧ ∃ t, exec (.pop 1) { base with sp := 0xFF } = .next t) :=
  ⟨⟨_, rfl⟩, ⟨_, rfl⟩, ⟨rfl, _, rfl⟩, rfl, _, rfl⟩

theorem test_witness_RegistersAreWrittenOnlyByDestination :
    seen (fun t => t.reg 1) (exec (.lad 1 0 7) base) = some 7 ∧ base.reg 1 ≠ 7 := by decide

theorem test_witness_FaultsComeFromTheNamedInstructions :
    exec (.push 0 5) { base with sp := 0 } = .fault .stackOverflow ∧
    exec (.call 0 0x0100) { base with sp := 0 } = .fault .stackOverflow ∧
    exec .ret base = .fault .stackUnderflow ∧ exec (.pop 1) base = .fault .stackUnderflow ∧
    exec (.svc 0 3) base = .fault .invalidOperation := ⟨rfl, rfl, rfl, rfl, rfl⟩

theorem test_witness_TheseInstructionsAlwaysComplete : base.cfg.eaWrap = .wrap := rfl

/-- A line that is accepted and one that is not. -/
theorem test_witness_AssemblyIsAppendOnly :
    (∃ b, fresh.assembleLine small (chars "      LD   GR1,GR2 ; copy") = .done .ok b) ∧
    ∃ b, fresh.assembleLine small (chars "      LD   GR1") = .done .invalidOperand b :=
  ⟨⟨_, rfl⟩, _, rfl⟩

/-- A build with a closed unit, an open one, a definition, a start label, a reference and a literal reference. -/
def unit : Builder :=
  { Builder.start [(0, 0x2010), (2, 0x6400)] with
    w := 4
    tables := ⟨[(chars "L", 0)], [(chars "L", 3)], [chars "M"]⟩
    units := [⟨[(chars "L", 0)], [], [chars "X"]⟩]
    externs := [(chars "X", 0), (chars "M", 0)]
    litRefs := [(5, 1)] }

/-- A plain label, a start label, and a name that the unit has defined by a start label. -/
theorem test_witness_BuildingKeepsInvariant :
    Memory.wf [(0, 1)] ∧ unit.Inv ∧ (∃ b, unit.assembleLine small (chars "N NOP") = .done .ok b) ∧
    (∃ b, unit.assembleLine small (chars "N START") = .done .ok b) ∧
    ∃ b, unit.assembleLine small (chars "M NOP") = .done .multiplyDefinedSymbol b :=
  ⟨by decide, by unfold Builder.Inv; decide, ⟨_, rfl⟩, ⟨_, rfl⟩, _, rfl⟩

/-- The register form, numbers, a label and a literal; no operand; and the largest index register. -/
theorem test_witness_AssembledInstructionsDecode :
    small.opmap.wf ∧ small.hasOp Mnemonic.ld.op = true ∧
    instrBody small .ld [.reg 1, .comma, .reg 2] = .ok (wordItems [0x1412]) ∧
    instrBody small .ld [.reg 1, .comma, .dec (-1), .comma, .reg 7] = .ok (wordItems [0x1017, 0xFFFF]) ∧
    instrBody small .jump [.label (chars "L")] = .ok [.word 0x6400, .ref (chars "L")] ∧
    instrBody small .ld [.reg 7, .comma, .const 5 (chars "=5")] = .ok [.word 0x1070, .literal 5] ∧
    instrBody small .ret [] = .ok (wordItems [0x8100]) := by decide

/-- A label and a literal as operands, and a builder to append to. -/
theorem test_witness_InOutExpandToSevenInstructions :
    AddressToken (.label (chars "L")) (.ref (chars "L")) ∧ AddressToken (.const 5 (chars "=5")) (.literal 5) ∧
    unit.image.wf := ⟨.label _, .const _ _, by decide⟩

/-- A link that succeeds, and one with a reference to nothing. -/
theorem test_witness_LinkPatchesEveryReference :
    unit.Inv ∧ (∃ us b, unit.link small = .done true us b) ∧
    (let u := { unit with tables := { unit.tables with defs := [] } }
     u.Inv ∧ ∃ us b, u.link small = .done false us b) :=
  ⟨by unfold Builder.Inv; decide, ⟨_, _, rfl⟩, by unfold Builder.Inv; decide, _, _, rfl⟩

end Sys2Proof.Tests
end

section
/-! The effective address (R8, D7), and the illegal accesses of the instructions that use one: outside the image for a
memory form, without any effective address for every other form. -/
namespace Sys2Proof.Machine

/-! ### The effective address -/

/-- Under `wrap` the sum is reduced. -/
theorem eaIs_iff_of_wrap {s : State} {adr : Word} {x : Reg} {a : Nat} (hw : s.cfg.eaWrap = .wrap) :
    EaIs s adr x a ↔ a = (adr.toNat + (s.reg x).toNat) % 65536 := by
  unfold EaIs
  rw [hw]

/-- Under `fault` the sum stands only below 65536. -/
theorem eaIs_iff_of_fault {s : State} {adr : Word} {x : Reg} {a : Nat} (hf : s.cfg.eaWrap = .fault) :
    EaIs s adr x a ↔ a = adr.toNat + (s.reg x).toNat ∧ adr.toNat + (s.reg x).toNat < 65536 := by
  unfold EaIs
  rw [hf]

/-- Settles O21: both directions of `effectiveAddress_ok`, and the sum under each setting of `EA_WRAP`. -/
theorem effectiveAddressAddsTheIndex : Obligations.EffectiveAddressAddsTheIndex := by
  intro s adr x a
  refine ⟨effectiveAddress_ok, fun hw => ?_, fun hf hsum => ?_, EaIs.lt⟩
  · exact effectiveAddress_ok.mpr ((eaIs_iff_of_wrap hw).mpr rfl)
  · exact effectiveAddress_error.mpr ⟨hf, hsum, rfl⟩

/-- An operand has no effective address exactly when its sum is too large under `EA_WRAP = fault`. -/
theorem forall_not_eaIs_iff {s : State} {adr : Word} {x : Reg} :
    (∀ a, ¬ EaIs s adr x a) ↔ s.cfg.eaWrap = .fault ∧ 65536 ≤ adr.toNat + (s.reg x).toNat := by
  cases hc : s.cfg.eaWrap with
  | wrap => simp [eaIs_iff_of_wrap hc]
  | fault => simp [eaIs_iff_of_fault hc]

/-- Without an effective address, computing it is an illegal access. -/
theorem effectiveAddress_of_forall_not_eaIs {s : State} {adr : Word} {x : Reg} (h : ∀ a, ¬ EaIs s adr x a) :
    effectiveAddress s adr x = .error .illegalAccess := by
  obtain ⟨hf, hsum⟩ := forall_not_eaIs_iff.mp h
  exact effectiveAddress_error.mpr ⟨hf, hsum, rfl⟩

/-! ### Memory forms with no address inside the image -/

section
variable {s : State} {adr : Word} {x : Reg} (h : ∀ a, EaIs s adr x a → ¬ InImage s a)
include h

theorem memForm_none_inside (f : Word → Word → Word × Bool) (d : Reg) :
    memForm f d x adr s = .fault .illegalAccess := by
  unfold memForm
  rw [memOperand_none_inside h]
  rfl

theorem compareMem_none_inside (f : Word → Word → Word × Bool) (d : Reg) :
    compareMem f d x adr s = .fault .illegalAccess := by
  unfold compareMem
  rw [memOperand_none_inside h]
  rfl

theorem execSt_none_inside (d : Reg) : execSt d x adr s = .fault .illegalAccess := by
  refine conclude_fault.mpr (except_bind_error.mpr ?_)
  cases he : effectiveAddress s adr x with
  | ok a =>
    have hout : s.cfg.memSize ≤ a := Nat.le_of_not_lt (h a (effectiveAddress_ok.mp he))
    exact .inr ⟨a, rfl, State.memWrite_error.mpr ⟨hout, rfl⟩⟩
  | error f => exact .inl (by rw [effectiveAddress_fault he])

end

/-! ### Instructions that use the address itself, without one -/

/-- A computation that begins with an effective address, where there is none. -/
theorem conclude_effectiveAddress_bind {s : State} {adr : Word} {x : Reg} (h : ∀ a, ¬ EaIs s adr x a)
    (k : Nat → Except Fault State) : conclude (effectiveAddress s adr x >>= k) = .fault .illegalAccess := by
  rw [effectiveAddress_of_forall_not_eaIs h]
  rfl

/-- SVC reports the missing address before it looks at its number. -/
theorem execSvc_of_forall_not_eaIs {s : State} {adr : Word} {x : Reg} (h : ∀ a, ¬ EaIs s adr x a) :
    execSvc x adr s = .fault .illegalAccess := by
  unfold execSvc supervisorCall
  rw [effectiveAddress_of_forall_not_eaIs h]
  rfl

/-- Settles O29: each instruction by the lemma of its shape. -/
theorem memoryFormsFaultOutsideTheImage : Obligations.MemoryFormsFaultOutsideTheImage := by
  intro s d x adr
  refine ⟨fun h i hi => ?_, forall_not_eaIs_iff, fun h i hi => ?_⟩
  · have computed (f : Word → Word → Word × Bool) := memForm_none_inside h f d
    have compared (f : Word → Word → Word × Bool) := compareMem_none_inside h f d
    simp only [List.mem_cons, List.not_mem_nil, or_false] at hi
    obtain rfl | rfl | rfl | rfl | rfl | rfl | rfl | rfl | rfl | rfl | rfl := hi
    exacts [computed _, execSt_none_inside h d, computed _, computed _, computed _, computed _, computed _,
      computed _, computed _, compared _, compared _]
  · have first := conclude_effectiveAddress_bind h
    simp only [List.mem_cons, List.not_mem_nil, or_false] at hi
    obtain rfl | rfl | rfl | rfl | rfl | rfl | rfl | rfl := hi
    exacts [first _, first _, first _, first _, first _, first _, first _, execSvc_of_forall_not_eaIs h]

end Sys2Proof.Machine
end

section
/-! The effects an instruction can have, as the cases of one relation (`exec_next` with names), and what follows for every
instruction: the invariant of the state is kept, and each part of the state is written by the instructions that name it. -/
namespace Sys2Proof.Machine

/-- `Effect i s t`: the next state `t` comes from `s` by one of the state changes that `i` has. -/
inductive Effect (i : Instr) (s : State) : State → Prop
  | result {d : Reg} {p : Word × Bool} (hi : resultReg i = some d) : Effect i s (s.writeBack d p)
  | compare {o : Bool} {r : Word} (hi : isCompare i = true) : Effect i s (s.setOSZ o r)
  | fallThrough (hi : isJump i = true) : Effect i s s
  | jump {a : Nat} (hi : isJump i = true) (ha : a < s.cfg.memSize) : Effect i s (s.setPc a)
  | nop (hi : i = .nop) : Effect i s s
  | hlt (hi : i = .hlt) : Effect i s s.setHalt
  | ladResult {d x : Reg} {adr v : Word} (hi : i = .lad d x adr) (hc : s.cfg.ladSetsFlags = true) :
      Effect i s (s.writeBack d (v, false))
  | ladMove {d x : Reg} {adr v : Word} (hi : i = .lad d x adr) : Effect i s (s.setReg d v)
  | store {d x : Reg} {adr v : Word} {a : Nat} (hi : i = .st d x adr) (ha : a < s.cfg.memSize) :
      Effect i s (s.setWord a v)
  | push {x : Reg} {adr v : Word} (hi : i = .push x adr) (hsp : s.sp - 1 < s.cfg.memSize) :
      Effect i s ((s.setSp (s.sp - 1)).setWord (s.sp - 1) v)
  | popResult {d : Reg} {v : Word} (hi : i = .pop d) (hsp : s.sp < s.cfg.memSize) (hc : s.cfg.popSetsFlags = true) :
      Effect i s ((s.setSp (s.sp + 1)).writeBack d (v, false))
  | popMove {d : Reg} {v : Word} (hi : i = .pop d) (hsp : s.sp < s.cfg.memSize) :
      Effect i s ((s.setSp (s.sp + 1)).setReg d v)
  | call {x : Reg} {adr v : Word} {a : Nat} (hi : i = .call x adr) (hsp : s.sp - 1 < s.cfg.memSize)
      (ha : a < s.cfg.memSize) : Effect i s (((s.setSp (s.sp - 1)).setWord (s.sp - 1) v).setPc a)
  | ret {v : Word} (hi : i = .ret) (hsp : s.sp < s.cfg.memSize) : Effect i s ((s.setSp (s.sp + 1)).setPc v.toNat)
  | input {x : Reg} {adr : Word} {m : Memory} {ls : List Line} (hi : i = .svc x adr) (hwf : s.mem.wf → m.wf)
      (hbound : (∀ e ∈ s.mem, e.1 < s.cfg.memSize) → ∀ e ∈ m, e.1 < s.cfg.memSize) :
      Effect i s { s with mem := m, inStream := ls }
  | output {x : Reg} {adr : Word} {bytes : List Byte} (hi : i = .svc x adr) (hea : EaIs s adr x 2) :
      Effect i s { s with outStream := s.outStream ++ bytes }

/-- A completed instruction had one of its effects. -/
theorem exec_effect {i : Instr} {s t : State} (h : exec i s = .next t) : Effect i s t := by
  obtain ⟨d, p, hi, rfl⟩ | ⟨p, hi, rfl⟩ | ⟨hi, rfl | ⟨a, ha, rfl⟩⟩ | ⟨hi, rfl⟩ | ⟨hi, rfl⟩ | ⟨d, x, adr, a, hi, -, rfl⟩ |
    ⟨d, x, adr, a, hi, -, ha, rfl⟩ | ⟨x, adr, a, hi, -, -, hsp, rfl⟩ | ⟨d, hi, hsp, rfl⟩ |
    ⟨x, adr, a, hi, -, -, ha, hsp, rfl⟩ | ⟨hi, hsp, rfl⟩ |
    ⟨x, adr, hi, ⟨-, m, ls, rfl, hwf, hbound, -⟩ | ⟨hea, bytes, rfl⟩⟩ := exec_next h
  · exact .result hi
  · exact .compare hi
  · exact .fallThrough hi
  · exact .jump hi ha
  · exact .nop hi
  · exact .hlt hi
  · split
    · next hc => exact .ladResult hi hc
    · exact .ladMove hi
  · exact .store hi ha
  · exact .push hi hsp
  · split
    · next hc => exact .popResult hi hsp hc
    · exact .popMove hi hsp
  · exact .call hi hsp ha
  · exact .ret hi hsp
  · exact .input hi hwf hbound
  · exact .output hi hea

/-! ### The invariant -/

/-- The flags of one result are not both 1: a word with the sign bit is not zero. -/
theorem not_sign_and_zero (r : Word) : ¬(r.getLsbD 15 = true ∧ (r == 0) = true) := by
  rintro ⟨hsign, hzero⟩
  rw [eq_of_beq hzero] at hsign
  cases hsign

/-- Every instruction keeps the invariant. -/
theorem exec_keeps_inv {i : Instr} {s t : State} (hs : s.Inv) (h : exec i s = .next t) : t.Inv := by
  obtain ⟨hcfg, hsp, hpc, hwf, hbound, hbp, hflags⟩ := hs
  have hmem : s.cfg.memSize ≤ 65536 := hcfg.2.1
  cases exec_effect h with
  | result | compare | ladResult => exact ⟨hcfg, hsp, hpc, hwf, hbound, hbp, not_sign_and_zero _⟩
  | fallThrough | nop | hlt | ladMove | output => exact ⟨hcfg, hsp, hpc, hwf, hbound, hbp, hflags⟩
  | jump _ ha => exact ⟨hcfg, hsp, by simp; omega, hwf, hbound, hbp, hflags⟩
  | store _ ha =>
    exact ⟨hcfg, hsp, hpc, Memory.wf_write hwf _ _, Memory.bound_write _ hbound ha, hbp, hflags⟩
  | push _ ha =>
    exact ⟨hcfg, ha.le, hpc, Memory.wf_write hwf _ _, Memory.bound_write _ hbound ha, hbp, hflags⟩
  | popResult _ ha => exact ⟨hcfg, ha, hpc, hwf, hbound, hbp, not_sign_and_zero _⟩
  | popMove _ ha => exact ⟨hcfg, ha, hpc, hwf, hbound, hbp, hflags⟩
  | call _ ha htarget =>
    exact ⟨hcfg, ha.le, by simp; omega, Memory.wf_write hwf _ _, Memory.bound_write _ hbound ha, hbp, hflags⟩
  | @ret v _ ha => exact ⟨hcfg, ha, by have := v.isLt; simp; omega, hwf, hbound, hbp, hflags⟩
  | input _ hwf' hbound' => exact ⟨hcfg, hsp, hpc, hwf' hwf, hbound' hbound, hbp, hflags⟩

/-- What the loop does after an instruction touches nothing that the invariant speaks of. -/
theorem retire_keeps_inv {s : State} (hs : s.Inv) : (retire s).Inv := by
  unfold retire
  split <;> exact hs

/-- The fetch keeps the invariant: PC goes past an instruction that lies inside the image. -/
theorem advance_keeps_inv {s : State} {i : Instr} (hs : s.Inv) (hf : fetchDecode s = .ok i) :
    (s.advance i.words).Inv := by
  obtain ⟨hcfg, hsp, -, hmem⟩ := hs
  have hin := (fetchDecode_ok hf).1
  have hmax : s.cfg.memSize ≤ 65536 := hcfg.2.1
  exact ⟨hcfg, hsp, by simp; omega, hmem⟩

/-- Settles O3: a pause records the check alone; an instruction is fetched, executed and counted, and each of the three
keeps the invariant. -/
theorem stepKeepsInvariant : Obligations.StepKeepsInvariant := by
  intro s t hs h
  have hnote : s.noteCheck.Inv := hs
  obtain ⟨-, ⟨-, rfl⟩ | ⟨-, i, u, hf, hu, rfl⟩⟩ := step_next h
  · exact hnote
  · exact retire_keeps_inv (exec_keeps_inv (advance_keeps_inv hnote hf) hu)

/-! ### The state of the run loop, and HALT -/

/-- Settles O48: none of the effects writes the loop's state. -/
theorem instructionsKeepTheLoopState : Obligations.InstructionsKeepTheLoopState := by
  intro i s t h
  cases exec_effect h <;> exact ⟨rfl, rfl, rfl, rfl, rfl⟩

/-- HLT sets HALT. -/
theorem exec_hlt (s : State) : exec .hlt s = .next s.setHalt := rfl

/-- Every other instruction leaves it. -/
theorem exec_halt_of_ne {i : Instr} {s t : State} (h : exec i s = .next t) (hi : i ≠ .hlt) : t.halt = s.halt := by
  cases exec_effect h with
  | hlt hlt => exact absurd hlt hi
  | _ => rfl

theorem exec_halt_iff {i : Instr} {s t : State} (h : exec i s = .next t) :
    t.halt = true ↔ s.halt = true ∨ i = .hlt := by
  by_cases hi : i = .hlt
  · subst hi
    cases h
    simp
  · simp [exec_halt_of_ne h hi, hi]

@[simp] theorem retire_halt (t : State) : (retire t).halt = t.halt := by
  unfold retire
  split <;> rfl

/-! ### The condition flags -/

/-- The instructions that write OF, SF and ZF: those with a computed result, the compares, and LAD and POP under their
parameters. -/
def setsFlags (c : Config) (i : Instr) : Bool :=
  (resultReg i).isSome || isCompare i ||
    match i with
    | .lad _ _ _ => c.ladSetsFlags
    | .pop _ => c.popSetsFlags
    | _ => false

theorem exec_condFlagsKept {i : Instr} {s t : State} (h : exec i s = .next t) (hi : setsFlags s.cfg i = false) :
    CondFlagsKept s t := by
  cases exec_effect h with
  | result hr => simp [setsFlags, hr] at hi
  | compare hc => simp [setsFlags, hc] at hi
  | ladResult hlad hc | popResult hpop _ hc =>
    subst i
    simp [setsFlags, hc] at hi
  | _ => exact ⟨rfl, rfl, rfl⟩

/-- Settles O51: none of the instructions listed is one that sets the flags. -/
theorem flagsAreLeftBy : Obligations.FlagsAreLeftBy := by
  intro s t d x adr i hi h
  refine exec_condFlagsKept h ?_
  obtain hi | ⟨rfl, hc⟩ | ⟨rfl, hc⟩ := hi
  · simp only [List.mem_cons, List.not_mem_nil, or_false] at hi
    obtain rfl | rfl | rfl | rfl | rfl | rfl | rfl | rfl | rfl | rfl | rfl | rfl | rfl := hi <;> rfl
  · simpa [setsFlags, resultReg, isCompare] using hc
  · simpa [setsFlags, resultReg, isCompare] using hc

/-! ### The general registers -/

/-- A register that an instruction changes is its destination. -/
theorem exec_reg_changed {i : Instr} {s t : State} {r : Reg} (h : exec i s = .next t) (hr : t.reg r ≠ s.reg r) :
    resultReg i = some r ∨ (∃ x adr, i = .lad r x adr) ∨ i = .pop r := by
  have destination {u : State} {d : Reg} {v : Word} (hu : (u.setReg d v).reg r ≠ u.reg r) : d = r :=
    not_not.mp fun hne => hu (u.setReg_reg_other v (Ne.symm hne))
  cases exec_effect h with
  | result hi => exact .inl (destination hr ▸ hi)
  | ladResult hi | ladMove hi => exact .inr (.inl ⟨_, _, destination hr ▸ hi⟩)
  | popResult hi | popMove hi => exact .inr (.inr (destination (u := s.setSp _) hr ▸ hi))
  | _ => exact absurd rfl hr

/-- The instructions with a computed result, by their destination. -/
theorem resultReg_eq_some {i : Instr} {r : Reg} (h : resultReg i = some r) :
    (∃ x adr, i ∈ [Instr.ldMem r x adr, .addaMem r x adr, .subaMem r x adr, .addlMem r x adr, .sublMem r x adr,
        .andMem r x adr, .orMem r x adr, .xorMem r x adr, .sla r x adr, .sra r x adr, .sll r x adr, .srl r x adr]) ∨
    (∃ q, i ∈ [Instr.ldReg r q, .addaReg r q, .subaReg r q, .addlReg r q, .sublReg r q, .andReg r q, .orReg r q,
        .xorReg r q]) := by
  cases i <;> cases h <;> simp

/-- Settles O52: a changed register is a destination, and the instructions that have one are those listed. -/
theorem registersAreWrittenOnlyByDestination : Obligations.RegistersAreWrittenOnlyByDestination := by
  intro i s t r h hr
  obtain hi | ⟨x, adr, rfl⟩ | rfl := exec_reg_changed h hr
  · obtain ⟨x, adr, hi⟩ | ⟨q, hi⟩ := resultReg_eq_some hi
    · refine .inl ⟨x, adr, ?_⟩
      simp only [List.mem_cons] at hi ⊢
      tauto
    · exact .inr (.inl ⟨q, hi⟩)
  · exact .inl ⟨x, adr, by simp⟩
  · exact .inr (.inr rfl)

end Sys2Proof.Machine
end

section
/-! Memory as a list (R33): a canonical list is determined by its reads. -/
namespace Sys2Proof.Machine

namespace Memory

/-- A canonical list does not begin below every address of another one that reads like it: its first address is listed,
and would be unlisted there. -/
theorem not_head_lt_of_read_eq {e : Nat × Word} {m m' : Memory} (h : Memory.wf (e :: m))
    (hread : ∀ a, Memory.read (e :: m) a = m'.read a) : ¬ ∀ e' ∈ m', e.1 < e'.1 := fun hlt =>
  h.2 e (List.mem_cons_self ..) <|
    calc e.2 = Memory.read (e :: m) e.1 := by simp [read]
      _ = m'.read e.1 := hread e.1
      _ = unlisted := read_of_lt hlt

/-- Canonical lists that read alike begin with addresses that are not in rising order. -/
theorem not_head_lt_head {e e' : Nat × Word} {m m' : Memory} (h : Memory.wf (e :: m)) (h' : Memory.wf (e' :: m'))
    (hread : ∀ a, Memory.read (e :: m) a = Memory.read (e' :: m') a) : ¬ e.1 < e'.1 := fun hlt =>
  not_head_lt_of_read_eq h hread (List.forall_mem_cons.mpr ⟨hlt, fun f hf => hlt.trans (wf_head h' f hf)⟩)

/-- Canonical lists that begin with the same address and read alike have tails that read alike. -/
theorem read_tail_eq {k : Nat} {w w' : Word} {m m' : Memory} (h : Memory.wf ((k, w) :: m))
    (h' : Memory.wf ((k, w') :: m')) (hread : ∀ a, Memory.read ((k, w) :: m) a = Memory.read ((k, w') :: m') a)
    (a : Nat) : m.read a = m'.read a := by
  by_cases ha : k = a
  · subst ha
    rw [read_of_lt (wf_head h), read_of_lt (wf_head h')]
  · simpa [read, ha] using hread a

/-- Memories in canonical form that read alike are equal. -/
theorem eq_of_read_eq : ∀ {m m' : Memory}, m.wf → m'.wf → (∀ a, m.read a = m'.read a) → m = m'
  | [], [], _, _, _ => rfl
  | [], _ :: _, _, h', hread => absurd (by simp) (not_head_lt_of_read_eq h' fun a => (hread a).symm)
  | _ :: _, [], h, _, hread => absurd (by simp) (not_head_lt_of_read_eq h hread)
  | (k, w) :: m, (k', w') :: m', h, h', hread => by
    have hk : k = k' :=
      le_antisymm (not_lt.mp (not_head_lt_head h' h fun a => (hread a).symm)) (not_lt.mp (not_head_lt_head h h' hread))
    subst hk
    have hw : w = w' := by simpa [read] using hread k
    rw [hw, eq_of_read_eq (wf_tail h) (wf_tail h') (read_tail_eq h h' hread)]

end Memory

/-- Settles O20: the laws of a write, and extensionality by induction over the two lists. -/
theorem memoryIsItsReads : Obligations.MemoryIsItsReads :=
  ⟨fun m _ v h => ⟨Memory.wf_write h _ v, Memory.read_write_same h _ v, fun _ hb => Memory.read_write_other m v hb⟩,
    fun _ _ => Memory.eq_of_read_eq⟩

end Sys2Proof.Machine
end

section
/-! What no instruction reads: HALT, the state of the run loop, and the output stream. A change of these fields
commutes with every operation of the machine, and so with every instruction. -/
namespace Sys2Proof.Machine

/-- A change of the fields that no instruction reads: a function for each, and bytes put in front of the output. -/
structure UnreadChange where
  halt : Bool → Bool := id
  stepFlag : Bool → Bool := id
  icount : Nat → Nat := id
  bp : List Nat → List Nat := id
  lastChk : Option Nat → Option Nat := id
  outFront : List Byte := []

namespace UnreadChange

/-- The changed state. -/
def apply (k : UnreadChange) (s : State) : State :=
  { s with
    halt := k.halt s.halt
    stepFlag := k.stepFlag s.stepFlag
    icount := k.icount s.icount
    bp := k.bp s.bp
    lastChk := k.lastChk s.lastChk
    outStream := k.outFront ++ s.outStream }

variable (k : UnreadChange)

/-! ### The operations -/

theorem effectiveAddress_apply (s : State) (adr : Word) (x : Reg) :
    effectiveAddress (k.apply s) adr x = effectiveAddress s adr x := rfl

theorem reg_apply (s : State) (r : Reg) : (k.apply s).reg r = s.reg r := rfl

theorem memRead_apply (s : State) (a : Nat) : (k.apply s).memRead a = s.memRead a := rfl

theorem emit_apply (s : State) (b : Byte) : (k.apply s).emit b = k.apply (s.emit b) := by
  simp [apply, State.emit]

theorem memWrite_apply (s : State) (a : Nat) (v : Word) :
    (k.apply s).memWrite a v = (s.memWrite a v).map k.apply := by
  unfold State.memWrite
  rw [apply_ite (Except.map k.apply)]
  rfl

theorem push_apply (s : State) (v : Word) : (k.apply s).push v = (s.push v).map k.apply := by
  unfold State.push
  rw [apply_ite (Except.map k.apply), ← memWrite_apply]
  rfl

theorem pop_apply (s : State) : (k.apply s).pop = s.pop.map (Prod.map id k.apply) := by
  rw [State.pop_eq, State.pop_eq, apply_ite (Except.map _)]
  rfl

/-! ### Sequences -/

/-- A sequence whose rest commutes with the change. -/
theorem bind_apply {α : Type} (m : Except Fault α) {g g' : α → Except Fault State}
    (h : ∀ a, g' a = (g a).map k.apply) : m >>= g' = (m >>= g).map k.apply := by
  cases m with
  | ok a => exact h a
  | error f => rfl

/-- A sequence that goes on from a changed state. -/
theorem map_bind_apply (m : Except Fault State) {g : State → Except Fault State}
    (h : ∀ t, g (k.apply t) = (g t).map k.apply) : m.map k.apply >>= g = (m >>= g).map k.apply := by
  cases m with
  | ok t => exact h t
  | error f => rfl

theorem conclude_map (r : Except Fault State) : conclude (r.map k.apply) = mapNext k.apply (conclude r) := by
  cases r <;> rfl

/-- An instruction that is such a sequence. -/
theorem conclude_bind {α : Type} (m : Except Fault α) {g g' : α → Except Fault State}
    (h : ∀ a, g' a = (g a).map k.apply) : conclude (m >>= g') = mapNext k.apply (conclude (m >>= g)) :=
  (congrArg conclude (k.bind_apply m h)).trans (k.conclude_map _)

/-! ### The instruction shapes -/

theorem memForm_apply (f : Word → Word → Word × Bool) (d x : Reg) (adr : Word) (s : State) :
    memForm f d x adr (k.apply s) = mapNext k.apply (memForm f d x adr s) :=
  k.conclude_bind (memOperand s adr x) fun _ => rfl

theorem compareMem_apply (f : Word → Word → Word × Bool) (d x : Reg) (adr : Word) (s : State) :
    compareMem f d x adr (k.apply s) = mapNext k.apply (compareMem f d x adr s) :=
  k.conclude_bind (memOperand s adr x) fun _ => rfl

theorem shiftForm_apply (f : Word → Nat → Word × Bool) (d x : Reg) (adr : Word) (s : State) :
    shiftForm f d x adr (k.apply s) = mapNext k.apply (shiftForm f d x adr s) :=
  k.conclude_bind (effectiveAddress s adr x) fun _ => rfl

theorem jumpForm_apply (taken : Bool) (x : Reg) (adr : Word) (s : State) :
    jumpForm taken x adr (k.apply s) = mapNext k.apply (jumpForm taken x adr s) := by
  cases taken with
  | true => exact k.conclude_bind (jumpTarget s adr x) fun _ => rfl
  | false => rfl

theorem execLad_apply (d x : Reg) (adr : Word) (s : State) :
    execLad d x adr (k.apply s) = mapNext k.apply (execLad d x adr s) := by
  refine k.conclude_bind (effectiveAddress s adr x) fun a => congrArg Except.ok ?_
  rw [apply_ite k.apply]
  rfl

theorem execSt_apply (d x : Reg) (adr : Word) (s : State) :
    execSt d x adr (k.apply s) = mapNext k.apply (execSt d x adr s) :=
  k.conclude_bind (effectiveAddress s adr x) fun a => k.memWrite_apply s a (s.reg d)

theorem execPush_apply (x : Reg) (adr : Word) (s : State) :
    execPush x adr (k.apply s) = mapNext k.apply (execPush x adr s) :=
  k.conclude_bind (effectiveAddress s adr x) fun _ => k.push_apply s _

theorem execPop_apply (d : Reg) (s : State) : execPop d (k.apply s) = mapNext k.apply (execPop d s) := by
  unfold execPop
  rw [pop_apply]
  cases s.pop with
  | ok p =>
    refine congrArg Host.Outcome.next ?_
    rw [apply_ite k.apply]
    rfl
  | error f => rfl

theorem execRet_apply (s : State) : execRet (k.apply s) = mapNext k.apply (execRet s) := by
  unfold execRet
  rw [pop_apply]
  cases s.pop with
  | ok p => rfl
  | error f => rfl

theorem execCall_apply (x : Reg) (adr : Word) (s : State) :
    execCall x adr (k.apply s) = mapNext k.apply (execCall x adr s) := by
  refine k.conclude_bind (effectiveAddress s adr x) fun a => ?_
  rw [apply_ite (Except.map k.apply)]
  refine congrArg (ite (s.sp = 0) _) (k.bind_apply (s.checkTarget a) fun _ => ?_)
  rw [push_apply]
  exact k.map_bind_apply (s.push _) fun _ => rfl

/-! ### The services -/

/-- The changed result of a service. -/
def applyService : ServiceResult → ServiceResult
  | .done t => .done (k.apply t)
  | .stopped f t => .stopped f (k.apply t)

theorem andThen_applyService (r : ServiceResult) {g g' : State → ServiceResult}
    (h : ∀ t, g' (k.apply t) = k.applyService (g t)) :
    (k.applyService r).andThen g' = k.applyService (r.andThen g) := by
  cases r with
  | done t => exact h t
  | stopped f t => rfl

theorem serviceWrite_apply (a : Nat) (v : Word) (s : State) :
    serviceWrite a v (k.apply s) = k.applyService (serviceWrite a v s) := by
  unfold serviceWrite
  rw [memWrite_apply]
  cases s.memWrite a v <;> rfl

theorem storeBytes_apply : ∀ (bs : List Byte) (a : Nat) (s : State),
    storeBytes a bs (k.apply s) = k.applyService (storeBytes a bs s)
  | [], _, _ => rfl
  | b :: bs, a, s => by
    unfold storeBytes
    rw [serviceWrite_apply]
    exact k.andThen_applyService _ (storeBytes_apply bs (a + 1))

theorem outputCells_apply : ∀ (n a : Nat) (s : State),
    outputCells a n (k.apply s) = k.applyService (outputCells a n s)
  | 0, _, _ => rfl
  | n + 1, a, s => by
    unfold outputCells
    rw [memRead_apply]
    cases s.memRead a with
    | ok c => simp only [emit_apply, outputCells_apply n]
    | error f => rfl

theorem inputService_apply (s : State) : inputService (k.apply s) = k.applyService (inputService s) := by
  have hin : (k.apply s).inStream = s.inStream := rfl
  unfold inputService
  rw [hin]
  cases s.inStream with
  | nil => exact k.serviceWrite_apply _ _ s
  | cons line rest =>
    have hstore := k.storeBytes_apply line (s.reg 1).toNat (s.setInStream rest)
    exact (congrArg (ServiceResult.andThen · _) hstore).trans
      (k.andThen_applyService _ (k.serviceWrite_apply _ _))

theorem outputService_apply (s : State) : outputService (k.apply s) = k.applyService (outputService s) := by
  unfold outputService
  rw [memRead_apply, reg_apply, reg_apply]
  cases s.memRead (s.reg 2).toNat with
  | ok len =>
    dsimp only
    rw [outputCells_apply]
    exact k.andThen_applyService _ fun t => congrArg ServiceResult.done (k.emit_apply t lineTerminator)
  | error f => rfl

theorem supervisorCall_apply (x : Reg) (adr : Word) (s : State) :
    supervisorCall x adr (k.apply s) = k.applyService (supervisorCall x adr s) := by
  unfold supervisorCall
  rw [effectiveAddress_apply]
  cases effectiveAddress s adr x with
  | ok n =>
    dsimp only
    rw [inputService_apply, outputService_apply]
    split
    · rfl
    · split <;> rfl
  | error f => rfl

theorem execSvc_apply (x : Reg) (adr : Word) (s : State) :
    execSvc x adr (k.apply s) = mapNext k.apply (execSvc x adr s) := by
  unfold execSvc
  rw [supervisorCall_apply]
  cases supervisorCall x adr s <;> rfl

/-! ### The instructions -/

/-- Every instruction commutes with the change; HLT, which sets HALT, with one that leaves a HALT of 1 as it is. -/
theorem exec_apply (i : Instr) (s : State) (hi : i = .hlt → k.halt true = true) :
    exec i (k.apply s) = mapNext k.apply (exec i s) := by
  cases i
  case nop => rfl
  case hlt => simp [exec_hlt, mapNext, apply, State.setHalt, hi]
  case lad d x adr => exact k.execLad_apply d x adr s
  case st d x adr => exact k.execSt_apply d x adr s
  case push x adr => exact k.execPush_apply x adr s
  case pop d => exact k.execPop_apply d s
  case call x adr => exact k.execCall_apply x adr s
  case ret => exact k.execRet_apply s
  case svc x adr => exact k.execSvc_apply x adr s
  case jump x adr => exact k.jumpForm_apply true x adr s
  case jpl x adr => exact k.jumpForm_apply (!s.sf && !s.zf) x adr s
  case jmi x adr => exact k.jumpForm_apply s.sf x adr s
  case jnz x adr => exact k.jumpForm_apply (!s.zf) x adr s
  case jze x adr => exact k.jumpForm_apply s.zf x adr s
  case jov x adr => exact k.jumpForm_apply s.of x adr s
  case cpaMem | cplMem => exact k.compareMem_apply _ _ _ _ s
  case sla | sra | sll | srl => exact k.shiftForm_apply _ _ _ _ s
  case ldMem | addaMem | subaMem | addlMem | sublMem | andMem | orMem | xorMem => exact k.memForm_apply _ _ _ _ s
  case cpaReg | cplReg | ldReg | addaReg | subaReg | addlReg | sublReg | andReg | orReg | xorReg => rfl

end UnreadChange

/-- Settles O49: a change of the loop's state is one of fields that no instruction reads. -/
theorem instructionsDoNotReadTheLoopState : Obligations.InstructionsDoNotReadTheLoopState := by
  intro i s st ic bp lc
  exact UnreadChange.exec_apply
    { stepFlag := fun _ => st, icount := fun _ => ic, bp := fun _ => bp, lastChk := fun _ => lc } i s fun _ => rfl

/-- Runs of one instruction that differ in HALT alone. -/
theorem exec_with_halt (i : Instr) (s : State) (h : Bool) :
    exec i { s with halt := h } = mapNext (fun t => { t with halt := h || decide (i = .hlt) }) (exec i s) := by
  by_cases hi : i = .hlt
  · subst hi
    simp [exec_hlt, mapNext, State.setHalt]
  · simp only [hi, decide_false, Bool.or_false]
    exact ({ halt := fun _ => h } : UnreadChange).exec_apply i s fun e => absurd e hi

/-- Settles O47: the next state of an instruction and of a step by cases, and the change of HALT by `exec_with_halt`. -/
theorem haltIsSetByHltAlone : Obligations.HaltIsSetByHltAlone := by
  refine ⟨fun i s t => exec_halt_iff, State.hostReset_halt, fun s t hs h => ?_, exec_with_halt⟩
  obtain ⟨-, ⟨hb, rfl⟩ | ⟨hb, i, u, hf, hu, rfl⟩⟩ := step_next h
  · simp [hb, hs]
  · have hfetch : fetchDecode s = .ok i := hf
    have hhalt : u.halt = true ↔ i = .hlt := by
      simp [exec_halt_iff hu, hs]
    rw [retire_halt]
    refine ⟨by simp [hhalt, hb, hfetch], fun ht => ?_⟩
    simp [iterate, hb, execOne, hf, hu, completionCause, ht]

end Sys2Proof.Machine
end

section
/-! The output stream (R32): appended to by the output service, and by nothing else. -/
namespace Sys2Proof.Machine

/-- A completed output service has appended a terminator at least. -/
theorem outputService_outStream {s t : State} (h : outputService s = .done t) :
    ∃ bytes, t.outStream = s.outStream ++ bytes ∧ bytes ≠ [] := by
  unfold outputService at h
  split at h
  · cases h
  · obtain ⟨u, hu, ht⟩ := ServiceResult.andThen_done.mp h
    obtain ⟨-, rfl⟩ := outputCells_done hu
    cases ht
    exact ⟨_, List.append_assoc .., by simp⟩

/-- The output service is the supervisor call with effective address 2 (D18). -/
theorem supervisorCall_of_eaIs_two {s : State} {adr : Word} {x : Reg} (h : EaIs s adr x 2) :
    supervisorCall x adr s = outputService s := by
  unfold supervisorCall
  rw [effectiveAddress_ok.mpr h]
  rfl

theorem execSvc_done {x : Reg} {adr : Word} {s t : State} (h : execSvc x adr s = .next t) :
    supervisorCall x adr s = .done t := by
  unfold execSvc at h
  split at h
  · next hu =>
    cases h
    exact hu
  · cases h

/-- Every other instruction leaves the output stream. -/
theorem exec_outStream_of_not_output {i : Instr} {s t : State} (h : exec i s = .next t)
    (hi : ¬ ∃ x adr, i = .svc x adr ∧ EaIs s adr x 2) : t.outStream = s.outStream := by
  cases exec_effect h with
  | output hsvc hea => exact absurd ⟨_, _, hsvc, hea⟩ hi
  | _ => rfl

theorem exec_outStream {i : Instr} {s t : State} (h : exec i s = .next t) :
    ∃ bytes, t.outStream = s.outStream ++ bytes ∧ (bytes ≠ [] ↔ ∃ x adr, i = .svc x adr ∧ EaIs s adr x 2) := by
  by_cases hi : ∃ x adr, i = .svc x adr ∧ EaIs s adr x 2
  · obtain ⟨x, adr, rfl, hea⟩ := id hi
    obtain ⟨bytes, hout, hne⟩ := outputService_outStream (supervisorCall_of_eaIs_two hea ▸ execSvc_done h)
    exact ⟨bytes, hout, iff_of_true hne hi⟩
  · exact ⟨[], by simp [exec_outStream_of_not_output h hi], iff_of_false (by simp) hi⟩

/-! ### Services that fault part-way -/

theorem ServiceResult.andThen_outStream_grows {out : List Byte} {r : ServiceResult} {k : State → ServiceResult}
    (hr : out <+: r.state.outStream) (hk : ∀ t, t.outStream <+: (k t).state.outStream) :
    out <+: (r.andThen k).state.outStream := by
  cases r with
  | done t => exact hr.trans (hk t)
  | stopped f t => exact hr

theorem serviceWrite_outStream (a : Nat) (v : Word) (s : State) :
    (serviceWrite a v s).state.outStream = s.outStream := by
  obtain ⟨m, hm⟩ := serviceWrite_state a v s
  rw [hm]

theorem storeBytes_outStream (bs : List Byte) (a : Nat) (s : State) :
    (storeBytes a bs s).state.outStream = s.outStream := by
  obtain ⟨m, hm⟩ := storeBytes_state bs a s
  rw [hm]

theorem emit_outStream_grows (s : State) (b : Byte) : s.outStream <+: (s.emit b).outStream :=
  ⟨[b], rfl⟩

theorem outputCells_outStream_grows : ∀ (n a : Nat) (s : State), s.outStream <+: (outputCells a n s).state.outStream
  | 0, _, _ => refl _
  | n + 1, a, s => by
    unfold outputCells
    split
    · exact (emit_outStream_grows s _).trans (outputCells_outStream_grows n (a + 1) (s.emit _))
    · exact refl _

theorem inputService_outStream_grows (s : State) : s.outStream <+: (inputService s).state.outStream := by
  unfold inputService
  split
  · rw [serviceWrite_outStream]
  · refine ServiceResult.andThen_outStream_grows ?_ fun t => ?_
    · rw [storeBytes_outStream]
      exact refl _
    · rw [serviceWrite_outStream]

theorem outputService_outStream_grows (s : State) : s.outStream <+: (outputService s).state.outStream := by
  unfold outputService
  split
  · exact refl _
  · exact ServiceResult.andThen_outStream_grows (outputCells_outStream_grows _ _ s) fun t =>
      emit_outStream_grows t lineTerminator

/-- Whether or not it faults, a supervisor call removes nothing from the output stream. -/
theorem supervisorCall_outStream_grows (x : Reg) (adr : Word) (s : State) :
    s.outStream <+: (supervisorCall x adr s).state.outStream := by
  unfold supervisorCall
  split
  · exact refl _
  · split
    · exact inputService_outStream_grows s
    · split
      · exact outputService_outStream_grows s
      · exact refl _

theorem leftByFault_outStream_grows (s : State) : s.outStream <+: (leftByFault s).outStream := by
  unfold leftByFault
  dsimp only
  split
  · exact supervisorCall_outStream_grows _ _ (s.advance _)
  · exact refl _

/-! ### Iterations of the run loop -/

theorem retire_outStream (t : State) : (retire t).outStream = t.outStream := by
  unfold retire
  split <;> rfl

/-- No iteration removes from the output stream: a pause, a completed instruction, a fault. -/
theorem iterate_outStream_grows {s t : State} {c : StopCause} (h : iterate s = some (c, t)) :
    s.outStream <+: t.outStream := by
  cases hb : s.atBreakpoint with
  | true =>
    unfold iterate at h
    rw [if_pos hb] at h
    cases h
    exact refl _
  | false =>
    obtain ⟨i, u, -, hu, hit⟩ | ⟨f, -, hit⟩ := iterate_cases s hb
    · rw [hit] at h
      cases h
      obtain ⟨bytes, hout, -⟩ := exec_outStream hu
      rw [retire_outStream, hout]
      exact ⟨bytes, rfl⟩
    · rw [hit] at h
      cases h
      exact leftByFault_outStream_grows s.noteCheck

/-- Settles O50: what is appended by instruction, by iteration and by reset, and bytes in front of the output as a change
of a field that no instruction reads. -/
theorem outputOnlyGrows : Obligations.OutputOnlyGrows := by
  refine ⟨fun i s t => exec_outStream, fun s t c h => ?_, State.hostReset_outStream, fun i s out => ?_⟩
  · obtain ⟨bytes, hout⟩ := iterate_outStream_grows h
    exact ⟨bytes, hout.symm⟩
  · exact UnreadChange.exec_apply { outFront := out } i s fun _ => rfl

end Sys2Proof.Machine
end

section
/-! Fetch and decode without an instruction (R264): which fault a step reports, from the words at PC. -/
namespace Sys2Proof

/-! ### The decoder's rejections -/

theorem decode_unassigned {c : Config} {w : Word} (rest : List Word) (h : opOf c (opField w) = none) :
    decode c (w :: rest) = .unassigned := by
  simp only [decode, h]

theorem decode_truncated {c : Config} {w : Word} {o : Op} (h : opOf c (opField w) = some o)
    (ha : o.format.hasAddress = true) : decode c [w] = .truncated := by
  simp only [decode, h, if_pos ha]

theorem instrR_none (mk : Reg → Instr) {d : BitVec 4} (h : regOf d = none) : instrR mk d = none := by
  simp only [instrR, h]

theorem instrRR_none (mk : Reg → Reg → Instr) {d s : BitVec 4} (h : regOf d = none ∨ regOf s = none) :
    instrRR mk d s = none := by
  unfold instrRR
  obtain h | h := h
  · rw [h]
  · rw [h]
    cases regOf d <;> rfl

/-- Nothing is built when a field that the operation's format uses names no register (R72, R78). -/
theorem buildInstr_none {o : Op} {d s : BitVec 4} (adr : Word)
    (h : o.format ∈ [Format.r, .rr, .ra] ∧ regOf d = none ∨ o.format ∈ [Format.rr, .ra, .a] ∧ regOf s = none) :
    buildInstr d s adr o = none := by
  cases o
  case nop | ret | hlt => simp [Op.format] at h
  case pop | jmi | jnz | jze | jump | jpl | jov | push | call | svc =>
    exact instrR_none _ (by simpa [Op.format] using h)
  all_goals exact instrRR_none _ (by simpa [Op.format] using h)

theorem decode_badRegister {c : Config} {w : Word} {rest : List Word} {o : Op} (h : opOf c (opField w) = some o)
    (hrest : o.format.hasAddress = true → rest ≠ []) (hreg : ∀ adr, buildInstr (dField w) (sField w) adr o = none) :
    decode c (w :: rest) = .badRegister := by
  have hfinish (adr : Word) : finishDecode o (dField w) (sField w) adr = .badRegister := by
    simp only [finishDecode, hreg]
  simp only [decode, h]
  split
  · next ha =>
    obtain ⟨adr, tail, rfl⟩ := List.exists_cons_of_ne_nil (hrest ha)
    exact hfinish adr
  · exact hfinish 0

end Sys2Proof

namespace Sys2Proof.Machine

/-! ### The words that a fetch at PC can reach -/

theorem fetchable_outside {s : State} (h : s.cfg.memSize ≤ s.pc) : fetchable s = [] :=
  if_neg (Nat.not_lt.mpr h)

/-- Inside the image there is a first word; it is the only one at the last address. -/
theorem fetchable_inside {s : State} (h : s.pc < s.cfg.memSize) :
    ∃ rest, fetchable s = s.word s.pc :: rest ∧ (rest = [] ↔ s.pc + 1 = s.cfg.memSize) := by
  unfold fetchable
  rw [if_pos h]
  split
  · exact ⟨_, rfl, by simp; omega⟩
  · exact ⟨_, rfl, by simp; omega⟩

/-! ### A step whose decoding is rejected -/

section
variable {s : State} (hs : s.halt = false) (hb : s.atBreakpoint = false)
include hs hb

theorem step_of_fetchDecode_error {f : Fault} (h : fetchDecode s = .error f) : Machine.step s = .fault f := by
  have hone : execOne s.noteCheck = .fault f := by
    unfold execOne
    rw [show fetchDecode s.noteCheck = .error f from h]
    rfl
  simp [Machine.step, stepOnce, iteration, hs, hb, hone]

theorem step_of_truncated (h : decode s.cfg (fetchable s) = .truncated) : Machine.step s = .fault .illegalAccess :=
  step_of_fetchDecode_error hs hb (by simp only [fetchDecode, h])

theorem step_of_unassigned (h : decode s.cfg (fetchable s) = .unassigned) :
    Machine.step s = .fault .invalidOperation :=
  step_of_fetchDecode_error hs hb (by simp only [fetchDecode, h])

theorem step_of_badRegister (h : decode s.cfg (fetchable s) = .badRegister) :
    Machine.step s = .fault .invalidOperation :=
  step_of_fetchDecode_error hs hb (by simp only [fetchDecode, h])

end

/-- Settles O5: each clause is one rejection of the decoder, on the words that the fetch can reach. -/
theorem fetchFaultsInOrder : Obligations.FetchFaultsInOrder := by
  intro s hs hb
  refine ⟨fun hout => ?_, fun hin => ?_⟩
  · exact step_of_truncated hs hb (by rw [fetchable_outside hout]; rfl)
  · obtain ⟨rest, hfetch, hlast⟩ := fetchable_inside hin
    refine ⟨fun hnone => ?_, fun o ⟨_, _, _, hmap⟩ ho hcode => ?_⟩
    · exact step_of_unassigned hs hb (by rw [hfetch, decode_unassigned rest (opOf_none.mpr hnone)])
    · have hop : opOf s.cfg (opField (s.word s.pc)) = some o := hcode ▸ opOf_code hmap ho
      refine ⟨fun haddr hend => ?_, fun hwords hids => ?_⟩
      · exact step_of_truncated hs hb (by rw [hfetch, hlast.mpr hend, decode_truncated hop haddr])
      · have hnoreg := hids.imp (And.imp_right (regOf_none _)) (And.imp_right (regOf_none _))
        have hrest : o.format.hasAddress = true → rest ≠ [] := by
          intro haddr hnil
          have hend := hlast.mp hnil
          rw [Op.words, if_pos haddr] at hwords
          omega
        exact step_of_badRegister hs hb (by
          rw [hfetch, decode_badRegister hop hrest fun adr => buildInstr_none adr hnoreg])

end Sys2Proof.Machine
end

section
/-! Memory writes (R53): what one does, and which words an instruction can change. -/
namespace Sys2Proof.Machine

/-! ### Changed words -/

theorem setWord_word_changed {s : State} {a b : Nat} {v : Word} (h : (s.setWord b v).word a ≠ s.word a) : a = b :=
  not_not.mp fun hne => h (s.setWord_word_other v hne)

theorem storedBytes_changed {bs : List Byte} {a k : Nat} {m : Memory}
    (h : (storedBytes a bs m).read k ≠ m.read k) : a ≤ k ∧ k < a + bs.length := by
  by_contra hout
  exact h (storedBytes_outside bs a k m (by omega))

theorem execSt_word_changed {d x : Reg} {adr : Word} {s t : State} {a : Nat} (h : execSt d x adr s = .next t)
    (ha : t.word a ≠ s.word a) : EaIs s adr x a := by
  obtain ⟨b, hb, -, rfl⟩ := execSt_next.mp h
  exact setWord_word_changed ha ▸ hb

/-- A push changes the word below the top of the stack. -/
theorem stackSlot_changed {s : State} {a : Nat} {v : Word} (hsp : s.sp ≠ 0)
    (ha : ((s.setSp (s.sp - 1)).setWord (s.sp - 1) v).word a ≠ s.word a) : a + 1 = s.sp := by
  have hslot : a = s.sp - 1 := setWord_word_changed (s := s.setSp _) ha
  omega

theorem execPush_word_changed {x : Reg} {adr : Word} {s t : State} {a : Nat} (h : execPush x adr s = .next t)
    (ha : t.word a ≠ s.word a) : a + 1 = s.sp := by
  obtain ⟨_, -, hsp, -, rfl⟩ := execPush_next.mp h
  exact stackSlot_changed hsp ha

theorem execCall_word_changed {x : Reg} {adr : Word} {s t : State} {a : Nat} (h : execCall x adr s = .next t)
    (ha : t.word a ≠ s.word a) : a + 1 = s.sp := by
  obtain ⟨_, -, hsp, -, -, rfl⟩ := execCall_next.mp h
  exact stackSlot_changed hsp ha

/-- The input service changes its count cell and the words of its buffer (R212). -/
theorem inputService_word_changed {s t : State} {a : Nat} (h : inputService s = .done t)
    (ha : t.word a ≠ s.word a) :
    a = (s.reg 2).toNat ∨
      ∃ line rest, s.inStream = line :: rest ∧ (s.reg 1).toNat ≤ a ∧ a < (s.reg 1).toNat + line.length := by
  unfold inputService at h
  split at h
  · obtain ⟨-, rfl⟩ := serviceWrite_done.mp h
    exact .inl (setWord_word_changed ha)
  · next line rest hin =>
    obtain ⟨u, hu, ht⟩ := ServiceResult.andThen_done.mp h
    obtain ⟨-, rfl⟩ := storeBytes_done hu
    obtain ⟨-, rfl⟩ := serviceWrite_done.mp ht
    refine or_iff_not_imp_left.mpr fun hcell => ⟨line, rest, hin, ?_⟩
    rw [State.setWord_word_other _ _ hcell] at ha
    exact storedBytes_changed ha

/-- The input service is the supervisor call with effective address 1 (D18). -/
theorem supervisorCall_of_eaIs_one {s : State} {adr : Word} {x : Reg} (h : EaIs s adr x 1) :
    supervisorCall x adr s = inputService s := by
  unfold supervisorCall
  rw [effectiveAddress_ok.mpr h]
  rfl

/-- Of the two services the input service alone changes memory. -/
theorem execSvc_word_changed {x : Reg} {adr : Word} {s t : State} {a : Nat} (h : execSvc x adr s = .next t)
    (ha : t.word a ≠ s.word a) : EaIs s adr x 1 ∧ inputService s = .done t := by
  obtain ⟨hea, -⟩ | ⟨-, bytes, rfl⟩ := execSvc_next h
  · exact ⟨hea, supervisorCall_of_eaIs_one hea ▸ execSvc_done h⟩
  · exact absurd rfl ha

/-- Settles O18: a write by the rules of `memWrite`, and a changed word by the effects that have one. -/
theorem onlyTheNamedInstructionsWriteMemory : Obligations.OnlyTheNamedInstructionsWriteMemory := by
  refine ⟨fun s a v hwf => ⟨fun hin => ?_, fun hout => ?_⟩, fun i s t a h ha => ?_⟩
  · exact ⟨s.setWord a v, State.memWrite_eq hin v, storesAt_setWord s hwf a v, rfl⟩
  · exact State.memWrite_error.mpr ⟨Nat.le_of_not_lt hout, rfl⟩
  · cases exec_effect h with
    | store hi =>
      subst hi
      exact .inl ⟨_, _, _, rfl, execSt_word_changed h ha⟩
    | push hi =>
      subst hi
      exact .inr (.inl ⟨_, _, .inl rfl, execPush_word_changed h ha⟩)
    | call hi =>
      subst hi
      exact .inr (.inl ⟨_, _, .inr rfl, execCall_word_changed h ha⟩)
    | input hi =>
      subst hi
      obtain ⟨hea, hdone⟩ := execSvc_word_changed h ha
      exact .inr (.inr ⟨_, _, rfl, hea, inputService_word_changed hdone ha⟩)
    | _ => exact absurd rfl ha

end Sys2Proof.Machine
end

section
/-! Checked reads and targets (R52, R54): the jumps and CALL check their effective address before they transfer
control. -/
namespace Sys2Proof.Machine

section
variable {s : State} {adr : Word} {x : Reg} {a : Nat} (hea : EaIs s adr x a)
include hea

/-! ### The check of a transfer that is made -/

theorem jumpTarget_outside (hout : ¬ InImage s a) : jumpTarget s adr x = .error .illegalAccess := by
  unfold jumpTarget
  rw [effectiveAddress_ok.mpr hea, except_ok_bind, State.checkTarget_error.mpr ⟨Nat.le_of_not_lt hout, rfl⟩]
  rfl

theorem jumpForm_checks {taken : Bool} (htaken : taken = true) :
    (InImage s a → ∃ t, jumpForm taken x adr s = .next t ∧ t.pc = a) ∧
    (¬ InImage s a → jumpForm taken x adr s = .fault .illegalAccess) := by
  refine ⟨fun hin => ⟨s.setPc a, jumpForm_next.mpr (.inl ⟨htaken, a, hea, hin, rfl⟩), rfl⟩, fun hout => ?_⟩
  rw [jumpForm, if_pos htaken, jumpTarget_outside hea hout]
  rfl

theorem execCall_checks (hsp : 0 < s.sp ∧ s.sp ≤ s.cfg.memSize) :
    (InImage s a → ∃ t, execCall x adr s = .next t ∧ t.pc = a) ∧
    (¬ InImage s a → execCall x adr s = .fault .illegalAccess) := by
  obtain ⟨hpos, hle⟩ := hsp
  refine ⟨fun hin => ⟨_, execCall_next.mpr ⟨a, hea, hpos.ne', hin, by omega, rfl⟩, rfl⟩, fun hout => ?_⟩
  rw [execCall, effectiveAddress_ok.mpr hea, except_ok_bind, if_neg hpos.ne',
    State.checkTarget_error.mpr ⟨Nat.le_of_not_lt hout, rfl⟩]
  rfl

/-! ### The target of a transfer that was made -/

theorem jumpForm_target {taken : Bool} {t : State} (h : jumpForm taken x adr s = .next t) (hpc : t.pc ≠ s.pc) :
    t.pc = a ∧ InImage s a := by
  obtain ⟨-, b, hb, hin, rfl⟩ | ⟨-, rfl⟩ := jumpForm_next.mp h
  · obtain rfl := EaIs.unique hea hb
    exact ⟨rfl, hin⟩
  · exact absurd rfl hpc

theorem execCall_target {t : State} (h : execCall x adr s = .next t) : t.pc = a ∧ InImage s a := by
  obtain ⟨b, hb, -, hin, -, rfl⟩ := execCall_next.mp h
  obtain rfl := EaIs.unique hea hb
  exact ⟨rfl, hin⟩

end

/-- Settles O19: the two checks by their rules, the six jumps by their common shape, and CALL by its own. -/
theorem readsAreCheckedAgainstTheImage : Obligations.ReadsAreCheckedAgainstTheImage := by
  refine ⟨fun s a => ⟨State.memRead_eq, fun hout => ?_, State.checkTarget_ok.mpr, fun hout => ?_, fun m => rfl⟩,
    fun s x adr a hadr => ?_⟩
  · exact State.memRead_error.mpr ⟨Nat.le_of_not_lt hout, rfl⟩
  · exact State.checkTarget_error.mpr ⟨Nat.le_of_not_lt hout, rfl⟩
  · have hea := effectiveAddress_ok.mp hadr
    refine ⟨fun p hp => ?_, fun i hi t h hpc => ?_⟩
    · have jump {taken : Bool} := jumpForm_checks (taken := taken) hea
      simp only [List.mem_cons, List.not_mem_nil, or_false] at hp
      obtain rfl | rfl | rfl | rfl | rfl | rfl | rfl := hp
      exacts [jump, jump, jump, jump, jump, jump, fun hroom => execCall_checks hea (of_decide_eq_true hroom)]
    · have jump (taken : Bool) (hj : jumpForm taken x adr s = .next t) := jumpForm_target hea hj hpc
      simp only [List.mem_cons, List.not_mem_nil, or_false] at hi
      obtain rfl | rfl | rfl | rfl | rfl | rfl | rfl := hi
      exacts [jump true h, jump (!s.sf && !s.zf) h, jump s.sf h, jump (!s.zf) h, jump s.zf h, jump s.of h,
        execCall_target hea h]

end Sys2Proof.Machine
end

section
/-! The words of an instruction (R71, R72, R102): what its operation and its operands are packed to, and what the
decoder reads back from them. -/
namespace Sys2Proof

/-! ### What the decoder reads -/

theorem buildInstr_of_no_address {o : Op} (d s : BitVec 4) (adr adr' : Word) (h : o.format.hasAddress = false) :
    buildInstr d s adr o = buildInstr d s adr' o := by
  cases o
  case nop | ret | hlt => rfl
  case pop => rfl
  case ldReg | addaReg | subaReg | addlReg | sublReg | andReg | orReg | xorReg | cpaReg | cplReg => rfl
  all_goals exact absurd h (by decide)

/-- The converse of `decode_ok`. -/
theorem decode_of_buildInstr {c : Config} {w : Word} {rest : List Word} {o : Op} {adr : Word} {i : Instr}
    (ho : opOf c (opField w) = some o) (hrest : o.format.hasAddress = true → rest.head? = some adr)
    (hi : buildInstr (dField w) (sField w) adr o = some i) : decode c (w :: rest) = .ok i := by
  simp only [decode, ho]
  split
  · next haddr =>
    obtain ⟨tail, rfl⟩ := List.head?_eq_some_iff.mp (hrest haddr)
    exact finishDecode_ok.mpr hi
  · next haddr =>
    exact finishDecode_ok.mpr (buildInstr_of_no_address _ _ 0 adr (by simpa using haddr) ▸ hi)

/-- Of the words after the first, the decoder reads the address word, and that only if the operation has one. -/
theorem decode_of_head?_eq {c : Config} {w : Word} {rest rest' : List Word} {i : Instr}
    (h : decode c (w :: rest) = .ok i) (hrest : i.op.format.hasAddress = true → rest'.head? = rest.head?) :
    decode c (w :: rest') = .ok i := by
  obtain ⟨_, _, o, adr, hw, ho, haddr, hi⟩ := decode_ok h
  obtain ⟨rfl, rfl⟩ := List.cons.inj hw
  rw [buildInstr_op hi] at hrest
  exact decode_of_buildInstr ho (fun ha => (hrest ha).trans (haddr ha)) hi

/-! ### The operands of an instruction in their fields (R72, R102) -/

/-- The operands as R102 places them for an operation: an address word if its format has one, and register 0, whose
id is 0, in a field that its format does not use. -/
structure OperandsFill (o : Op) (d s : Reg) (adr : Option Word) : Prop where
  address : adr.isSome = o.format.hasAddress
  unusedD : o.format ∈ [Format.n, .a] → d = 0
  unusedS : o.format ∈ [Format.n, .r] → s = 0

theorem OperandsFill.adr_eq_none {o : Op} {d s : Reg} {adr : Option Word} (h : OperandsFill o d s adr)
    (ho : o.format.hasAddress = false) : adr = none :=
  Option.isNone_iff_eq_none.mp (Option.isSome_eq_false_iff.mp (h.address.trans ho))

theorem OperandsFill.exists_adr {o : Op} {d s : Reg} {adr : Option Word} (h : OperandsFill o d s adr)
    (ho : o.format.hasAddress = true) : ∃ a, adr = some a :=
  Option.isSome_iff_exists.mp (h.address.trans ho)

theorem operandsFill_of_format_ra {o : Op} (ho : o.format = .ra) (d s : Reg) (a : Word) :
    OperandsFill o d s (some a) :=
  ⟨by simp [ho, Format.hasAddress], by simp [ho], by simp [ho]⟩

/-- Every instruction is built of operands that fill its fields. -/
theorem exists_operandsFill (i : Instr) :
    ∃ d s adr, OperandsFill i.op d s adr ∧ buildInstr (regId d) (regId s) (adr.getD 0) i.op = some i := by
  cases i
  case nop | ret | hlt => exact ⟨0, 0, none, ⟨rfl, fun _ => rfl, fun _ => rfl⟩, rfl⟩
  case pop d =>
    exact ⟨d, 0, none, ⟨rfl, by simp [Instr.op, Op.format], fun _ => rfl⟩, instrR_some.mpr ⟨d, regOf_regId d, rfl⟩⟩
  case jmi x adr | jnz x adr | jze x adr | jump x adr | jpl x adr | jov x adr | push x adr | call x adr | svc x adr =>
    exact ⟨0, x, some adr, ⟨rfl, fun _ => rfl, by simp [Instr.op, Op.format]⟩,
      instrA_some.mpr ⟨x, regOf_regId x, rfl⟩⟩
  case ldReg d r | addaReg d r | subaReg d r | addlReg d r | sublReg d r | andReg d r | orReg d r | xorReg d r |
      cpaReg d r | cplReg d r =>
    exact ⟨d, r, none, ⟨rfl, by simp [Instr.op, Op.format], by simp [Instr.op, Op.format]⟩,
      instrRR_some.mpr ⟨d, r, regOf_regId d, regOf_regId r, rfl⟩⟩
  all_goals
    rename_i d x adr
    exact ⟨d, x, some adr, ⟨rfl, by simp [Instr.op, Op.format], by simp [Instr.op, Op.format]⟩,
      instrRA_some.mpr ⟨d, x, regOf_regId d, regOf_regId x, rfl⟩⟩

/-- Operands that fill the fields of an operation are those of an instruction, which the encoder packs of them. -/
theorem OperandsFill.exists_encode_eq (c : Config) {o : Op} {d s : Reg} {adr : Option Word}
    (h : OperandsFill o d s adr) :
    ∃ i, buildInstr (regId d) (regId s) (adr.getD 0) o = some i ∧
      encode c i = opWord c o (regId d) (regId s) :: adr.toList := by
  cases o
  case nop | ret | hlt =>
    obtain rfl := h.adr_eq_none rfl
    obtain rfl := h.unusedD (by decide)
    obtain rfl := h.unusedS (by decide)
    exact ⟨_, rfl, rfl⟩
  case pop =>
    obtain rfl := h.adr_eq_none rfl
    obtain rfl := h.unusedS (by decide)
    exact ⟨_, instrR_some.mpr ⟨d, regOf_regId d, rfl⟩, rfl⟩
  case jmi | jnz | jze | jump | jpl | jov | push | call | svc =>
    obtain ⟨a, rfl⟩ := h.exists_adr rfl
    obtain rfl := h.unusedD (by decide)
    exact ⟨_, instrA_some.mpr ⟨s, regOf_regId s, rfl⟩, rfl⟩
  case ldReg | addaReg | subaReg | addlReg | sublReg | andReg | orReg | xorReg | cpaReg | cplReg =>
    obtain rfl := h.adr_eq_none rfl
    exact ⟨_, instrRR_some.mpr ⟨d, s, regOf_regId d, regOf_regId s, rfl⟩, rfl⟩
  all_goals
    obtain ⟨a, rfl⟩ := h.exists_adr rfl
    exact ⟨_, instrRA_some.mpr ⟨d, s, regOf_regId d, regOf_regId s, rfl⟩, rfl⟩

/-- The decoder reads the operands back from the words, whatever follows them. -/
theorem OperandsFill.decode_eq {c : Config} {o : Op} {d s : Reg} {adr : Option Word} {i : Instr}
    (h : OperandsFill o d s adr) (hi : buildInstr (regId d) (regId s) (adr.getD 0) o = some i) (hmap : c.opmap.wf)
    (ho : c.hasOp o = true) (rest : List Word) :
    decode c (opWord c o (regId d) (regId s) :: adr.toList ++ rest) = .ok i := by
  refine decode_of_buildInstr (adr := adr.getD 0) (by rw [opField_opWord, opOf_code hmap ho]) (fun haddr => ?_) ?_
  · obtain ⟨a, rfl⟩ := h.exists_adr haddr
    rfl
  · rwa [dField_opWord, sField_opWord]

/-- One word, or two with an address word (R75). -/
theorem OperandsFill.length_words {o : Op} {d s : Reg} {adr : Option Word} (h : OperandsFill o d s adr) (w : Word) :
    (w :: adr.toList).length = o.words := by
  rw [Op.words, ← h.address]
  cases adr <;> rfl

/-- Settles O13: an instruction's operands fill its fields, and the decoder reads them back. -/
theorem decodeReadsBackEncoding : Obligations.DecodeReadsBackEncoding := by
  intro c i rest hmap hwf
  obtain ⟨d, s, adr, hfill, hi⟩ := exists_operandsFill i
  obtain ⟨i', hi', hencode⟩ := hfill.exists_encode_eq c
  obtain rfl : i = i' := Option.some.inj (hi.symm.trans hi')
  rw [hencode]
  exact ⟨hfill.decode_eq hi hmap hwf rest, hfill.length_words _⟩

/-! ### Fields and numbers (R71) -/

theorem opField_toNat (w : Word) : (opField w).toNat = w.toNat / 256 := by
  have hw := w.isLt
  simp only [opField, BitVec.extractLsb'_toNat, Nat.shiftRight_eq_div_pow]
  omega

theorem dField_toNat (w : Word) : (dField w).toNat = w.toNat / 16 % 16 := by
  simp [dField, BitVec.extractLsb'_toNat, Nat.shiftRight_eq_div_pow]

theorem sField_toNat (w : Word) : (sField w).toNat = w.toNat % 16 := by
  simp [sField, BitVec.extractLsb'_toNat]

/-- The fields of a packed word are its digits. -/
theorem packWord_toNat (op : Byte) (d s : BitVec 4) :
    (packWord op d s).toNat = op.toNat * 256 + d.toNat * 16 + s.toNat := by
  have hop := opField_toNat (packWord op d s)
  have hd := dField_toNat (packWord op d s)
  have hs := sField_toNat (packWord op d s)
  rw [opField_packWord] at hop
  rw [dField_packWord] at hd
  rw [sField_packWord] at hs
  omega

theorem packWord_fields (w : Word) : packWord (opField w) (dField w) (sField w) = w := by
  apply BitVec.eq_of_toNat_eq
  rw [packWord_toNat, opField_toNat, dField_toNat, sField_toNat]
  omega

/-- Settles O12: a word is the number whose digits its fields are. -/
theorem fieldsAndPackingAreInverse : Obligations.FieldsAndPackingAreInverse :=
  ⟨packWord_fields,
    fun op d s => ⟨opField_packWord op d s, dField_packWord op d s, sField_packWord op d s, packWord_toNat op d s⟩,
    fun w => ⟨opField_toNat w, dField_toNat w, sField_toNat w⟩⟩

/-- Settles O16: the decoder's first rejection, and the two counts by evaluation over the 256 bytes. -/
theorem unassignedOpcodesAreRejected : Obligations.UnassignedOpcodesAreRejected :=
  ⟨fun _ _ rest hnone => decode_unassigned rest (opOf_none.mpr hnone), by decide +kernel, by decide +kernel⟩

end Sys2Proof
end

section
/-! A step on the words of an instruction (R74, R267): fetch and decode find it, and the run loop runs its meaning. -/
namespace Sys2Proof.Machine

/-- An instruction that the two words at PC begin with is fetched and decoded if it lies inside the image. -/
theorem fetchDecode_of_decode {s : State} {i : Instr} (hin : s.pc + i.words ≤ s.cfg.memSize)
    (h : decode s.cfg [s.word s.pc, s.word (s.pc + 1)] = .ok i) : fetchDecode s = .ok i := by
  have hfetch : decode s.cfg (fetchable s) = .ok i := by
    unfold fetchable
    unfold Instr.words Op.words at hin
    split at hin
    · rwa [if_pos (by omega), if_pos (by omega)]
    · next haddr =>
      rw [if_pos (by omega)]
      split
      · exact h
      · exact decode_of_head?_eq h fun ha => absurd ha haddr
  simp only [fetchDecode, hfetch]

/-- Around a completed instruction the loop writes the counter and STEP (R267, R270). -/
theorem retire_eq (t : State) :
    retire t = { t with icount := t.icount + 1, stepFlag := if t.halt then t.stepFlag else false } := by
  unfold retire
  split
  · rfl
  · rfl

section
variable {s : State} {i : Instr} (hs : s.halt = false) (hb : s.atBreakpoint = false) (hi : fetchDecode s = .ok i)
include hi

theorem execOne_noteCheck : execOne s.noteCheck = exec i (s.noteCheck.advance i.words) := by
  unfold execOne
  rw [show fetchDecode s.noteCheck = .ok i from hi]

include hs hb

theorem step_of_exec_next {t : State} (h : exec i (s.noteCheck.advance i.words) = .next t) :
    Machine.step s = .next (retire t) := by
  simp [Machine.step, stepOnce, iteration, hs, hb, execOne_noteCheck hi, h]

theorem step_of_exec_fault {f : Fault} (h : exec i (s.noteCheck.advance i.words) = .fault f) :
    Machine.step s = .fault f := by
  simp [Machine.step, stepOnce, iteration, hs, hb, execOne_noteCheck hi, h]

end

/-- Settles O4: fetch and decode find the instruction, and a step runs it. -/
theorem stepRunsDecodedInstruction : Obligations.StepRunsDecodedInstruction := by
  intro s i hs hb hin hdecode
  have hi := fetchDecode_of_decode hin hdecode
  exact ⟨fun t ht => retire_eq t ▸ step_of_exec_next hs hb hi ht, fun f hf => step_of_exec_fault hs hb hi hf⟩

end Sys2Proof.Machine
end

section
/-! Assembling a line: what it appends (R100, R225), and the words of a machine instruction (R90 to R102). -/
namespace Sys2Proof.Machine

/-! ### A line appends, or fails and emits nothing -/

/-- What a line with this code leaves of the build before it. -/
structure LineEffect (b b' : Builder) (code : LineCode) : Prop where
  w : b.w ≤ b'.w
  below : ∀ a, a < b.w → b'.image.read a = b.image.read a
  units : b'.units = b.units
  error : code ≠ .ok → b'.w = b.w ∧ b'.image = b.image ∧ b'.tables.refs = b.tables.refs ∧ b'.litRefs = b.litRefs ∧
    b'.failed = true

/-- A line that fails is recorded, and that is all. -/
theorem record_lineEffect (b : Builder) (line : Text) (tokens : List Token) (start : Nat) (code : LineCode) :
    LineEffect b (b.record line tokens start code) code where
  w := Nat.le_refl _
  below _ _ := rfl
  units := rfl
  error hcode := ⟨rfl, rfl, rfl, rfl, by simp [Builder.record, hcode]⟩

theorem appendItems_lineEffect {c : Config} {b b' : Builder} {is : List Item} (h : b.appendItems c is = some b')
    (line : Text) (tokens : List Token) (start : Nat) : LineEffect b (b'.record line tokens start .ok) .ok := by
  unfold Builder.appendItems at h
  split at h
  · cases h
    obtain ⟨hw, himg, hunits, -, -⟩ := appendItems_appended is b
    exact ⟨hw ▸ Nat.le_add_right _ _, himg, hunits, fun hcode => absurd rfl hcode⟩
  · cases h

theorem finishLine_lineEffect {c : Config} {b b' : Builder} {line : Text} {tokens rest : List Token} {code : LineCode}
    (h : b.finishLine c line tokens rest = .done code b') : LineEffect b b' code := by
  unfold Builder.finishLine at h
  split at h
  · cases h
    exact record_lineEffect b line tokens b.w code
  · split at h
    · cases h
    · next happend =>
      cases h
      exact appendItems_lineEffect happend line tokens b.w

/-- A definition before the line changes none of what its effect speaks of. -/
theorem LineEffect.of_define {b b' : Builder} {isStart : Bool} {name : Text} {code : LineCode}
    (h : LineEffect (b.define isStart name) b' code) : LineEffect b b' code := by
  obtain ⟨hw, himage, hunits, hrefs, hlits⟩ := define_keeps b isStart name
  obtain ⟨hle, hbelow, hunits', herror⟩ := h
  rw [hw] at hle
  rw [hw, himage] at hbelow
  rw [hw, himage, hrefs, hlits] at herror
  exact ⟨hle, hbelow, hunits'.trans hunits, herror⟩

theorem labelledLine_lineEffect {c : Config} {b b' : Builder} {line : Text} {tokens rest : List Token} {name : Text}
    {code : LineCode} (h : b.labelledLine c line tokens name rest = .done code b') : LineEffect b b' code := by
  unfold Builder.labelledLine at h
  dsimp only at h
  split at h
  · cases h
    exact record_lineEffect b line tokens b.w _
  · split at h
    · cases h
    · exact (finishLine_lineEffect h).of_define

theorem assembleLine_lineEffect {c : Config} {b b' : Builder} {line : Text} {code : LineCode}
    (h : b.assembleLine c line = .done code b') : LineEffect b b' code := by
  unfold Builder.assembleLine at h
  dsimp only at h
  split at h
  · cases h
  · split at h
    · cases h
    · split at h
      · exact labelledLine_lineEffect h
      · exact finishLine_lineEffect h

/-- Settles O55: a line ends in its own part (`finishLine`), after at most one definition. -/
theorem assemblyIsAppendOnly : Obligations.AssemblyIsAppendOnly := by
  intro c b b' line code h
  obtain ⟨hw, hbelow, hunits, herror⟩ := assembleLine_lineEffect h
  exact ⟨hw, hbelow, hunits, herror⟩

/-! ### Operands of a machine instruction (R90 to R95, R99) -/

theorem needOperands_ok {ts : List Token} {r : Option (List Item)} {items : List Item}
    (h : needOperands ts r = .ok items) : r = some items := by
  unfold needOperands at h
  split at h
  · cases h
  · split at h
    · cases h; rfl
    · cases h

theorem noOperands_ok {ts : List Token} {is items : List Item} (h : noOperands ts is = .ok items) :
    ts = [] ∧ items = is := by
  unfold noOperands at h
  split at h
  · next hts => cases h; exact ⟨List.isEmpty_iff.mp hts, rfl⟩
  · cases h

theorem addrItem_some {a : Token} {it : Item} (h : addrItem a = some it) : AddressToken a it := by
  cases a <;> cases h <;> constructor

theorem addrIndex_some {ts : List Token} {it : Item} {x : Reg} (h : addrIndex ts = some (it, x)) :
    ∃ a, AddressToken a it ∧ (ts = [a] ∧ x = 0 ∨ ts = [a, .comma, .reg x]) := by
  unfold addrIndex at h
  split at h
  · next a =>
    obtain ⟨it', hit, heq⟩ := Option.map_eq_some_iff.mp h
    cases heq
    exact ⟨a, addrItem_some hit, .inl ⟨rfl, rfl⟩⟩
  · next a _ =>
    obtain ⟨it', hit, heq⟩ := Option.map_eq_some_iff.mp h
    cases heq
    exact ⟨a, addrItem_some hit, .inr rfl⟩
  · cases h

theorem operandFields_of_addrIndex {ts : List Token} {it : Item} {x : Reg} (h : addrIndex ts = some (it, x)) :
    OperandFields ts false (regId 0) (regId x) (some it) := by
  obtain ⟨a, ha, ⟨rfl, rfl⟩ | rfl⟩ := addrIndex_some h
  · exact .addr ha
  · exact .addrIndex x ha

theorem operandFields_of_reg_addrIndex (d : Reg) {ts : List Token} {it : Item} {x : Reg}
    (h : addrIndex ts = some (it, x)) :
    OperandFields (.reg d :: .comma :: ts) false (regId d) (regId x) (some it) := by
  obtain ⟨a, ha, ⟨rfl, rfl⟩ | rfl⟩ := addrIndex_some h
  · exact .regAddr d ha
  · exact .regAddrIndex d x ha

/-- Shape `REG_EADR` (R94). -/
theorem regEadrItems_some {c : Config} {o : Op} {ts : List Token} {items : List Item}
    (h : regEadrItems c o ts = some items) :
    ∃ d x it, OperandFields ts false (regId d) (regId x) (some it) ∧ items = addressed c o (regId d) (it, x) := by
  unfold regEadrItems at h
  split at h
  · next d rest =>
    obtain ⟨⟨it, x⟩, hrest, rfl⟩ := Option.map_eq_some_iff.mp h
    exact ⟨d, x, it, operandFields_of_reg_addrIndex d hrest, rfl⟩
  · cases h

/-! ### Shapes and formats (R72, R90) -/

/-- The formats that a mnemonic's operation and its register form have under each operand shape. -/
def Shape.Formats (own reg : Format) : Shape → Prop
  | .none => own = .n
  | .reg => own = .r
  | .eadr => own = .a ∨ own = .ra
  | .regEadr => own = .ra
  | .regRegOrMem => own = .ra ∧ reg = .rr

theorem Mnemonic.shape_formats (c : Config) (m : Mnemonic) : (m.shape c).Formats m.op.format m.regOp.format := by
  cases m
  case nop | hlt | ret => rfl
  case pop => rfl
  case push | jump | jpl | jmi | jnz | jze | jov | call | svc => exact .inl rfl
  case sla | sra | sll | srl =>
    unfold Mnemonic.shape
    cases c.shiftShape
    · exact .inr rfl
    · rfl
  case lad | st => rfl
  all_goals exact ⟨rfl, rfl⟩

theorem Mnemonic.hasOp_regOp {c : Config} {m : Mnemonic} (h : c.hasOp m.op = true) : c.hasOp m.regOp = true := by
  cases m
  case st => exact h
  all_goals simp [Config.hasOp, Mnemonic.regOp]

/-- The operation of a mnemonic's register form, or its own. -/
theorem Mnemonic.hasOp_form {c : Config} {m : Mnemonic} (h : c.hasOp m.op = true) (isReg : Bool) :
    c.hasOp (if isReg then m.regOp else m.op) = true := by
  cases isReg
  · exact h
  · exact hasOp_regOp h

/-! ### What an accepted machine instruction is -/

/-- The instruction word and the address word of accepted operands, which fill the fields of the form they select. -/
def Accepted (c : Config) (m : Mnemonic) (ts : List Token) (items : List Item) : Prop :=
  ∃ (isReg : Bool) (d s : Reg) (adr : Option Item), OperandFields ts isReg (regId d) (regId s) adr ∧
    OperandsFill (if isReg then m.regOp else m.op) d s (adr.map Item.initial) ∧
    items = .word (opWord c (if isReg then m.regOp else m.op) (regId d) (regId s)) :: adr.toList

theorem accepted_regEadr {c : Config} {m : Mnemonic} {ts : List Token} {items : List Item} (hf : m.op.format = .ra)
    (h : regEadrItems c m.op ts = some items) : Accepted c m ts items := by
  obtain ⟨d, x, it, hfields, rfl⟩ := regEadrItems_some h
  exact ⟨false, d, x, some it, hfields, operandsFill_of_format_ra hf d x it.initial, rfl⟩

theorem accepted_of_instrBody {c : Config} {m : Mnemonic} {ts : List Token} {items : List Item}
    (h : instrBody c m ts = .ok items) : Accepted c m ts items := by
  have hformats := m.shape_formats c
  unfold instrBody at h
  cases hshape : m.shape c <;> simp only [hshape, Shape.Formats] at h hformats
  case none =>
    obtain ⟨rfl, rfl⟩ := noOperands_ok h
    exact ⟨false, 0, 0, none, .none, ⟨by simp [hformats, Format.hasAddress], fun _ => rfl, fun _ => rfl⟩, rfl⟩
  case reg =>
    have hitems := needOperands_ok h
    split at hitems
    · next r =>
      cases hitems
      exact ⟨false, r, 0, none, .reg r, ⟨by simp [hformats, Format.hasAddress], by simp [hformats], fun _ => rfl⟩, rfl⟩
    · cases hitems
  case eadr =>
    obtain ⟨⟨it, x⟩, haddr, rfl⟩ := Option.map_eq_some_iff.mp (needOperands_ok h)
    refine ⟨false, 0, x, some it, operandFields_of_addrIndex haddr, ?_, rfl⟩
    obtain hf | hf := hformats
    · exact ⟨by simp [hf, Format.hasAddress], fun _ => rfl, by simp [hf]⟩
    · exact operandsFill_of_format_ra hf 0 x it.initial
  case regEadr => exact accepted_regEadr hformats (needOperands_ok h)
  case regRegOrMem =>
    obtain ⟨hmem, hreg⟩ := hformats
    have hitems := needOperands_ok h
    unfold regRegOrMemItems at hitems
    split at hitems
    · next d r =>
      cases hitems
      exact ⟨true, d, r, none, .regReg d r, ⟨by simp [hreg, Format.hasAddress], by simp [hreg], by simp [hreg]⟩, rfl⟩
    · exact accepted_regEadr hmem hitems

/-- Settles O57: the accepted operands fill the fields of the form they select, so their words decode. -/
theorem assembledInstructionsDecode : Obligations.AssembledInstructionsDecode := by
  intro c m ts items rest hmap hop h
  obtain ⟨isReg, d, s, adr, hfields, hfill, rfl⟩ := accepted_of_instrBody h
  obtain ⟨i, hi, hencode⟩ := hfill.exists_encode_eq c
  have hwords : (Item.word (opWord c (if isReg then m.regOp else m.op) (regId d) (regId s)) :: adr.toList).map
      Item.initial = encode c i := by
    rw [hencode]
    cases adr <;> rfl
  refine ⟨i, isReg, regId d, regId s, adr, hfields, rfl, hi, hwords, ?_⟩
  rw [hwords, hencode]
  exact hfill.decode_eq hi hmap (Mnemonic.hasOp_form hop isReg) rest

end Sys2Proof.Machine
end

section
/-! The computed forms from beginning to end, for LD and every other instruction that has one, and LAD and ST
(R120 to R123). -/
namespace Sys2Proof.Machine

/-! ### The computed forms -/

/-- The effective address is the only one, so when it is outside the image, all are. -/
theorem EaIs.none_inside {s : State} {adr : Word} {x : Reg} {a : Nat} (hea : EaIs s adr x a) (hout : ¬ InImage s a) :
    ∀ b, EaIs s adr x b → ¬ InImage s b :=
  fun _ hb => EaIs.unique hea hb ▸ hout

/-- A computed memory form with an effective address: what `f` gives goes to `GR[d]` and the flags and nothing else
changes, or the operand is an illegal access. -/
theorem memForm_onlyResult {s : State} {adr : Word} {x : Reg} {a : Nat} (hea : EaIs s adr x a)
    (f : Word → Word → Word × Bool) (d : Reg) :
    (InImage s a → ∃ t, memForm f d x adr s = .next t ∧
      OnlyResult s t d (f (s.reg d) (s.word a)).1 (f (s.reg d) (s.word a)).2) ∧
    (¬ InImage s a → memForm f d x adr s = .fault .illegalAccess) :=
  ⟨fun hin => ⟨_, memForm_next.mpr ⟨a, hea, hin, rfl⟩, onlyResult_writeBack s d _⟩,
    fun hout => memForm_none_inside (hea.none_inside hout) f d⟩

/-- A computed register form always completes, with the same effect. -/
theorem regForm_onlyResult (f : Word → Word → Word × Bool) (d r : Reg) (s : State) :
    ∃ t, regForm f d r s = .next t ∧ OnlyResult s t d (f (s.reg d) (s.reg r)).1 (f (s.reg d) (s.reg r)).2 :=
  ⟨_, regForm_eq f d r s, onlyResult_writeBack s d _⟩

/-! ### Load, move, store -/

/-- Settles O22: LD is the computed form of the second operand with a cleared overflow bit, in memory and registers. -/
theorem loadsWriteRegisterAndFlags : Obligations.LoadsWriteRegisterAndFlags := by
  intro s d x adr a hea
  obtain ⟨hload, hfault⟩ := memForm_onlyResult hea (clearing second) d
  exact ⟨hload, hfault, regForm_onlyResult (clearing second) d x s⟩

/-- Settles O23: the address is written with its flags or by a register write alone, as `LAD_SETS_FLAGS` says. -/
theorem loadAddressWritesTheEffectiveAddress : Obligations.LoadAddressWritesTheEffectiveAddress := by
  intro s d x adr a hea
  refine ⟨_, execLad_next.mpr ⟨a, hea, rfl⟩, fun hflags => ?_, fun hflags => ?_⟩
  · rw [hflags]
    exact onlyRegister_setReg s d _
  · rw [hflags]
    exact onlyResult_writeBack s d _

/-- Settles O24: inside the image ST is one word write, which leaves every other field of the state; outside there is no
address to store at. -/
theorem storeWritesOneWord : Obligations.StoreWritesOneWord := by
  intro s d x adr a hwf hea
  refine ⟨fun hin => ?_, fun hout => execSt_none_inside (hea.none_inside hout) d⟩
  exact ⟨_, execSt_next.mpr ⟨a, hea, hin, rfl⟩, storesAt_setWord s hwf a _, fun _ _ => rfl, ⟨rfl, rfl, rfl⟩,
    ⟨rfl, rfl⟩, ⟨rfl, rfl⟩, rfl, rfl, rfl, rfl, rfl, rfl⟩

end Sys2Proof.Machine
end

section
/-! The four arithmetic functions (R138), and ADDA, ADDL, SUBA, SUBL in their two forms (R130 to R137). -/
namespace Sys2Proof.Machine

/-- An integer is inside the signed range exactly if its low 16 bits, read as signed, are the integer itself. -/
theorem outsideSigned_eq_false_iff (t : Int) : outsideSigned t = false ↔ (w16 t).toInt = t := by
  rw [w16, BitVec.toInt_ofInt, Int.bmod_eq_iff (by decide)]
  simp only [outsideSigned, Bool.or_eq_false_iff, decide_eq_false_iff_not]
  omega

/-- Settles O25: the results are the machine words' own sum and difference, and `w16` keeps an integer inside the signed
range. -/
theorem arithmeticWrapsAndFlagsOverflow : Obligations.ArithmeticWrapsAndFlagsOverflow := by
  intro a b
  refine ⟨?_, ?_, ?_, ?_, outsideSigned_eq_false_iff _, outsideSigned_eq_false_iff _, ?_, ?_⟩
  · rw [addA_fst, addL_fst]
  · rw [subA_fst, subL_fst]
  · rw [addL_fst, BitVec.toNat_add]
  · rw [subL_fst, BitVec.toNat_sub]
    omega
  · rw [addL_snd, decide_eq_true_iff]
    omega
  · rw [subL_snd, decide_eq_true_iff]

/-- Settles O26: each is the computed memory form of its function, whose equations give result and overflow bit. -/
theorem arithmeticMemoryForms : Obligations.ArithmeticMemoryForms := by
  intro s d x adr a hea
  refine ⟨fun hin => ?_, fun hout => ?_⟩
  · have completes (f : Word → Word → Word × Bool) :
        memForm f d x adr s = .next (s.writeBack d (f (s.reg d) (s.word a))) :=
      memForm_next.mpr ⟨a, hea, hin, rfl⟩
    exact ⟨⟨_, completes addA, onlyResult_of (addA_fst ..) (addA_snd ..)⟩,
      ⟨_, completes addL, onlyResult_of (addL_fst ..) (addL_snd ..)⟩,
      ⟨_, completes subA, onlyResult_of (subA_fst ..) (subA_snd ..)⟩,
      ⟨_, completes subL, onlyResult_of (subL_fst ..) (subL_snd ..)⟩⟩
  · have faults (f : Word → Word → Word × Bool) : memForm f d x adr s = .fault .illegalAccess :=
      memForm_none_inside (hea.none_inside hout) f d
    simp only [List.forall_mem_cons]
    exact ⟨faults addA, faults addL, faults subA, faults subL, List.forall_mem_nil _⟩

/-- Settles O27: each is the computed register form of its function, which always completes. -/
theorem arithmeticRegisterForms : Obligations.ArithmeticRegisterForms := by
  intro s d r
  exact ⟨⟨_, regForm_eq addA d r s, onlyResult_of (addA_fst ..) (addA_snd ..)⟩,
    ⟨_, regForm_eq addL d r s, onlyResult_of (addL_fst ..) (addL_snd ..)⟩,
    ⟨_, regForm_eq subA d r s, onlyResult_of (subA_fst ..) (subA_snd ..)⟩,
    ⟨_, regForm_eq subL d r s, onlyResult_of (subL_fst ..) (subL_snd ..)⟩⟩

end Sys2Proof.Machine
end

section
/-! The three boolean functions bit by bit (R151, D34), and AND, OR, XOR in their two forms (R145 to R150). -/
namespace Sys2Proof.Machine

/-- Bit `i` of `f`'s result is `g` of the operands' bits `i`, for every `i`. -/
def Bitwise (f : Word → Word → Word) (g : Bool → Bool → Bool) : Prop :=
  ∀ (a b : Word) (i : Nat), (f a b).getLsbD i = g (a.getLsbD i) (b.getLsbD i)

theorem andW_bitwise : Bitwise andW and := fun _ _ _ => BitVec.getLsbD_and

theorem orW_bitwise : Bitwise orW or := fun _ _ _ => BitVec.getLsbD_or

theorem xorW_bitwise : Bitwise xorW xor := fun _ _ _ => BitVec.getLsbD_xor

section
variable {f : Word → Word → Word} {g : Bool → Bool → Bool} (hf : Bitwise f g)
include hf

/-- The memory form of a bitwise function with a cleared overflow bit, at an address inside the image. -/
theorem memForm_bitwise {s : State} {adr : Word} {x : Reg} {a : Nat} (hea : EaIs s adr x a) (hin : InImage s a)
    (d : Reg) :
    ∃ t r, memForm (clearing f) d x adr s = .next t ∧ OnlyResult s t d r false ∧
      ∀ i, r.getLsbD i = g ((s.reg d).getLsbD i) ((s.word a).getLsbD i) := by
  obtain ⟨t, hnext, hresult⟩ := (memForm_onlyResult hea (clearing f) d).1 hin
  exact ⟨t, _, hnext, hresult, hf _ _⟩

/-- Its register form, which always completes. -/
theorem regForm_bitwise (d q : Reg) (s : State) :
    ∃ t r, regForm (clearing f) d q s = .next t ∧ OnlyResult s t d r false ∧
      ∀ i, r.getLsbD i = g ((s.reg d).getLsbD i) ((s.reg q).getLsbD i) := by
  obtain ⟨t, hnext, hresult⟩ := regForm_onlyResult (clearing f) d q s
  exact ⟨t, _, hnext, hresult, hf _ _⟩

end

/-- Settles O28: each instruction is the memory or register form of its function, which is bitwise. -/
theorem booleanInstructionsWorkBitwise : Obligations.BooleanInstructionsWorkBitwise := by
  refine ⟨fun s d x adr a hea hin => ?_, fun s d q => ?_⟩
  · exact ⟨memForm_bitwise andW_bitwise hea hin d, memForm_bitwise orW_bitwise hea hin d,
      memForm_bitwise xorW_bitwise hea hin d⟩
  · exact ⟨regForm_bitwise andW_bitwise d q s, regForm_bitwise orW_bitwise d q s, regForm_bitwise xorW_bitwise d q s⟩

end Sys2Proof.Machine
end

section
/-! CPA and CPL in their two forms (R155 to R158), and the subtractions whose flags they set (R159). -/
namespace Sys2Proof.Machine

/-- Settles O30: each is the compare form of its function, whose equations give the difference and the overflow bit. -/
theorem comparesWriteOnlyFlags : Obligations.ComparesWriteOnlyFlags := by
  refine ⟨fun s d x adr a hea hin => ?_, fun s d r => ?_⟩
  · have completes (f : Word → Word → Word × Bool) :
        compareMem f d x adr s = .next (s.setOSZ (f (s.reg d) (s.word a)).2 (f (s.reg d) (s.word a)).1) :=
      compareMem_next.mpr ⟨a, hea, hin, rfl⟩
    exact ⟨⟨_, completes subA, onlyFlags_of (subA_fst ..) (subA_snd ..)⟩,
      ⟨_, completes subL, onlyFlags_of (subL_fst ..) (subL_snd ..)⟩⟩
  · exact ⟨⟨_, compareReg_eq subA d r s, onlyFlags_of (subA_fst ..) (subA_snd ..)⟩,
      ⟨_, compareReg_eq subL d r s, onlyFlags_of (subL_fst ..) (subL_snd ..)⟩⟩

/-! ### Compare and subtract on the same operands -/

/-- What R159 says of a compare's next state `t` and the next state `u` of the subtraction of `b` from `GR[d]`. -/
def ComparesAsSubtracts (s t u : State) (d : Reg) (b : Word) : Prop :=
  t.of = u.of ∧ t.sf = u.sf ∧ t.zf = u.zf ∧ t.gr = s.gr ∧ (t.zf = true ↔ s.reg d = b) ∧ u.reg d = s.reg d - b

/-- The flag update and the write-back of one difference agree on the flags, and a difference is zero exactly when its
operands are equal. -/
theorem comparesAsSubtracts_of_difference (s : State) (d : Reg) {b : Word} {p : Word × Bool}
    (hp : p.1 = s.reg d - b) : ComparesAsSubtracts s (s.setOSZ p.2 p.1) (s.writeBack d p) d b := by
  refine ⟨rfl, rfl, rfl, rfl, ?_, (s.writeBack_reg_same d p).trans hp⟩
  calc (p.1 == 0) = true
      ↔ s.reg d - b = 0 := by rw [hp, beq_iff_eq]
    _ ↔ s.reg d = b := sub_eq_zero

section
variable {f : Word → Word → Word × Bool} (hf : ∀ a b, (f a b).1 = a - b)
include hf

/-- The compare and the computed memory form of one subtraction, which read the word at the same address. -/
theorem compareMem_comparesAsSubtracts {s t u : State} {d x : Reg} {adr : Word} {a : Nat} (hea : EaIs s adr x a)
    (ht : compareMem f d x adr s = .next t) (hu : memForm f d x adr s = .next u) :
    ComparesAsSubtracts s t u d (s.word a) := by
  obtain ⟨a₁, hea₁, -, rfl⟩ := compareMem_next.mp ht
  obtain ⟨a₂, hea₂, -, rfl⟩ := memForm_next.mp hu
  obtain rfl := EaIs.unique hea hea₁
  obtain rfl := EaIs.unique hea hea₂
  exact comparesAsSubtracts_of_difference s d (hf _ _)

/-- The register forms of one subtraction, which read the same two registers. -/
theorem compareReg_comparesAsSubtracts {s t u : State} {d r : Reg}
    (ht : compareReg f d r s = .next t) (hu : regForm f d r s = .next u) :
    ComparesAsSubtracts s t u d (s.reg r) := by
  rw [compareReg_eq] at ht
  rw [regForm_eq] at hu
  cases ht
  cases hu
  exact comparesAsSubtracts_of_difference s d (hf _ _)

end

/-- Settles O31: CPA is the compare form of SUBA's function and CPL of SUBL's, and both functions give the difference. -/
theorem compareFlagsAreSubtractFlags : Obligations.CompareFlagsAreSubtractFlags := by
  rintro s t u i j b d (⟨x, adr, a, rfl, rfl, hea, rfl⟩ | ⟨x, adr, a, rfl, rfl, hea, rfl⟩ | ⟨r, rfl, rfl, rfl⟩ |
    ⟨r, rfl, rfl, rfl⟩) ht hu
  · exact compareMem_comparesAsSubtracts subA_fst hea ht hu
  · exact compareMem_comparesAsSubtracts subL_fst hea ht hu
  · exact compareReg_comparesAsSubtracts subA_fst ht hu
  · exact compareReg_comparesAsSubtracts subL_fst ht hu

end Sys2Proof.Machine
end

section
/-! The four shift functions by bits, for every count (D13, D14, log entry 15), and SLA, SRA, SLL, SRL (R165 to R169). -/
namespace Sys2Proof.Machine

/-! ### The shift form -/

/-- A shift with count `n` always completes: what `f` gives goes to `GR[d]` and the flags and nothing else changes. -/
theorem shiftForm_onlyResult {s : State} {adr : Word} {x : Reg} {n : Nat} (hea : EaIs s adr x n)
    (f : Word → Nat → Word × Bool) (d : Reg) :
    ∃ t, shiftForm f d x adr s = .next t ∧ OnlyResult s t d (f (s.reg d) n).1 (f (s.reg d) n).2 :=
  ⟨_, shiftForm_next.mpr ⟨n, hea, rfl⟩, onlyResult_writeBack s d _⟩

/-! ### The bits of a shifted word -/

/-- The plain left shift: zeros enter at bit 0. -/
theorem getLsbD_shiftLeft_word (v : Word) (n : Nat) {i : Nat} (hi : i < 16) :
    (v <<< n).getLsbD i = (decide (n ≤ i) && v.getLsbD (i - n)) := by
  rw [BitVec.getLsbD_shiftLeft, decide_eq_true hi, Bool.true_and, ← decide_not, decide_eq_decide.mpr Nat.not_lt]

/-- A word has no bit above bit 15. -/
theorem getLsbD_eq_and_getLsbD (v : Word) (i : Nat) : v.getLsbD i = (decide (i < 16) && v.getLsbD i) := by
  by_cases hi : i < 16
  · simp [hi]
  · simp [hi, BitVec.getLsbD_of_ge v i (by omega)]

/-- `w16` of the product by `2 ^ n` is the plain left shift. -/
theorem w16_mul_two_pow (v : Word) (n : Nat) : w16 (v.toNat * 2 ^ n : Nat) = v <<< n := by
  rw [w16_natCast, ← Nat.shiftLeft_eq]
  rfl

/-- `w16` of the quotient by `2 ^ n` is the logical right shift. -/
theorem w16_div_two_pow (v : Word) (n : Nat) : w16 (v.toNat / 2 ^ n : Nat) = v >>> n := by
  rw [w16_natCast, ← Nat.shiftRight_eq_div_pow, ← BitVec.toNat_ushiftRight, BitVec.ofNat_toNat, BitVec.setWidth_eq]

/-! ### SLL and SRL -/

/-- A count with a last step, which takes a bit of the word out, has at most 15 steps before it. -/
theorem decide_count_succ (k : Nat) : decide (1 ≤ k + 1 ∧ k + 1 ≤ 16) = decide (k < 16) :=
  decide_eq_decide.mpr (by omega)

theorem shiftLeftL_fst (v : Word) (n : Nat) : (shiftLeftL v n).1 = v <<< n := by
  cases n with
  | zero => simp [shiftLeftL]
  | succ k => rw [← w16_mul_two_pow, pow_succ, ← mul_assoc]; rfl

/-- The bit shifted out last: bit 15 after all steps but the last. -/
theorem shiftLeftL_snd (v : Word) (n : Nat) :
    (shiftLeftL v n).2 = (decide (1 ≤ n ∧ n ≤ 16) && v.getLsbD (16 - n)) := by
  cases n with
  | zero => rfl
  | succ k =>
    rw [decide_count_succ]
    calc (v.toNat * 2 ^ k).testBit 15
        = (decide (k ≤ 15) && v.toNat.testBit (15 - k)) := Nat.testBit_mul_two_pow ..
      _ = (decide (k < 16) && v.getLsbD (16 - (k + 1))) := by
        rw [BitVec.testBit_toNat, decide_eq_decide.mpr Nat.lt_succ_iff, show 16 - (k + 1) = 15 - k by omega]

theorem shiftRightL_fst (v : Word) (n : Nat) : (shiftRightL v n).1 = v >>> n := by
  cases n with
  | zero => simp [shiftRightL]
  | succ k => rw [← w16_div_two_pow, pow_succ, ← Nat.div_div_eq_div_mul]; rfl

/-- The bit shifted out last: bit 0 after all steps but the last. -/
theorem shiftRightL_snd (v : Word) (n : Nat) :
    (shiftRightL v n).2 = (decide (1 ≤ n ∧ n ≤ 16) && v.getLsbD (n - 1)) := by
  cases n with
  | zero => rfl
  | succ k =>
    rw [decide_count_succ]
    calc (v.toNat / 2 ^ k).testBit 0
        = v.getLsbD k := by rw [Nat.testBit_div_two_pow, Nat.zero_add, BitVec.testBit_toNat]
      _ = (decide (k < 16) && v.getLsbD k) := getLsbD_eq_and_getLsbD v k

/-- Settles O33: the results are the word's own shifts, and the overflow bits are read off before the last step. -/
theorem logicalShiftsMoveBits : Obligations.LogicalShiftsMoveBits := by
  intro s d x adr n hea
  obtain ⟨t, hleft, htres⟩ := shiftForm_onlyResult hea shiftLeftL d
  obtain ⟨u, hright, hures⟩ := shiftForm_onlyResult hea shiftRightL d
  refine ⟨⟨t, _, _, hleft, htres, fun i hi => ?_, shiftLeftL_snd _ n⟩,
    ⟨u, _, _, hright, hures, fun i _ => ?_, shiftRightL_snd _ n⟩⟩
  · rw [shiftLeftL_fst, getLsbD_shiftLeft_word _ n hi]
  · rw [shiftRightL_fst, BitVec.getLsbD_ushiftRight, Nat.add_comm, ← getLsbD_eq_and_getLsbD]

/-! ### SLA and SRA -/

/-- Bits 14:0 of one word under the sign bit of another. -/
theorem getLsbD_under_sign (t v : Word) {i : Nat} (hi : i < 16) :
    ((t &&& 0x7FFF) ||| (v &&& 0x8000)).getLsbD i = if i < 15 then t.getLsbD i else v.getLsbD i := by
  have hlow : ∀ i < 16, (0x7FFF : Word).getLsbD i = decide (i < 15) := by decide
  have hsign : ∀ i < 16, (0x8000 : Word).getLsbD i = !decide (i < 15) := by decide
  rw [BitVec.getLsbD_or, BitVec.getLsbD_and, BitVec.getLsbD_and, hlow i hi, hsign i hi]
  split <;> simp [*]

/-- Of the count 0 too: the plain shift's bits 14:0 under the word's own sign, and the two signs compared. -/
theorem shiftLeftA_eq (v : Word) (n : Nat) :
    shiftLeftA v n = (((v <<< n) &&& 0x7FFF) ||| (v &&& 0x8000), (v <<< n).getLsbD 15 ^^ v.getLsbD 15) := by
  cases n with
  | zero =>
    have hself : (v &&& 0x7FFF) ||| (v &&& 0x8000) = v :=
      BitVec.eq_of_getLsbD_eq fun i hi => by rw [getLsbD_under_sign v v hi, ite_self]
    rw [BitVec.shiftLeft_zero, hself, Bool.xor_self]
    rfl
  | succ k => rw [← w16_mul_two_pow]; rfl

/-- Floor division by `2 ^ n` is the sign-propagating shift. -/
theorem shiftRightA_fst (v : Word) (n : Nat) : (shiftRightA v n).1 = v.sshiftRight n := by
  cases n with
  | zero => simp [shiftRightA]
  | succ k => simp [shiftRightA, w16, BitVec.sshiftRight, Int.shiftRight_eq_div_pow]

/-- The bit shifted out last: bit `n - 1` of the sign-extended word. -/
theorem shiftRightA_snd (v : Word) (n : Nat) :
    (shiftRightA v n).2 = (decide (n ≠ 0) && v.getLsbD (min (n - 1) 15)) := by
  cases n with
  | zero => rfl
  | succ k =>
    show (if k + 1 ≤ 16 then v.getLsbD k else v.getLsbD 15) = v.getLsbD (min k 15)
    split
    · rw [Nat.min_eq_left (by omega)]
    · rw [Nat.min_eq_right (by omega)]

/-- The sign-propagating right shift: above bit 15 the word goes on with its sign. -/
theorem getLsbD_sshiftRight_word (v : Word) (n : Nat) {i : Nat} (hi : i < 16) :
    (v.sshiftRight n).getLsbD i = v.getLsbD (min (i + n) 15) := by
  rw [BitVec.getLsbD_sshiftRight, decide_eq_false (by omega), BitVec.msb_eq_getLsbD_last, Nat.add_comm n i]
  split
  · rw [Nat.min_eq_left (by omega)]; rfl
  · rw [Nat.min_eq_right (by omega)]; rfl

/-- Settles O32: SLA is the plain shift under the old sign, SRA the sign-propagating shift, for the count 0 too. -/
theorem arithmeticShiftsMoveBits : Obligations.ArithmeticShiftsMoveBits := by
  intro s d x adr n hea
  obtain ⟨t, hleft, htres⟩ := shiftForm_onlyResult hea shiftLeftA d
  obtain ⟨u, hright, hures⟩ := shiftForm_onlyResult hea shiftRightA d
  refine ⟨⟨t, _, _, hleft, htres, fun i hi => ?_, ?_, ?_⟩,
    ⟨u, _, _, hright, hures, fun i hi => ?_, shiftRightA_snd _ n⟩⟩
  · rw [shiftLeftA_eq, getLsbD_under_sign _ _ (by omega), if_pos hi, getLsbD_shiftLeft_word _ n (by omega)]
  · rw [shiftLeftA_eq, getLsbD_under_sign _ _ (by decide), if_neg (by decide)]
  · rw [shiftLeftA_eq, getLsbD_shiftLeft_word _ n (by decide)]
  · rw [shiftRightA_fst, getLsbD_sshiftRight_word _ n hi]

end Sys2Proof.Machine
end

section
/-! The six jumps (R180 to R186, D16): the target of a jump that is taken, and the jump that is not. -/
namespace Sys2Proof.Machine

/-- Without an effective address inside the image, whether it is outside or there is none, a jump has no target. -/
theorem jumpTarget_none_inside {s : State} {adr : Word} {x : Reg} (h : ∀ a, EaIs s adr x a → ¬ InImage s a) :
    jumpTarget s adr x = .error .illegalAccess := by
  cases htarget : jumpTarget s adr x with
  | ok t =>
    obtain ⟨hea, hin⟩ := jumpTarget_ok.mp htarget
    exact absurd hin (h t hea)
  | error f => rw [jumpTarget_fault htarget]

theorem jumpForm_none_inside {s : State} {adr : Word} {x : Reg} (h : ∀ a, EaIs s adr x a → ¬ InImage s a) :
    jumpForm true x adr s = .fault .illegalAccess := by
  rw [jumpForm, if_pos rfl, jumpTarget_none_inside h]
  rfl

/-- All that a jump on the condition `taken` can do. -/
theorem jumpForm_transfers (s : State) (x : Reg) (adr : Word) (taken : Bool) :
    (taken = true → ∀ a, EaIs s adr x a → InImage s a → jumpForm taken x adr s = .next { s with pc := a }) ∧
    (taken = true → (∀ a, EaIs s adr x a → ¬ InImage s a) → jumpForm taken x adr s = .fault .illegalAccess) ∧
    (taken = false → jumpForm taken x adr s = .next s) := by
  refine ⟨fun htaken a hea hin => ?_, fun htaken hout => ?_, fun hnot => ?_⟩
  · exact jumpForm_next.mpr (.inl ⟨htaken, a, hea, hin, rfl⟩)
  · rw [htaken]
    exact jumpForm_none_inside hout
  · exact jumpForm_next.mpr (.inr ⟨hnot, rfl⟩)

/-- Settles O34: each jump is the common shape on its own condition. -/
theorem jumpsTransferControl : Obligations.JumpsTransferControl := by
  intro s x adr p hp
  have jump := jumpForm_transfers s x adr
  simp only [List.mem_cons, List.not_mem_nil, or_false] at hp
  obtain rfl | rfl | rfl | rfl | rfl | rfl := hp
  exacts [jump true, jump (!s.sf && !s.zf), jump s.sf, jump (!s.zf), jump s.zf, jump s.of]

end Sys2Proof.Machine
end

section
/-! PUSH, POP, CALL, RET (R195 to R199; D11, D12, D17): their faults, the state each leaves, and what a pair of them
gives back. -/
namespace Sys2Proof.Machine

/-! ### Faults -/

theorem execPop_fault {d : Reg} {s : State} {f : Fault} :
    execPop d s = .fault f ↔ s.cfg.memSize ≤ s.sp ∧ f = .stackUnderflow := by
  unfold execPop
  rw [conclude_fault, except_bind_error, State.pop_error]
  simp

theorem execRet_fault {s : State} {f : Fault} :
    execRet s = .fault f ↔ s.cfg.memSize ≤ s.sp ∧ f = .stackUnderflow := by
  unfold execRet
  rw [conclude_fault, except_bind_error, State.pop_error]
  simp

section
variable {s : State} {adr : Word} {x : Reg} {a : Nat} (hea : EaIs s adr x a)
include hea

/-- With an effective address, the faults of PUSH are those of the push. -/
theorem execPush_fault {f : Fault} :
    execPush x adr s = .fault f ↔
      (s.sp = 0 ∧ f = .stackOverflow) ∨ (s.sp ≠ 0 ∧ s.cfg.memSize ≤ s.sp - 1 ∧ f = .illegalAccess) := by
  rw [execPush, conclude_fault, effectiveAddress_ok.mpr hea, except_ok_bind, State.push_error]

/-- CALL looks at SP before it looks at the target (D17). -/
theorem execCall_overflow (hsp : s.sp = 0) : execCall x adr s = .fault .stackOverflow := by
  rw [execCall, effectiveAddress_ok.mpr hea, except_ok_bind, if_pos hsp]
  rfl

/-- With SP within its range the store below the top is inside the image, so a PUSH can only overflow. -/
theorem execPush_not_illegalAccess (hsp : s.sp ≤ s.cfg.memSize) : execPush x adr s ≠ .fault .illegalAccess := by
  intro h
  obtain ⟨-, hf⟩ | ⟨hne, hout, -⟩ := (execPush_fault hea).mp h
  · cases hf
  · omega

/-- The same for a CALL of a target inside the image. -/
theorem execCall_not_illegalAccess (hsp : s.sp ≤ s.cfg.memSize) (hin : InImage s a) :
    execCall x adr s ≠ .fault .illegalAccess := by
  intro h
  obtain hzero | hpos := Nat.eq_zero_or_pos s.sp
  · rw [execCall_overflow hea hzero] at h
    cases h
  · obtain ⟨t, hnext, -⟩ := (execCall_checks hea ⟨hpos, hsp⟩).1 hin
    rw [hnext] at h
    cases h

end

/-- Settles O41: a POP or a RET can only underflow, a PUSH or a CALL of a target inside the image only overflow. -/
theorem stackAccessesStayInTheImage : Obligations.StackAccessesStayInTheImage := by
  intro s d x adr hsp
  refine ⟨fun h => ?_, fun h => ?_, fun a hea =>
    ⟨execPush_not_illegalAccess hea hsp, execCall_not_illegalAccess hea hsp⟩⟩
  · obtain ⟨-, hf⟩ := execPop_fault.mp h
    cases hf
  · obtain ⟨-, hf⟩ := execRet_fault.mp h
    cases hf

/-! ### The four instructions -/

/-- A push writes the word that SP then names, and no other. -/
theorem storesAt_setSp_setWord (s : State) (h : s.mem.wf) (n : Nat) (v : Word) :
    StoresAt s ((s.setSp n).setWord n v) n v :=
  storesAt_setWord (s.setSp n) h n v

/-- Settles O35: the effective address is pushed, and the push leaves the rest of the state. -/
theorem pushStoresBelowTheTop : Obligations.PushStoresBelowTheTop := by
  intro s x adr v hwf hsp hea
  refine ⟨fun hne => ?_, fun hzero => (execPush_fault hea).mpr (.inl ⟨hzero, rfl⟩)⟩
  exact ⟨_, execPush_next.mpr ⟨v, hea, hne, by omega, rfl⟩, rfl, storesAt_setSp_setWord s hwf _ _, fun _ _ => rfl,
    ⟨rfl, rfl, rfl⟩, rfl, ⟨rfl, rfl⟩, rfl, rfl, rfl, rfl, rfl, rfl⟩

/-- Settles O36: after the move of SP the top is written with its flags, or by a register write alone, as
`POP_SETS_FLAGS` says. -/
theorem popTakesTheTop : Obligations.PopTakesTheTop := by
  intro s d
  refine ⟨fun hsp => ?_, fun hempty => execPop_fault.mpr ⟨hempty, rfl⟩⟩
  have hnext := execPop_next (d := d).mpr ⟨hsp, rfl⟩
  cases hc : s.cfg.popSetsFlags with
  | true =>
    rw [if_pos hc] at hnext
    obtain ⟨hreg, hof, hsz, hregs, hmem, ⟨hpc, hsp'⟩, hstreams, hcontrol⟩ :=
      onlyResult_writeBack (s.setSp (s.sp + 1)) d (s.word s.sp, false)
    exact ⟨_, hnext, hreg, hsp', hregs, hmem, hpc, hstreams, hcontrol, nofun, fun _ => ⟨hof, hsz⟩⟩
  | false =>
    rw [if_neg (by simp [hc])] at hnext
    obtain ⟨hreg, hregs, hflags, hmem, ⟨hpc, hsp'⟩, hstreams, hcontrol⟩ :=
      onlyRegister_setReg (s.setSp (s.sp + 1)) d (s.word s.sp)
    exact ⟨_, hnext, hreg, hsp', hregs, hmem, hpc, hstreams, hcontrol, fun _ => hflags, nofun⟩

/-- Settles O37: the return address is pushed before PC moves; a fault is the stack's first and then the target's. -/
theorem callPushesReturnAddress : Obligations.CallPushesReturnAddress := by
  intro s x adr a hwf hsp hea
  refine ⟨fun hne hin => ?_, execCall_overflow hea, fun hne hout =>
    (execCall_checks hea ⟨Nat.pos_of_ne_zero hne, hsp⟩).2 hout⟩
  exact ⟨_, execCall_next.mpr ⟨a, hea, hne, hin, by omega, rfl⟩, rfl, rfl, storesAt_setSp_setWord s hwf _ _,
    fun _ _ => rfl, ⟨rfl, rfl, rfl⟩, ⟨rfl, rfl⟩, rfl, rfl, rfl, rfl, rfl, rfl⟩

/-- Settles O38: RET moves SP and PC alone, or underflows. -/
theorem returnLoadsPcFromTheTop : Obligations.ReturnLoadsPcFromTheTop := by
  intro s
  refine ⟨fun hsp => ?_, fun hempty => execRet_fault.mpr ⟨hempty, rfl⟩⟩
  exact ⟨_, execRet_next.mpr ⟨hsp, rfl⟩, rfl, rfl, fun _ _ => rfl, ⟨rfl, rfl, rfl⟩, fun _ => rfl, ⟨rfl, rfl⟩,
    rfl, rfl, rfl, rfl, rfl, rfl⟩

/-! ### Two instructions in a row -/

section
variable {s t u : State}

theorem RegsKept.trans {but : List Reg} (h : RegsKept s t but) (h' : RegsKept t u but) : RegsKept s u but :=
  fun r hr => (h' r hr).trans (h r hr)

theorem RegsKept.weaken {but : List Reg} (h : RegsKept s t []) : RegsKept s t but :=
  fun r _ => h r List.not_mem_nil

theorem CondFlagsKept.trans (h : CondFlagsKept s t) (h' : CondFlagsKept t u) : CondFlagsKept s u := by
  obtain ⟨hof, hsf, hzf⟩ := h
  obtain ⟨hof', hsf', hzf'⟩ := h'
  exact ⟨hof'.trans hof, hsf'.trans hsf, hzf'.trans hzf⟩

theorem ControlKept.trans (h : ControlKept s t) (h' : ControlKept t u) : ControlKept s u := by
  obtain ⟨hhalt, hstep, hcount, hbp, hchk, hcfg⟩ := h
  obtain ⟨hhalt', hstep', hcount', hbp', hchk', hcfg'⟩ := h'
  exact ⟨hhalt'.trans hhalt, hstep'.trans hstep, hcount'.trans hcount, hbp'.trans hbp, hchk'.trans hchk,
    hcfg'.trans hcfg⟩

theorem ControlKept.cfg_eq (h : ControlKept s t) : t.cfg = s.cfg := by
  obtain ⟨-, -, -, -, -, hcfg⟩ := h
  exact hcfg

/-- After a push the stack is not empty. -/
theorem sp_lt_memSize_of_pushed (hsp : s.sp ≤ s.cfg.memSize) (hne : s.sp ≠ 0) (ht : t.sp = s.sp - 1)
    (hcontrol : ControlKept s t) : t.sp < t.cfg.memSize := by
  rw [hcontrol.cfg_eq]
  omega

end

/-- Settles O39: RET takes from the stack the word that CALL put there. -/
theorem callThenReturnResumes : Obligations.CallThenReturnResumes := by
  rintro s x adr a ⟨-, hsp, -, hwf, -⟩ hea hin hne
  obtain ⟨hcall, -⟩ := callPushesReturnAddress s x adr a hwf hsp hea
  obtain ⟨t, ht, -, htsp, ⟨htop, hothers⟩, htregs, htflags, -, htcontrol⟩ := hcall hne hin
  obtain ⟨hret, -⟩ := returnLoadsPcFromTheTop t
  obtain ⟨u, hu, hupc, husp, huregs, huflags, humem, -, hucontrol⟩ :=
    hret (sp_lt_memSize_of_pushed hsp hne htsp htcontrol)
  refine ⟨t, u, ht, hu, ?_, husp.trans (by rw [htsp, Nat.sub_one_add_one hne]), htregs.trans huregs,
    htflags.trans huflags, htcontrol.trans hucontrol, fun b hb => (humem b).trans (hothers b hb)⟩
  calc u.pc = (t.word (s.sp - 1)).toNat := by rw [hupc, htsp]
    _ = s.pc % 65536 := by rw [htop, BitVec.toNat_ofNat]

/-- Settles O40: POP takes from the stack the word that PUSH put there. -/
theorem pushThenPopGivesBack : Obligations.PushThenPopGivesBack := by
  rintro s x d adr v ⟨-, hsp, -, hwf, -⟩ hea hne
  obtain ⟨hpush, -⟩ := pushStoresBelowTheTop s x adr v hwf hsp hea
  obtain ⟨t, ht, htsp, ⟨htop, -⟩, htregs, -, htpc, -, htcontrol⟩ := hpush hne
  obtain ⟨hpop, -⟩ := popTakesTheTop t d
  obtain ⟨u, hu, hureg, husp, huregs, -, hupc, -⟩ := hpop (sp_lt_memSize_of_pushed hsp hne htsp htcontrol)
  refine ⟨t, u, ht, hu, ?_, husp.trans (by rw [htsp, Nat.sub_one_add_one hne]), hupc.trans htpc,
    htregs.weaken.trans huregs⟩
  calc u.reg d = t.word (s.sp - 1) := by rw [hureg, htsp]
    _ = BitVec.ofNat 16 v := htop

end Sys2Proof.Machine
end

section
/-! NOP, HLT and the two services of SVC (R210 to R216; D17 to D20, D25): what each does when it completes, and when a
supervisor call faults. -/
namespace Sys2Proof.Machine

/-- Settles O46: both are a state change of one word or none. -/
theorem nopAndHaltComplete : Obligations.NopAndHaltComplete := by
  intro s
  exact ⟨rfl, s.setHalt, exec_hlt s, rfl, fun _ _ => rfl, ⟨rfl, rfl, rfl⟩, fun _ => rfl, ⟨rfl, rfl⟩, ⟨rfl, rfl⟩,
    rfl, rfl, rfl, rfl, rfl⟩

/-! ### A supervisor call is its service -/

theorem exec_svc_of_done {x : Reg} {adr : Word} {s t : State} (h : supervisorCall x adr s = .done t) :
    exec (.svc x adr) s = .next t := by
  simp only [exec, execSvc, h]

theorem exec_svc_of_stopped {x : Reg} {adr : Word} {s t : State} {f : Fault}
    (h : supervisorCall x adr s = .stopped f t) : exec (.svc x adr) s = .fault f := by
  simp only [exec, execSvc, h, raise]

/-- Another call number is looked at and refused before any access (D17, D18). -/
theorem supervisorCall_of_unknown {x : Reg} {adr : Word} {s : State} {n : Nat} (h : EaIs s adr x n) (h1 : n ≠ 1)
    (h2 : n ≠ 2) : supervisorCall x adr s = .stopped .invalidOperation s := by
  simp only [supervisorCall, effectiveAddress_ok.mpr h, if_neg h1, if_neg h2]

/-! ### The services that complete -/

/-- The memory that the input service leaves: the line in the buffer, then its length in the count cell. -/
def inputMemory (s : State) (chars : Line) : Memory :=
  (storedBytes (s.reg 1).toNat chars s.mem).write (s.reg 2).toNat (w16 chars.length)

theorem inputService_line {s : State} {chars : Line} {rest : List Line} (hin : s.inStream = chars :: rest)
    (hcell : InImage s (s.reg 2).toNat) (hbuf : chars = [] ∨ (s.reg 1).toNat + chars.length ≤ s.cfg.memSize) :
    inputService s = .done { s with mem := inputMemory s chars, inStream := rest } := by
  have hstore := storeBytes_in_image chars (s.reg 1).toNat (s.setInStream rest) hbuf
  simp only [inputService, hin, hstore, ServiceResult.andThen]
  exact serviceWrite_done.mpr ⟨hcell, rfl⟩

theorem inputMemory_cell {s : State} (hwf : s.mem.wf) (chars : Line) :
    (inputMemory s chars).read (s.reg 2).toNat = BitVec.ofNat 16 chars.length := by
  rw [inputMemory, Memory.read_write_same (wf_storedBytes chars _ hwf), w16_natCast]

theorem inputMemory_buffer {s : State} (hwf : s.mem.wf) (chars : Line) {i : Nat} (hi : i < chars.length)
    (hne : (s.reg 1).toNat + i ≠ (s.reg 2).toNat) :
    (inputMemory s chars).read ((s.reg 1).toNat + i) = chars[i].setWidth 16 := by
  rw [inputMemory, Memory.read_write_other _ _ hne, storedBytes_inside chars _ i _ hwf hi]

theorem inputMemory_outside (s : State) (chars : Line) {a : Nat} (hne : a ≠ (s.reg 2).toNat)
    (ha : a < (s.reg 1).toNat ∨ (s.reg 1).toNat + chars.length ≤ a) : (inputMemory s chars).read a = s.word a := by
  rw [inputMemory, Memory.read_write_other _ _ hne, storedBytes_outside chars _ a _ ha]
  rfl

/-- Settles O42: the service leaves `inputMemory`, which is read at the count cell, in the buffer, and elsewhere. -/
theorem inputServiceStoresTheLine : Obligations.InputServiceStoresTheLine := by
  intro s x adr chars rest hwf hea hin hcell hbuf
  have hdone := inputService_line hin hcell hbuf
  rw [← supervisorCall_of_eaIs_one hea] at hdone
  refine ⟨_, exec_svc_of_done hdone, rfl, rfl, inputMemory_cell hwf chars, fun i hi hne => ?_,
    fun a hne ha => inputMemory_outside s chars hne ha, fun _ _ => rfl, ⟨rfl, rfl, rfl⟩, ⟨rfl, rfl⟩,
    rfl, rfl, rfl, rfl, rfl, rfl⟩
  have hbyte := chars[i].isLt
  calc ((inputMemory s chars).read ((s.reg 1).toNat + i)).toNat
    _ = chars[i].toNat % 65536 := by rw [inputMemory_buffer hwf chars hi hne, BitVec.toNat_setWidth]
    _ = chars[i].toNat := Nat.mod_eq_of_lt (by omega)

theorem inputService_atEnd {s : State} (hin : s.inStream = []) :
    inputService s = serviceWrite (s.reg 2).toNat 0xFFFF s := by
  simp only [inputService, hin]

/-- Settles O43: without a line the service is one write. -/
theorem inputServiceAtEndOfInput : Obligations.InputServiceAtEndOfInput := by
  intro s x adr hwf hea hin
  have hcall := (supervisorCall_of_eaIs_one hea).trans (inputService_atEnd hin)
  refine ⟨fun hcell => ?_, fun hout => ?_⟩
  · exact ⟨_, exec_svc_of_done (hcall.trans (serviceWrite_done.mpr ⟨hcell, rfl⟩)), storesAt_setWord s hwf _ _,
      fun _ _ => rfl, ⟨rfl, rfl, rfl⟩, ⟨rfl, rfl⟩, ⟨rfl, rfl⟩, rfl, rfl, rfl, rfl, rfl, rfl⟩
  · exact exec_svc_of_stopped (hcall.trans (serviceWrite_stopped.mpr ⟨Nat.le_of_not_lt hout, rfl, rfl⟩))

/-- What the output service appends for `n` cells: their low bytes and a terminator (R213). -/
def cellBytes (s : State) (n : Nat) : List Byte :=
  ((List.range n).map fun i => BitVec.ofNat 8 (s.word ((s.reg 1).toNat + i)).toNat) ++ [0x0A]

theorem lowByte_eq (w : Word) : w.extractLsb' 0 8 = BitVec.ofNat 8 w.toNat := by
  apply BitVec.eq_of_toNat_eq
  simp

theorem outputService_cells {s : State} (hcell : InImage s (s.reg 2).toNat)
    (hbuf : s.word (s.reg 2).toNat = 0 ∨ (s.reg 1).toNat + (s.word (s.reg 2).toNat).toNat ≤ s.cfg.memSize) :
    outputService s =
      .done { s with outStream := s.outStream ++ cellBytes s (s.word (s.reg 2).toNat).toNat } := by
  have hcells := outputCells_in_image _ _ s (hbuf.imp_left fun h0 => by rw [h0]; rfl)
  simp only [outputService, State.memRead_eq hcell, hcells, ServiceResult.andThen, lowByte_eq]
  simp only [State.emit, cellBytes, lineTerminator, List.append_assoc]

/-- Settles O44: the service changes the output stream alone. -/
theorem outputServiceWritesTheCells : Obligations.OutputServiceWritesTheCells := by
  intro s x adr hea hcell hbuf
  have hdone := outputService_cells hcell hbuf
  rw [← supervisorCall_of_eaIs_two hea] at hdone
  exact ⟨_, exec_svc_of_done hdone, (List.append_assoc ..).symm, rfl, fun _ _ => rfl, ⟨rfl, rfl, rfl⟩, fun _ => rfl,
    ⟨rfl, rfl⟩, rfl, rfl, rfl, rfl, rfl, rfl⟩

/-! ### The services that fault -/

/-- The service ends in an illegal access. -/
def ServiceResult.IllegalAccess (r : ServiceResult) : Prop := ∃ t, r = .stopped .illegalAccess t

/-- A sequence does when its first part does or, if that completes, the rest. -/
theorem ServiceResult.IllegalAccess.andThen {r : ServiceResult} {k : State → ServiceResult}
    (hr : ∀ f t, r = .stopped f t → f = .illegalAccess) (hk : ∀ t, r = .done t → (k t).IllegalAccess) :
    (r.andThen k).IllegalAccess := by
  cases r with
  | done t => exact hk t rfl
  | stopped f t =>
    obtain rfl := hr f t rfl
    exact ⟨t, rfl⟩

/-- The count cell is written by the input service in any case. -/
theorem inputService_cell_outside {s : State} (hout : ¬ InImage s (s.reg 2).toNat) :
    (inputService s).IllegalAccess := by
  have hcell : s.cfg.memSize ≤ (s.reg 2).toNat := Nat.le_of_not_lt hout
  unfold inputService
  split
  · exact ⟨s, serviceWrite_stopped.mpr ⟨hcell, rfl, rfl⟩⟩
  · refine .andThen (storeBytes_stopped _ _ _) fun t ht => ?_
    obtain ⟨-, rfl⟩ := storeBytes_done ht
    exact ⟨_, serviceWrite_stopped.mpr ⟨hcell, rfl, rfl⟩⟩

/-- A line longer than the space to the end of the image (D19). -/
theorem inputService_line_outside {s : State} {line : Line} {rest : List Line} (hin : s.inStream = line :: rest)
    (hne : line ≠ []) (hlong : s.cfg.memSize < (s.reg 1).toNat + line.length) : (inputService s).IllegalAccess := by
  obtain ⟨t, ht⟩ := storeBytes_past_image line (s.reg 1).toNat (s.setInStream rest) hne hlong
  simp only [inputService, hin, ht]
  exact ⟨t, rfl⟩

/-- The output service reads the count cell first. -/
theorem outputService_cell_outside {s : State} (hout : ¬ InImage s (s.reg 2).toNat) :
    (outputService s).IllegalAccess := by
  have hread : s.memRead (s.reg 2).toNat = .error .illegalAccess :=
    State.memRead_error.mpr ⟨Nat.le_of_not_lt hout, rfl⟩
  simp only [outputService, hread]
  exact ⟨s, rfl⟩

/-- The cells of the buffer do not wrap (D20). -/
theorem outputService_buffer_outside {s : State} (hne : s.word (s.reg 2).toNat ≠ 0)
    (hlong : s.cfg.memSize < (s.reg 1).toNat + (s.word (s.reg 2).toNat).toNat) : (outputService s).IllegalAccess := by
  by_cases hcell : InImage s (s.reg 2).toNat
  · have hcount : (s.word (s.reg 2).toNat).toNat ≠ 0 := fun h0 => hne (BitVec.eq_of_toNat_eq h0)
    obtain ⟨t, ht⟩ := outputCells_past_image _ _ s hcount hlong
    simp only [outputService, State.memRead_eq hcell, ht]
    exact ⟨t, rfl⟩
  · exact outputService_cell_outside hcell

theorem exec_svc_illegalAccess {x : Reg} {adr : Word} {s : State} (h : (supervisorCall x adr s).IllegalAccess) :
    exec (.svc x adr) s = .fault .illegalAccess := by
  obtain ⟨t, ht⟩ := h
  exact exec_svc_of_stopped ht

/-- Settles O45: the call number is looked at first, then each service faults by its own accesses. -/
theorem supervisorCallFaults : Obligations.SupervisorCallFaults := by
  intro s x adr n hea
  have input (hn : n = 1) (h : (inputService s).IllegalAccess) : exec (.svc x adr) s = .fault .illegalAccess :=
    exec_svc_illegalAccess (supervisorCall_of_eaIs_one (hn ▸ hea) ▸ h)
  have output (hn : n = 2) (h : (outputService s).IllegalAccess) : exec (.svc x adr) s = .fault .illegalAccess :=
    exec_svc_illegalAccess (supervisorCall_of_eaIs_two (hn ▸ hea) ▸ h)
  refine ⟨fun h1 h2 => ?_, fun hn hout => ?_, fun hn line rest hin hne hlong => ?_, fun hn hne hlong => ?_⟩
  · exact exec_svc_of_stopped (supervisorCall_of_unknown hea h1 h2)
  · obtain hn | hn := hn
    · exact input hn (inputService_cell_outside hout)
    · exact output hn (outputService_cell_outside hout)
  · exact input hn (inputService_line_outside hin hne hlong)
  · exact output hn (outputService_buffer_outside hne hlong)

end Sys2Proof.Machine
end

section
/-! Faults of a fetched and decoded instruction (R261; D11, D12, D17, D18), and the instructions that raise none. -/
namespace Sys2Proof.Machine

/-- `Raises i s f`: the cases in which `i` can raise `f`. An illegal access has many causes and is left open. -/
inductive Raises (i : Instr) (s : State) : Fault → Prop
  | access : Raises i s .illegalAccess
  | overflow {x : Reg} {adr : Word} {a : Nat} (hi : i = .push x adr ∨ i = .call x adr) (hea : EaIs s adr x a)
      (hsp : s.sp = 0) : Raises i s .stackOverflow
  | underflow (hi : i = .ret ∨ ∃ d, i = .pop d) (hsp : s.cfg.memSize ≤ s.sp) : Raises i s .stackUnderflow
  | unknownCall {x : Reg} {adr : Word} {n : Nat} (hi : i = .svc x adr) (hea : EaIs s adr x n) (h1 : n ≠ 1)
      (h2 : n ≠ 2) : Raises i s .invalidOperation

theorem Raises.of_eq_illegalAccess {i : Instr} {s : State} {f : Fault} (h : f = .illegalAccess) : Raises i s f :=
  h ▸ .access

theorem execLad_fault {d x : Reg} {adr : Word} {s : State} {f : Fault} (h : execLad d x adr s = .fault f) :
    f = .illegalAccess := by
  obtain h | ⟨a, -, h⟩ := except_bind_error.mp (conclude_fault.mp h)
  · exact effectiveAddress_fault h
  · cases h

theorem execSt_fault {d x : Reg} {adr : Word} {s : State} {f : Fault} (h : execSt d x adr s = .fault f) :
    f = .illegalAccess := by
  obtain h | ⟨a, -, h⟩ := except_bind_error.mp (conclude_fault.mp h)
  · exact effectiveAddress_fault h
  · exact (State.memWrite_error.mp h).2

theorem execPush_raises {x : Reg} {adr : Word} {s : State} {f : Fault} (h : execPush x adr s = .fault f) :
    Raises (.push x adr) s f := by
  by_cases hea : ∃ a, EaIs s adr x a
  · obtain ⟨a, hea⟩ := hea
    obtain ⟨hsp, rfl⟩ | ⟨-, -, rfl⟩ := (execPush_fault hea).mp h
    · exact .overflow (.inl rfl) hea hsp
    · exact .access
  · rw [execPush, conclude_effectiveAddress_bind (not_exists.mp hea)] at h
    cases h
    exact .access

/-- After the check of SP a CALL can only access memory outside the image (D17). -/
theorem execCall_raises {x : Reg} {adr : Word} {s : State} {f : Fault} (h : execCall x adr s = .fault f) :
    Raises (.call x adr) s f := by
  obtain h | ⟨a, ha, h⟩ := except_bind_error.mp (conclude_fault.mp h)
  · exact .of_eq_illegalAccess (effectiveAddress_fault h)
  · split at h
    · next hsp =>
      cases h
      exact .overflow (.inr rfl) (effectiveAddress_ok.mp ha) hsp
    · next hsp =>
      obtain h | ⟨_, -, h⟩ := except_bind_error.mp h
      · exact .of_eq_illegalAccess (State.checkTarget_error.mp h).2
      · obtain h | ⟨_, -, h⟩ := except_bind_error.mp h
        · obtain ⟨hzero, -⟩ | ⟨-, -, hf⟩ := State.push_error.mp h
          · exact absurd hzero hsp
          · exact .of_eq_illegalAccess hf
        · cases h

theorem execSvc_raises {x : Reg} {adr : Word} {s : State} {f : Fault} (h : execSvc x adr s = .fault f) :
    Raises (.svc x adr) s f := by
  unfold execSvc at h
  split at h
  · cases h
  · next hstop =>
    cases h
    obtain hf | ⟨rfl, n, hea, h1, h2⟩ := supervisorCall_stopped hstop
    · exact .of_eq_illegalAccess hf
    · exact .unknownCall rfl hea h1 h2

/-- A fault of an instruction has one of these causes. -/
theorem exec_raises {i : Instr} {s : State} {f : Fault} (h : exec i s = .fault f) : Raises i s f := by
  cases i
  case push => exact execPush_raises h
  case call => exact execCall_raises h
  case svc => exact execSvc_raises h
  case pop d =>
    obtain ⟨hsp, rfl⟩ := execPop_fault.mp h
    exact .underflow (.inr ⟨d, rfl⟩) hsp
  case ret =>
    obtain ⟨hsp, rfl⟩ := execRet_fault.mp h
    exact .underflow (.inl rfl) hsp
  case lad => exact .of_eq_illegalAccess (execLad_fault h)
  case st => exact .of_eq_illegalAccess (execSt_fault h)
  case jump | jpl | jmi | jnz | jze | jov =>
    simp only [exec, execJump, execJpl, execJmi, execJnz, execJze, execJov] at h
    exact .of_eq_illegalAccess (jumpForm_fault h)
  case sla | sra | sll | srl => exact .of_eq_illegalAccess (shiftForm_fault h)
  case cpaMem | cplMem => exact .of_eq_illegalAccess (compareMem_fault h)
  case ldMem | addaMem | subaMem | addlMem | sublMem | andMem | orMem | xorMem =>
    exact .of_eq_illegalAccess (memForm_fault h)
  case nop | hlt | ldReg | addaReg | subaReg | addlReg | sublReg | andReg | orReg | xorReg | cpaReg | cplReg => cases h

/-- Settles O53: a fault's cause by `exec_raises`, and the fault of each cause by the rule of its instruction. -/
theorem faultsComeFromTheNamedInstructions : Obligations.FaultsComeFromTheNamedInstructions := by
  refine fun i s => ⟨⟨fun h => ?_, ?_⟩, ⟨fun h => ?_, ?_⟩, ⟨fun h => ?_, ?_⟩⟩
  · cases exec_raises h with
    | overflow hi hea hsp => exact ⟨hsp, _, _, _, hi, hea⟩
  · rintro ⟨hsp, x, adr, a, rfl | rfl, hea⟩
    · exact (execPush_fault hea).mpr (.inl ⟨hsp, rfl⟩)
    · exact execCall_overflow hea hsp
  · cases exec_raises h with
    | underflow hi hsp => exact ⟨hsp, hi⟩
  · rintro ⟨hsp, rfl | ⟨d, rfl⟩⟩
    · exact execRet_fault.mpr ⟨hsp, rfl⟩
    · exact execPop_fault.mpr ⟨hsp, rfl⟩
  · cases exec_raises h with
    | unknownCall hi hea h1 h2 => exact ⟨_, _, _, hi, hea, h1, h2⟩
  · rintro ⟨x, adr, n, rfl, hea, h1, h2⟩
    exact exec_svc_of_stopped (supervisorCall_of_unknown hea h1 h2)

/-- Under `wrap` every operand has an effective address. -/
theorem exists_eaIs_of_wrap {s : State} (adr : Word) (x : Reg) (hw : s.cfg.eaWrap = .wrap) : ∃ a, EaIs s adr x a :=
  ⟨_, (eaIs_iff_of_wrap hw).mpr rfl⟩

/-- Settles O54: no check stands in a register form, and none but the effective address in a shift or LAD. -/
theorem theseInstructionsAlwaysComplete : Obligations.TheseInstructionsAlwaysComplete := by
  refine ⟨fun s d r i hi => ?_, fun s d x adr hw i hi => ?_, exec_not_refused⟩
  · simp only [List.mem_cons, List.not_mem_nil, or_false] at hi
    obtain rfl | rfl | rfl | rfl | rfl | rfl | rfl | rfl | rfl | rfl | rfl | rfl := hi <;> exact ⟨_, rfl⟩
  · obtain ⟨a, hea⟩ := exists_eaIs_of_wrap adr x hw
    have shift (f : Word → Nat → Word × Bool) : ∃ t, shiftForm f d x adr s = .next t :=
      ⟨_, shiftForm_next.mpr ⟨a, hea, rfl⟩⟩
    simp only [List.mem_cons, List.not_mem_nil, or_false] at hi
    obtain rfl | rfl | rfl | rfl | rfl := hi
    exacts [⟨_, execLad_next.mpr ⟨a, hea, rfl⟩⟩, shift _, shift _, shift _, shift _]

end Sys2Proof.Machine
end

section
/-! Reset (R36, R290; D8, D22, D33) and the run loop (R263 to R270, R277; D21 to D23, D32): what a step, an iteration, a
single step and a run leave, and how they end. -/
namespace Sys2Proof.Machine

/-! ### Reset -/

/-- The values that a reset writes meet the invariant; memory and breakpoints are as they were. -/
theorem hostReset_keeps_inv {s : State} (hs : s.Inv) : s.hostReset.Inv := by
  obtain ⟨hcfg, -, -, hwf, hbound, hbp, -⟩ := hs
  obtain ⟨-, hmax, hpc, -⟩ := id hcfg
  exact ⟨hcfg, Nat.le_refl _, (hpc.trans_le hmax).le, hwf, hbound, hbp, by simp⟩

/-- Settles O1: the fields of the reset state, one by one. -/
theorem resetWritesRegistersFlagsAndCounter : Obligations.ResetWritesRegistersFlagsAndCounter := by
  intro s
  exact ⟨s.hostReset_reg, rfl, rfl, rfl, rfl, rfl, rfl, rfl, rfl, rfl, fun _ => rfl, rfl, ⟨rfl, rfl⟩, rfl,
    hostReset_keeps_inv, rfl⟩

theorem standardConfig_wf : Config.standard.wf :=
  ⟨by decide, by decide, by decide, OpMap.standard_wf⟩

/-- Settles O2: nothing is listed in the reset state, and its registers stand at the bounds of their ranges. -/
theorem resetMeetsInvariant : Obligations.ResetMeetsInvariant :=
  ⟨standardConfig_wf, Nat.le_refl _, Nat.zero_le _, Memory.wf_nil, nofun, .nil, by simp [State.reset]⟩

/-! ### Halted and paused machines -/

/-- Settles O8: HALT is looked at first. -/
theorem haltedMachineDoesNotRun : Obligations.HaltedMachineDoesNotRun :=
  fun _ _ hs => ⟨if_pos hs, if_pos hs⟩

theorem atBreakpoint_iff {s : State} : s.atBreakpoint = true ↔ s.lastChk ≠ some s.pc ∧ s.pc ∈ s.bp := by
  simp [State.atBreakpoint]

/-- The check that a pause records keeps the next iteration from checking again. -/
theorem atBreakpoint_noteCheck (s : State) : s.noteCheck.atBreakpoint = false := by
  simp [State.atBreakpoint]

theorem step_of_atBreakpoint {s : State} (hs : s.halt = false) (hb : s.atBreakpoint = true) :
    Machine.step s = .next s.noteCheck := by
  simp [Machine.step, stepOnce, iteration, hs, hb]

theorem iterate_of_atBreakpoint {s : State} (hb : s.atBreakpoint = true) :
    iterate s = some (.breakpoint, s.noteCheck) := by
  simp [iterate, hb]

/-- Settles O7: a pause records the check and does nothing else. -/
theorem breakpointPausesOnce : Obligations.BreakpointPausesOnce := by
  intro s hs hbp hchk
  have hb := atBreakpoint_iff.mpr ⟨hchk, hbp⟩
  exact ⟨step_of_atBreakpoint hs hb, iterate_of_atBreakpoint hb, atBreakpoint_noteCheck s⟩

/-! ### Around an instruction -/

/-- Settles O6: a pause by definition; around an instruction, which keeps the loop's state, what `retire` writes. -/
theorem stepCountsCompletedInstructions : Obligations.StepCountsCompletedInstructions := by
  intro s t h
  obtain ⟨hs, ⟨hb, rfl⟩ | ⟨hb, i, u, -, hu, rfl⟩⟩ := step_next h
  · exact ⟨hs, rfl, rfl, rfl, fun _ => rfl, fun hb' => absurd (hb.symm.trans hb') (by decide)⟩
  · obtain ⟨hstep, hcount, hbp, hchk, hcfg⟩ := instructionsKeepTheLoopState i _ u hu
    rw [retire_eq]
    refine ⟨hs, hbp, hcfg, hchk, fun hb' => absurd (hb'.symm.trans hb) (by decide), fun _ =>
      ⟨congrArg (· + 1) hcount, ?_⟩⟩
    have hstep : u.stepFlag = s.stepFlag := hstep
    cases u.halt <;> simp [hstep]

/-! ### Stop causes -/

theorem completionCause_ne_fault (t : State) (f : Fault) : completionCause t ≠ f.cause := by
  unfold completionCause
  split
  · cases f <;> decide
  · split
    · cases f <;> decide
    · cases f <;> decide

theorem completionCause_eq_halt_iff (t : State) : completionCause t = .halt ↔ t.halt = true := by
  cases hhalt : t.halt with
  | true => simp [completionCause, hhalt]
  | false => cases hstep : t.stepFlag <;> simp [completionCause, hhalt, hstep]

theorem Fault.cause_ne_halt (f : Fault) : f.cause ≠ .halt := by
  cases f <;> decide

theorem leftByFault_halt (s : State) : (leftByFault s).halt = s.halt := by
  obtain ⟨m, ls, os, hleft, -⟩ := leftByFault_eq s
  rw [hleft]

/-- On a machine that may run, the cause of an iteration is HALT exactly when it has set HALT. -/
theorem iterate_halt_iff {s t : State} {c : StopCause} (hs : s.halt = false) (h : iterate s = some (c, t)) :
    c = .halt ↔ t.halt = true := by
  cases hb : s.atBreakpoint with
  | true =>
    obtain ⟨rfl, rfl⟩ := Prod.mk.inj (Option.some.inj ((iterate_of_atBreakpoint hb).symm.trans h))
    simp [hs]
  | false =>
    obtain ⟨i, u, -, -, hit⟩ | ⟨f, -, hit⟩ := iterate_cases s hb
    · obtain ⟨rfl, rfl⟩ := Prod.mk.inj (Option.some.inj (hit.symm.trans h))
      rw [retire_halt, completionCause_eq_halt_iff]
    · obtain ⟨rfl, rfl⟩ := Prod.mk.inj (Option.some.inj (hit.symm.trans h))
      simp [leftByFault_halt, hs, f.cause_ne_halt]

/-! ### Runs -/

/-- The loop goes on after `ok` and stops with every other cause. -/
theorem runLoop_succ_stopped {n : Nat} {s t : State} {c : StopCause} (h : runLoop (n + 1) s = .stopped c t) :
    (∃ u, iterate s = some (.ok, u) ∧ runLoop n u = .stopped c t) ∨ (c ≠ .ok ∧ iterate s = some (c, t)) := by
  unfold runLoop at h
  split at h
  · next u hit => exact .inl ⟨u, hit, h⟩
  · next hne hit =>
    cases h
    exact .inr ⟨hne, hit⟩
  · cases h

theorem runLoop_stopped : ∀ {n : Nat} {s t : State} {c : StopCause}, s.halt = false → runLoop n s = .stopped c t →
    c ≠ .ok ∧ (c = .halt ↔ t.halt = true)
  | 0, _, _, _, _, h => by cases h
  | n + 1, s, t, c, hs, h => by
    obtain ⟨u, hit, hrest⟩ | ⟨hne, hit⟩ := runLoop_succ_stopped h
    · have hu : u.halt = false := by simpa using (iterate_halt_iff hs hit).not.mp (by decide)
      exact runLoop_stopped hu hrest
    · exact ⟨hne, iterate_halt_iff hs hit⟩

/-- Settles O10: by induction on the iterations; the loop goes on with HALT 0. -/
theorem runNeverReturnsOk : Obligations.RunNeverReturnsOk := by
  intro n s t c h
  rw [h]
  unfold run at h
  split at h
  · cases h
  · next hs => exact runLoop_stopped (by simpa using hs) h

/-! ### Faults -/

/-- Settles O11: a fault's cause is no completion's, so the state is the one that `leftByFault` describes. -/
theorem faultLeavesStateButPc : Obligations.FaultLeavesStateButPc := by
  intro s t c f hb h hc
  obtain ⟨i, u, -, -, hit⟩ | ⟨g, -, hit⟩ := iterate_cases s hb
  · obtain ⟨rfl, -⟩ := Prod.mk.inj (Option.some.inj (hit.symm.trans h))
    exact absurd hc (completionCause_ne_fault u f)
  · obtain ⟨-, rfl⟩ := Prod.mk.inj (Option.some.inj (hit.symm.trans h))
    obtain ⟨m, ls, os, hleft, hkept⟩ := leftByFault_eq s.noteCheck
    rw [hleft]
    refine ⟨rfl, fun hout => ?_, fun i hi => ?_, rfl, rfl, fun _ _ => rfl, ⟨rfl, rfl, rfl⟩, rfl, rfl, rfl, rfl, rfl,
      fun hsvc => ?_⟩
    · show s.pc + wordsFetched s.cfg (fetchable s) = s.pc
      rw [wordsFetched_outside hout, Nat.add_zero]
    · show s.pc + wordsFetched s.cfg (fetchable s) = s.pc + i.words
      rw [wordsFetched_of_decode (fetchDecode_ok hi).2]
    · obtain ⟨rfl, hin, hout⟩ := hkept hsvc
      exact ⟨fun _ => rfl, hin, hout⟩

/-! ### The single step -/

theorem execOne_fault {s : State} {f : Fault} (h : execOne s = .fault f) :
    fetchDecode s = .error f ∨ ∃ i, fetchDecode s = .ok i ∧ exec i (s.advance i.words) = .fault f := by
  unfold execOne at h
  split at h
  · next hf => cases h; exact .inl hf
  · next i hi => exact .inr ⟨i, hi, h⟩

theorem mapNext_fault {g : State → State} {r : Result} {f : Fault} (h : mapNext g r = .fault f) : r = .fault f := by
  cases r <;> cases h
  rfl

/-- STEP is not read before an instruction has completed: the fault of a single step is a fault of the step. -/
theorem step_fault_of_setStepFlag {s : State} {v : Bool} {f : Fault} (hs : s.halt = false)
    (hb : s.atBreakpoint = false) (h : execOne (s.setStepFlag v).noteCheck = .fault f) :
    Machine.step s = .fault f := by
  obtain hfetch | ⟨i, hi, hexec⟩ := execOne_fault h
  · exact step_of_fetchDecode_error hs hb hfetch
  · have hsame := instructionsDoNotReadTheLoopState i (s.noteCheck.advance i.words) v s.icount s.bp (some s.pc)
    exact step_of_exec_fault hs hb hi (mapNext_fault (hsame.symm.trans hexec))

theorem run_one {s t : State} {c : StopCause} (hs : s.halt = false) (h : iterate s = some (c, t)) (hc : c ≠ .ok) :
    run 1 s = .stopped c t := by
  unfold run runLoop
  rw [if_neg (by simp [hs]), h]
  cases c
  case ok => exact absurd rfl hc
  all_goals rfl

/-- Settles O9: the one iteration is a pause, an instruction that halts, another instruction, which STEP ends, or a
fault. -/
theorem singleStepEndsAfterOneInstruction : Obligations.SingleStepEndsAfterOneInstruction := by
  intro s hs
  cases hb : s.atBreakpoint with
  | true =>
    have hit : iterate (s.setStepFlag true) = some (.breakpoint, (s.setStepFlag true).noteCheck) :=
      iterate_of_atBreakpoint hb
    exact ⟨_, _, run_one hs hit (by decide), .inr (.inl ⟨rfl, rfl⟩)⟩
  | false =>
    obtain ⟨i, u, -, hu, hit⟩ | ⟨f, hf, hit⟩ := iterate_cases (s.setStepFlag true) hb
    · obtain ⟨hstep, hcount, -⟩ := instructionsKeepTheLoopState i _ u hu
      have hstep : u.stepFlag = true := hstep
      have hcount : u.icount + 1 = s.icount + 1 := congrArg (· + 1) hcount
      rw [retire_eq] at hit
      cases hhalt : u.halt with
      | true =>
        have hc : completionCause u = .halt := (completionCause_eq_halt_iff u).mpr hhalt
        exact ⟨_, _, run_one hs hit (by simp [hc]), .inr (.inr (.inl ⟨hc, hhalt, by simp [hhalt, hstep], hcount⟩))⟩
      | false =>
        have hc : completionCause u = .singleStep := by simp [completionCause, hhalt, hstep]
        exact ⟨_, _, run_one hs hit (by simp [hc]), .inl ⟨hc, by simp [hhalt], hhalt, hcount⟩⟩
    · refine ⟨_, _, run_one hs hit ?_, .inr (.inr (.inr ⟨f, rfl, step_fault_of_setStepFlag hs hb hf⟩))⟩
      cases f <;> decide

end Sys2Proof.Machine
end

section
/-! The decoder and the words (R72, R74, R79): which fields of a word an instruction is built of. -/
namespace Sys2Proof

/-- The words of an instruction that was built of fields: those its format uses are the fields it was built of, and an
address word follows if its operation has one (R72). -/
theorem encode_of_buildInstr (c : Config) {o : Op} {d s : BitVec 4} {adr : Word} {i : Instr}
    (h : buildInstr d s adr o = some i) :
    ∃ d' s', encode c i = opWord c o d' s' :: (if o.format.hasAddress then [adr] else []) ∧
      (o.format ∈ [Format.r, .rr, .ra] → d' = d) ∧ (o.format ∈ [Format.rr, .ra, .a] → s' = s) := by
  cases o
  case nop | ret | hlt =>
    cases h
    exact ⟨0, 0, rfl, fun h => absurd h (by decide), fun h => absurd h (by decide)⟩
  case pop =>
    obtain ⟨r, hr, rfl⟩ := instrR_some.mp h
    exact ⟨regId r, 0, rfl, fun _ => regId_of_regOf hr, fun h => absurd h (by decide)⟩
  case jmi | jnz | jze | jump | jpl | jov | push | call | svc =>
    obtain ⟨x, hx, rfl⟩ := instrA_some.mp h
    exact ⟨0, regId x, rfl, fun h => absurd h (by decide), fun _ => regId_of_regOf hx⟩
  case ldReg | addaReg | subaReg | addlReg | sublReg | andReg | orReg | xorReg | cpaReg | cplReg =>
    obtain ⟨r, q, hr, hq, rfl⟩ := instrRR_some.mp h
    exact ⟨regId r, regId q, rfl, fun _ => regId_of_regOf hr, fun _ => regId_of_regOf hq⟩
  all_goals
    obtain ⟨r, x, hr, hx, rfl⟩ := instrRA_some.mp h
    exact ⟨regId r, regId x, rfl, fun _ => regId_of_regOf hr, fun _ => regId_of_regOf hx⟩

/-- Settles O14: the decoder builds the instruction of the words' fields, so its encoding has them. -/
theorem encodingAgreesWithDecodedWords : Obligations.EncodingAgreesWithDecodedWords := by
  intro c w rest i h
  obtain ⟨_, _, o, adr, hw, ho, haddr, hi⟩ := decode_ok h
  obtain ⟨rfl, rfl⟩ := List.cons.inj hw
  obtain ⟨d', s', hencode, hd, hs⟩ := encode_of_buildInstr c hi
  obtain rfl := buildInstr_op hi
  obtain ⟨hop, hcode⟩ := opOf_some ho
  refine ⟨hop, ?_, _, _, hencode, by rw [opField_opWord, hcode], fun hf => ?_, fun hf => ?_, fun hf => ?_⟩
  · rw [Instr.words, Op.words, List.length_cons]
    split
    · next hf =>
      obtain ⟨tail, rfl⟩ := List.head?_eq_some_iff.mp (haddr hf)
      simp
    · omega
  · rw [dField_opWord, hd hf]
  · rw [sField_opWord, hs hf]
  · obtain ⟨tail, rfl⟩ := List.head?_eq_some_iff.mp (haddr hf)
    simp [hf]

/-- An instruction is built of the fields that its format uses (R72, R79). -/
theorem buildInstr_congr {o : Op} {d d' s s' : BitVec 4} (adr : Word) (hd : o.format ∈ [Format.r, .rr, .ra] → d = d')
    (hs : o.format ∈ [Format.rr, .ra, .a] → s = s') : buildInstr d s adr o = buildInstr d' s' adr o := by
  cases o
  case nop | ret | hlt => rfl
  case pop =>
    obtain rfl := hd (by decide)
    rfl
  case jmi | jnz | jze | jump | jpl | jov | push | call | svc =>
    obtain rfl := hs (by decide)
    rfl
  all_goals
    obtain rfl := hd (by decide)
    obtain rfl := hs (by decide)
    rfl

/-- Settles O15: the decoder reads the opcode and then builds of the fields. -/
theorem unusedFieldsAreIgnored : Obligations.UnusedFieldsAreIgnored := by
  intro c o d d' s s' rest hmap ho hd hs
  have hfinish (adr : Word) : finishDecode o d s adr = finishDecode o d' s' adr := by
    simp only [finishDecode, buildInstr_congr adr hd hs]
  simp only [decode, opField_packWord, dField_packWord, sField_packWord, opOf_code hmap ho, hfinish]

/-- Settles O17: by evaluation of the decoder on the words of each row. -/
theorem workedEncodingsDecode : Obligations.WorkedEncodingsDecode := by
  unfold Obligations.WorkedEncodingsDecode
  decide

end Sys2Proof
end

section
/-! The builder's tables (R225 to R234): an item, a definition, a line and the end of a unit keep its invariant. -/
namespace Sys2Proof.Machine

/-- The invariant with the open unit apart from the closed ones. -/
theorem Builder.inv_iff {b : Builder} : b.Inv ↔
    b.image.wf ∧ b.refOffsets.Nodup ∧ (∀ off ∈ b.refOffsets, off < b.w) ∧
    ((∀ t ∈ b.units, t.names.Nodup) ∧ b.tables.names.Nodup) ∧ (b.externs.map Prod.fst).Nodup ∧
    b.externs.map Prod.fst = b.units.flatMap UnitTables.starts ++ b.tables.starts := by
  simp [Builder.Inv, Builder.everyUnit, or_imp, forall_and]

theorem start_inv {image : Memory} (h : image.wf) : (Builder.start image).Inv :=
  Builder.inv_iff.mpr ⟨h, .nil, nofun, ⟨nofun, .nil⟩, .nil, rfl⟩

/-- A new unit has no names and no references. -/
theorem snapshot_keeps_inv {b : Builder} (h : b.Inv) : b.snapshot.Inv := by
  obtain ⟨himg, hnodup, hbelow, ⟨hclosed, hopen⟩, hext, hstarts⟩ := Builder.inv_iff.mp h
  have hrefs : b.snapshot.refOffsets = b.refOffsets := by
    simp [Builder.refOffsets, Builder.snapshot, UnitTables.empty, UnitTables.refOffsets]
  refine Builder.inv_iff.mpr ⟨himg, hrefs ▸ hnodup, hrefs ▸ hbelow, ⟨?_, .nil⟩, hext, ?_⟩
  · simpa [Builder.snapshot, or_imp, forall_and] using ⟨hclosed, hopen⟩
  · simpa [Builder.snapshot, UnitTables.empty] using hstarts

/-! ### Items -/

/-- An item records no reference, or one at the write offset (R233). -/
theorem refOffsets_appendItem (b : Builder) (it : Item) :
    (b.appendItem it).refOffsets = b.refOffsets ∨ List.Perm (b.appendItem it).refOffsets (b.w :: b.refOffsets) := by
  cases it with
  | word v => exact .inl rfl
  | ref name =>
    refine .inr ?_
    simp only [Builder.refOffsets, Builder.appendItem, Builder.appendWord, UnitTables.refOffsets, List.map_append,
      ← List.append_assoc]
    exact (List.perm_append_singleton _ _).append_right _
  | literal v =>
    refine .inr ?_
    simp only [Builder.refOffsets, Builder.appendItem, Builder.appendWord, List.map_append, ← List.append_assoc]
    exact List.perm_append_singleton _ _

theorem appendItem_wf {b : Builder} (hwf : b.image.wf) (it : Item) : (b.appendItem it).image.wf := by
  cases it <;> exact Memory.wf_write hwf _ _

/-- The word at the write offset is a new one, so no word becomes referenced twice. -/
theorem appendItem_keeps_inv {b : Builder} (h : b.Inv) (it : Item) : (b.appendItem it).Inv := by
  obtain ⟨himg, hnodup, hbelow, hnames, hext, hstarts⟩ := Builder.inv_iff.mp h
  have hw : (b.appendItem it).w = b.w + 1 := (appendItem_appended b it).w
  obtain ⟨hnodup', hbelow'⟩ :
      (b.appendItem it).refOffsets.Nodup ∧ ∀ off ∈ (b.appendItem it).refOffsets, off < b.w + 1 := by
    obtain heq | hperm := refOffsets_appendItem b it
    · exact heq ▸ ⟨hnodup, fun off hoff => Nat.lt_succ_of_lt (hbelow off hoff)⟩
    · refine ⟨hperm.nodup_iff.mpr (List.nodup_cons.mpr ⟨fun hmem => Nat.lt_irrefl _ (hbelow _ hmem), hnodup⟩),
        fun off hoff => ?_⟩
      obtain rfl | hoff := List.mem_cons.mp (hperm.mem_iff.mp hoff)
      · exact Nat.lt_succ_self _
      · exact Nat.lt_succ_of_lt (hbelow off hoff)
  refine Builder.inv_iff.mpr ⟨appendItem_wf himg it, hnodup', hw ▸ hbelow', ?_⟩
  cases it <;> exact ⟨hnames, hext, hstarts⟩

theorem appendItems_keeps_inv {c : Config} {b b' : Builder} {is : List Item} (h : b.Inv)
    (happend : b.appendItems c is = some b') : b'.Inv := by
  unfold Builder.appendItems at happend
  split at happend
  · cases happend
    exact List.foldlRecOn is _ h fun _ hb it _ => appendItem_keeps_inv hb it
  · cases happend

/-! ### Lines -/

/-- A name that the unit has not defined, and no start label has if it is one, can be defined (R226 to R228). -/
theorem define_keeps_inv {b : Builder} {isStart : Bool} {name : Text} (h : b.Inv) (hnew : name ∉ b.tables.names)
    (hstart : isStart = true → name ∉ b.externs.map Prod.fst) : (b.define isStart name).Inv := by
  obtain ⟨himg, hnodup, hbelow, ⟨hclosed, hopen⟩, hext, hstarts⟩ := Builder.inv_iff.mp h
  have hcons : (name :: b.tables.names).Nodup := List.nodup_cons.mpr ⟨hnew, hopen⟩
  cases isStart with
  | true =>
    have hextern : (b.externs.map Prod.fst ++ [name]).Nodup :=
      (List.perm_append_singleton _ _).nodup_iff.mpr (List.nodup_cons.mpr ⟨hstart rfl, hext⟩)
    have hperm : List.Perm (b.define true name).tables.names (name :: b.tables.names) := by
      simp only [Builder.define, UnitTables.names, if_true, ← List.append_assoc]
      exact List.perm_append_singleton _ _
    refine Builder.inv_iff.mpr ⟨himg, hnodup, hbelow, ⟨hclosed, hperm.nodup_iff.mpr hcons⟩, ?_, ?_⟩
    · simpa [Builder.define] using hextern
    · simp [Builder.define, hstarts]
  | false =>
    have hperm : List.Perm (b.define false name).tables.names (name :: b.tables.names) := by
      simp [Builder.define, UnitTables.names]
    exact Builder.inv_iff.mpr ⟨himg, hnodup, hbelow, ⟨hclosed, hperm.nodup_iff.mpr hcons⟩, hext, hstarts⟩

/-- A record is no part of what the invariant speaks of. -/
theorem record_keeps_inv {b : Builder} (h : b.Inv) (line : Text) (tokens : List Token) (start : Nat)
    (code : LineCode) : (b.record line tokens start code).Inv := h

theorem finishLine_keeps_inv {c : Config} {b b' : Builder} {line : Text} {tokens rest : List Token} {code : LineCode}
    (hb : b.Inv) (h : b.finishLine c line tokens rest = .done code b') : b'.Inv := by
  unfold Builder.finishLine at h
  split at h
  · cases h
    exact record_keeps_inv hb line tokens b.w _
  · split at h
    · cases h
    · next happend =>
      cases h
      exact record_keeps_inv (appendItems_keeps_inv hb happend) line tokens b.w .ok

theorem labelledLine_keeps_inv {c : Config} {b b' : Builder} {line : Text} {tokens rest : List Token} {name : Text}
    {code : LineCode} (hb : b.Inv) (h : b.labelledLine c line tokens name rest = .done code b') : b'.Inv := by
  unfold Builder.labelledLine at h
  dsimp only at h
  split at h
  · cases h
    exact record_keeps_inv hb line tokens b.w _
  · next hnew =>
    split at h
    · cases h
    · next hstart =>
      refine finishLine_keeps_inv (define_keeps_inv hb ?_ fun hs => ?_) h
      · rwa [UnitTables.defines_iff] at hnew
      · simpa [hs] using hstart

theorem assembleLine_keeps_inv {c : Config} {b b' : Builder} {line : Text} {code : LineCode} (hb : b.Inv)
    (h : b.assembleLine c line = .done code b') : b'.Inv := by
  unfold Builder.assembleLine at h
  dsimp only at h
  split at h
  · cases h
  · split at h
    · cases h
    · split at h
      · exact labelledLine_keeps_inv hb h
      · exact finishLine_keeps_inv hb h

/-- Settles O56: the empty build, a line by what its label defines and its items record, and a new unit. -/
theorem buildingKeepsInvariant : Obligations.BuildingKeepsInvariant :=
  ⟨fun _ => start_inv, fun _ _ _ _ _ => assembleLine_keeps_inv, fun _ => snapshot_keeps_inv⟩

end Sys2Proof.Machine
end

section
/-! IN and OUT (R232), the literal pool (R241) and the link (R242 to R244; D30). -/
namespace Sys2Proof.Machine

/-! ### What a row of items leaves -/

/-- Each reference is recorded at its item's offset. -/
theorem foldl_appendItem_refs : ∀ (is : List Item) (b : Builder),
    (is.foldl Builder.appendItem b).tables.refs = b.tables.refs ++ (is.zipIdx b.w).flatMap fun p => p.1.refAt p.2
  | [], b => by simp
  | it :: is, b => by
    have hrest := foldl_appendItem_refs is (b.appendItem it)
    rw [(appendItem_appended b it).w] at hrest
    rw [List.foldl_cons, hrest, List.zipIdx_cons, List.flatMap_cons, ← List.append_assoc]
    cases it <;> simp [Builder.appendItem, Builder.appendWord, Item.refAt]

/-- And each literal reference. -/
theorem foldl_appendItem_litRefs : ∀ (is : List Item) (b : Builder),
    (is.foldl Builder.appendItem b).litRefs = b.litRefs ++ (is.zipIdx b.w).flatMap fun p => p.1.literalAt p.2
  | [], b => by simp
  | it :: is, b => by
    have hrest := foldl_appendItem_litRefs is (b.appendItem it)
    rw [(appendItem_appended b it).w] at hrest
    rw [List.foldl_cons, hrest, List.zipIdx_cons, List.flatMap_cons, ← List.append_assoc]
    cases it <;> simp [Builder.appendItem, Builder.appendWord, Item.literalAt]

/-- The word of an item, the placeholder of a reference, stands where the item was appended. -/
theorem appendItem_read {b : Builder} (hwf : b.image.wf) (it : Item) :
    (b.appendItem it).image.read b.w = it.initial := by
  cases it <;> exact Memory.read_write_same hwf _ _

theorem foldl_appendItem_words : ∀ (is : List Item) (b : Builder), b.image.wf →
    ((List.range is.length).map fun k => (is.foldl Builder.appendItem b).image.read (b.w + k)) = is.map Item.initial
  | [], _, _ => rfl
  | it :: is, b, hwf => by
    have hw := (appendItem_appended b it).w
    have hrest := foldl_appendItem_words is (b.appendItem it) (appendItem_wf hwf it)
    have hfirst := (appendItems_appended is (b.appendItem it)).img b.w (by omega)
    rw [hw] at hrest
    simp only [List.length_cons, List.range_succ_eq_map, List.map_cons, List.map_map, List.foldl_cons, ← hrest,
      Nat.add_zero, hfirst, appendItem_read hwf, Function.comp_def, Nat.add_assoc, Nat.add_comm 1]

/-! ### IN and OUT -/

theorem addrItem_of_addressToken {t : Token} {it : Item} (h : AddressToken t it) : addrItem t = some it := by
  cases h <;> rfl

/-- The two operands stand sixth and eighth among twelve words. -/
theorem expandInOut_eq (c : Config) (m : MacroOp) (a b : Item) : ∃ w0 w1 w2 w3 w4 w6 w8 w9 w10 w11 : Word,
    expandInOut c m a b = [.word w0, .word w1, .word w2, .word w3, .word w4, a, .word w6, b, .word w8, .word w9,
      .word w10, .word w11] :=
  ⟨_, _, _, _, _, _, _, _, _, _, rfl⟩

/-- Settles O58: the twelve words by evaluation; what they leave in a build, by the rules for a row of items. -/
theorem inOutExpandToSevenInstructions : Obligations.InOutExpandToSevenInstructions := by
  intro c m a b
  refine ⟨by cases m <;> rfl, rfl, fun ta tb ha hb => ?_, fun bld hwf => ⟨?_, ?_, ?_, ?_⟩⟩
  · simp only [inOutBody, needOperands, addrItem_of_addressToken ha, addrItem_of_addressToken hb]
    rfl
  · exact (appendItems_appended _ bld).w
  · rw [foldl_appendItem_refs]
    obtain ⟨_, _, _, _, _, _, _, _, _, _, hexpand⟩ := expandInOut_eq c m a b
    simp [hexpand, Item.refAt]
  · rw [foldl_appendItem_litRefs]
    obtain ⟨_, _, _, _, _, _, _, _, _, _, hexpand⟩ := expandInOut_eq c m a b
    simp [hexpand, Item.literalAt]
  · exact foldl_appendItem_words (expandInOut c m a b) bld hwf

/-! ### The literal pool -/

theorem insertWord_sorted (v : Word) : ∀ {ws : List Word}, ws.Pairwise (fun u w => u.toNat < w.toNat) →
    (insertWord v ws).Pairwise (fun u w => u.toNat < w.toNat)
  | [], _ => List.pairwise_singleton _ _
  | w :: ws, h => by
    obtain ⟨hw, hws⟩ := List.pairwise_cons.mp h
    unfold insertWord
    split
    · next hlt =>
      refine List.pairwise_cons.mpr ⟨fun u hu => ?_, h⟩
      obtain rfl | hu := List.mem_cons.mp hu
      · exact hlt
      · exact hlt.trans (hw u hu)
    · next hle =>
      split
      · exact h
      · next hne =>
        have hgt : w.toNat < v.toNat :=
          Nat.lt_of_le_of_ne (Nat.le_of_not_lt hle) fun heq => hne (BitVec.eq_of_toNat_eq heq.symm)
        refine List.pairwise_cons.mpr ⟨fun u hu => ?_, insertWord_sorted v hws⟩
        obtain rfl | hu := mem_insertWord.mp hu
        · exact hgt
        · exact hw u hu

theorem mem_literalValues_iff {v : Word} : ∀ {refs : List (Word × Nat)},
    v ∈ literalValues refs ↔ ∃ off, (v, off) ∈ refs
  | [] => by simp [literalValues]
  | e :: refs => by
    rw [show literalValues (e :: refs) = insertWord e.1 (literalValues refs) from rfl, mem_insertWord,
      mem_literalValues_iff]
    simp [Prod.ext_iff, exists_or, eq_comm]

theorem literalValues_sorted (refs : List (Word × Nat)) :
    (literalValues refs).Pairwise (fun v w => v.toNat < w.toNat) :=
  List.foldrRecOn refs _ .nil fun _ h e _ => insertWord_sorted e.1 h

/-- Settles O59: each insertion keeps the order and adds its word. -/
theorem literalPoolIsSortedAndUnique : Obligations.LiteralPoolIsSortedAndUnique :=
  fun refs => ⟨literalValues_sorted refs, fun _ => mem_literalValues_iff⟩

/-! ### The link -/

/-- The locations that a link patches, each with its target: the literal references, then the units' references. -/
def linkPatches (b : Builder) : List (Nat × Option Nat) :=
  (b.litRefs.map fun e => (e.2, (poolAddresses (literalValues b.litRefs) b.w).lookup e.1)) ++
    b.allUnits.flatMap fun t => t.refs.map fun e => (e.2, resolveName b.externs t.defs e.1)

theorem mem_linkPatches_of_ref {b : Builder} {t : UnitTables} {e : Text × Nat} (ht : t ∈ b.allUnits)
    (he : e ∈ t.refs) : (e.2, resolveName b.externs t.defs e.1) ∈ linkPatches b :=
  List.mem_append_right _ (List.mem_flatMap.mpr ⟨t, ht, List.mem_map.mpr ⟨e, he, rfl⟩⟩)

theorem mem_linkPatches_of_literal {b : Builder} {e : Word × Nat} (he : e ∈ b.litRefs) :
    (e.2, (poolAddresses (literalValues b.litRefs) b.w).lookup e.1) ∈ linkPatches b :=
  List.mem_append_left _ (List.mem_map.mpr ⟨e, he, rfl⟩)

/-- The image after the literal pool and before the patches. -/
def pooledImage (b : Builder) : Memory := ((literalValues b.litRefs).foldl Builder.appendWord b).image

theorem pooledImage_wf {b : Builder} (himg : b.image.wf) : (pooledImage b).wf := by
  obtain ⟨-, -, hpool⟩ := literalPool_appended (literalValues b.litRefs) b
  exact (hpool himg).1

/-- A referenced literal stands at its address in the pool. -/
theorem pooledImage_literal {b : Builder} (himg : b.image.wf) {e : Word × Nat} (he : e ∈ b.litRefs) :
    ∃ a, (poolAddresses (literalValues b.litRefs) b.w).lookup e.1 = some a ∧ b.w ≤ a ∧
      a < b.w + (literalValues b.litRefs).length ∧ (pooledImage b).read a = e.1 := by
  obtain ⟨-, -, hpool⟩ := literalPool_appended (literalValues b.litRefs) b
  exact (hpool himg).2 e.1 (mem_literalValues he)

/-- The image after the patches. -/
def linkedImage (b : Builder) : Memory := (linkPatches b).foldl (fun m e => patch m e.1 e.2) (pooledImage b)

/-- What a link that is not refused answers. -/
theorem link_done {c : Config} {b b' : Builder} {success : Bool} {unresolved : SymbolMap}
    (h : b.link c = .done success unresolved b') :
    success = (b.allUnits.flatMap (unresolvedIn b.externs)).isEmpty ∧
      b'.w = b.w + (literalValues b.litRefs).length ∧
      b'.image = linkedImage b := by
  unfold Builder.link at h
  dsimp only at h
  split at h
  · cases h
  · cases h
    refine ⟨rfl, (literalPool_appended (literalValues b.litRefs) b).1, ?_⟩
    rw [linkedImage, linkPatches, List.foldl_append, List.foldl_map, ← patchUnits_eq]
    rfl

/-- They are the reference words of the build. -/
theorem linkPatches_locations (b : Builder) : List.Perm ((linkPatches b).map Prod.fst) b.refOffsets := by
  have hlits : (b.litRefs.map fun e => (e.2, (poolAddresses (literalValues b.litRefs) b.w).lookup e.1)).map Prod.fst =
      b.litRefs.map Prod.snd := by
    rw [List.map_map]
    rfl
  have hunits : (b.allUnits.flatMap fun t => t.refs.map fun e => (e.2, resolveName b.externs t.defs e.1)).map Prod.fst =
      b.allUnits.flatMap UnitTables.refOffsets := by
    simp only [List.map_flatMap, List.map_map]
    rfl
  rw [linkPatches, List.map_append, hlits, hunits, allUnits_refOffsets]
  exact List.perm_append_comm

/-- Nothing is unresolved exactly when every reference of every unit has a target. -/
theorem unresolved_isEmpty_iff (units : List UnitTables) (externs : SymbolMap) :
    (units.flatMap (unresolvedIn externs)).isEmpty = true ↔
      ∀ t ∈ units, ∀ e ∈ t.refs, ∃ off, resolveName externs t.defs e.1 = some off := by
  simp [List.isEmpty_iff, unresolvedIn, ← Option.ne_none_iff_exists']

section
variable {b : Builder} (hb : b.Inv)
include hb

/-- Every location with a target holds it after the patches. -/
theorem linkedImage_read_location {off target : Nat} (h : (off, some target) ∈ linkPatches b) :
    (linkedImage b).read off = BitVec.ofNat 16 target := by
  obtain ⟨himg, hnodup, -⟩ := hb
  exact patches_at _ _ (pooledImage_wf himg) ((linkPatches_locations b).nodup_iff.mpr hnodup) off target h

/-- The pool stands above every location that is patched. -/
theorem linkedImage_read_pool {a : Nat} (h : b.w ≤ a) : (linkedImage b).read a = (pooledImage b).read a := by
  obtain ⟨-, -, hbelow, -⟩ := hb
  refine patches_other _ _ a fun hmem => ?_
  exact absurd (hbelow a ((linkPatches_locations b).mem_iff.mp hmem)) (Nat.not_lt.mpr h)

end

/-- Settles O60: the link is one row of patches over the image with its pool, each location named once. -/
theorem linkPatchesEveryReference : Obligations.LinkPatchesEveryReference := by
  intro c b b' success unresolved hb h
  obtain ⟨hsuccess, hw, himage⟩ := link_done h
  obtain ⟨himg, -⟩ := id hb
  rw [himage]
  refine ⟨?_, fun t ht e he off hoff => ?_, fun e he => ?_⟩
  · rw [hsuccess, unresolved_isEmpty_iff]
    simp only [resolveName_some]
  · exact linkedImage_read_location hb (resolveName_some.mpr hoff ▸ mem_linkPatches_of_ref ht he)
  · obtain ⟨a, haddr, hle, hlt, hread⟩ := pooledImage_literal himg he
    refine ⟨a, hle, hw ▸ hlt, ?_, ?_⟩
    · exact linkedImage_read_location hb (haddr ▸ mem_linkPatches_of_literal he)
    · rw [linkedImage_read_pool hb hle, hread]

end Sys2Proof.Machine
end
